-- ==== Sys2Proof/Word.lean ====
section
/-!
DEFINITION. The words and values of the UCheckIn encoder block: register widths, command words, samples, host
values, and the carrier of the numbers in State (00_scope.md R10, R15).
-/
namespace Sys2Proof

/-- A 32-bit register value (00_scope.md R10: `u32`, and `i32` when it is read as signed). -/
abbrev U32 := BitVec 32

/-- The command word of 30_encoding.md R80. -/
abbrev CmdWord := BitVec 16

/-- The eight valid flags of `STATUS`, bit k being flag k of 10_state.md R23. -/
abbrev Flags := BitVec 8

/-- A character of `MSG` (00_scope.md R10: `char`). -/
abbrev Char8 := BitVec 8

/-- An element of a lookup table: the pattern `b3 b2 b1 b0` (00_scope.md R11). -/
abbrev Pattern := BitVec 4

/-- An `OUT` element: the two's-complement pattern of an `i16` (20_memory.md R62). -/
abbrev Sample := BitVec 16

/-- The carrier the machine of the fixed names has for `Num` (00_scope.md R15).
DESIGN CHOICE, log 1: exact rational numbers, so that State can be compared and written out. Every definition that
computes with `Num` takes the numerics record as an argument and holds for any carrier. -/
abbrev NumVal := Rat

/-- A value that passes the host port: an integer, or a `Num` (20_memory.md R64 to R66; 30_encoding.md R86). -/
inductive HostVal (α : Type) where
  | int (v : Int)
  | num (q : α)
  deriving DecidableEq, Repr, Inhabited

end Sys2Proof
end

