-- ==== Sys2Proof/Syntax.lean ====
section
/-!
DEFINITION. The commands of 30_encoding.md R84, one constructor per row of spec/opcode_table.json, the three values of
the operand field `sel` (R83), and the names of the registers (10_state.md R21) and buffers (10_state.md R32).
-/
namespace Sys2Proof

/-- The eleven commands (30_encoding.md R84). No command carries an immediate value or an address (R83, R60). -/
inductive Instr where
  | nop
  | init
  | map
  | fec
  | chirpSync
  | chirpUp
  | chirpDown
  | asm
  | rend
  | run
  | clrErr
  deriving DecidableEq, Repr

/-- The two word formats (30_encoding.md R81, R82). -/
inductive Format where
  /-- no operand: `arg` is zero -/
  | c0
  /-- chirp select: `arg[7:2]` is zero and `arg[1:0]` is `sel` -/
  | c1
  deriving DecidableEq, Repr

/-- The legal values of `sel`, which choose a chirp's destination (30_encoding.md R83). -/
inductive ChirpSel where
  | sync
  | up
  | down
  deriving DecidableEq, Repr

/-- The registers of 10_state.md R21, in the order of their numbers. -/
inductive RegName where
  | cmd | status | err | errInfo | mode | fc | bw | tsym | fs | ovsamp
  | interval | repeatCount | volume | msgLen | bitLen | codedLen | parCnt | asmLen | gap | outLen
  deriving DecidableEq, Repr

/-- The buffers of 10_state.md R32, in the order of their space numbers. -/
inductive Space where
  | msg | lutA | lutB | bits | coded | sync | up | down | asm | out
  deriving DecidableEq, Repr

/-- The host's moves (20_memory.md R74). A command is issued by `regWrite 0 (.int w)` (10_state.md R22). -/
inductive HostMove (α : Type) where
  | regRead (n : Nat)
  | regWrite (n : Nat) (v : HostVal α)
  | memRead (space k : Nat)
  | memWrite (space k : Nat) (v : HostVal α)
  | reset
  deriving DecidableEq, Repr

end Sys2Proof
end

