-- ==== Sys2Proof/WellFormed.lean ====
section
/-!
DEFINITION. Which command words are legal (30_encoding.md R81, R82, R85), check by check. The commands themselves have
no operands, so that every term of `Instr` is well formed; what can be ill formed is a word.
-/
namespace Sys2Proof

/-- The field `op`, bits 15:8 (30_encoding.md R80). -/
def wordOp (w : CmdWord) : BitVec 8 := w.extractLsb' 8 8

/-- The field `arg`, bits 7:0 (30_encoding.md R80). -/
def wordArg (w : CmdWord) : BitVec 8 := w.extractLsb' 0 8

/-- The field `sel`, bits 1:0 (30_encoding.md R82). -/
def wordSel (w : CmdWord) : BitVec 2 := w.extractLsb' 0 2

/-- `op` is one of the nine assigned opcodes (30_encoding.md R84, R85). -/
def opAssigned (w : CmdWord) : Bool := (wordOp w).toNat ≤ 8

/-- A word of format C0 has `arg` zero (30_encoding.md R81). -/
def argLegal (w : CmdWord) : Bool := wordOp w == 4#8 || wordArg w == 0#8

/-- A word of format C1 has `arg[7:2]` zero (30_encoding.md R82). -/
def highArgLegal (w : CmdWord) : Bool := wordOp w != 4#8 || (wordArg w).extractLsb' 2 6 == 0#6

/-- A word of format C1 does not select 3 (30_encoding.md R83). -/
def selLegal (w : CmdWord) : Bool := wordOp w != 4#8 || wordSel w != 3#2

/-- The word passes every check. -/
def wordWellFormed (w : CmdWord) : Bool := opAssigned w && argLegal w && highArgLegal w && selLegal w

/-- Every command is well formed: none has an operand (30_encoding.md R83: `sel` is part of the command's name). -/
def Instr.wellFormed : Instr → Bool
  | .nop | .init | .map | .fec | .chirpSync | .chirpUp | .chirpDown | .asm | .rend | .run | .clrErr => true

end Sys2Proof
end

