-- ==== Sys2Proof/Decode.lean ====
section
/-!
DEFINITION. Decoding a command word (30_encoding.md R80 to R85), and encoding one from the table of R84.
-/
namespace Sys2Proof

/-- Why a word is illegal (30_encoding.md R85). -/
inductive DecodeError where
  /-- `op` in `0x09..0xFF` -/
  | unassignedOpcode (op : BitVec 8)
  /-- a C0 opcode with `arg` not zero -/
  | operandNotZero (arg : BitVec 8)
  /-- `op` 4 with `arg` at least 3 -/
  | noSuchChirp (arg : BitVec 8)
  deriving DecidableEq, Repr

/-- Format C0: the command stands only with `arg` zero (30_encoding.md R81). -/
def decodeC0 (i : Instr) (arg : BitVec 8) : Except DecodeError Instr :=
  if arg = 0#8 then .ok i else .error (.operandNotZero arg)

/-- Format C1: `arg` is `sel` with six zero bits before it (30_encoding.md R82, R83). -/
def decodeC1 (arg : BitVec 8) : Except DecodeError Instr :=
  match arg.toNat with
  | 0 => .ok .chirpSync
  | 1 => .ok .chirpUp
  | 2 => .ok .chirpDown
  | _ => .error (.noSuchChirp arg)

/-- The decoder: total, and every word outside the eleven rows of 30_encoding.md R84 is rejected by name. -/
def decode (w : CmdWord) : Except DecodeError Instr :=
  match (wordOp w).toNat with
  | 0 => decodeC0 .nop (wordArg w)
  | 1 => decodeC0 .init (wordArg w)
  | 2 => decodeC0 .map (wordArg w)
  | 3 => decodeC0 .fec (wordArg w)
  | 4 => decodeC1 (wordArg w)
  | 5 => decodeC0 .asm (wordArg w)
  | 6 => decodeC0 .rend (wordArg w)
  | 7 => decodeC0 .run (wordArg w)
  | 8 => decodeC0 .clrErr (wordArg w)
  | _ => .error (.unassignedOpcode (wordOp w))

/-- The command a word is, if it is one. -/
def decodeWord (w : CmdWord) : Option Instr :=
  match decode w with
  | .ok i => some i
  | .error _ => none

/-- The format column of 30_encoding.md R84. -/
def formatOf : Instr → Format
  | .chirpSync | .chirpUp | .chirpDown => .c1
  | .nop | .init | .map | .fec | .asm | .rend | .run | .clrErr => .c0

/-- The `op` column of 30_encoding.md R84. -/
def opOf : Instr → BitVec 8
  | .nop => 0x00#8
  | .init => 0x01#8
  | .map => 0x02#8
  | .fec => 0x03#8
  | .chirpSync | .chirpUp | .chirpDown => 0x04#8
  | .asm => 0x05#8
  | .rend => 0x06#8
  | .run => 0x07#8
  | .clrErr => 0x08#8

/-- The `arg` column of 30_encoding.md R84. -/
def argOf : Instr → BitVec 8
  | .chirpUp => 0x01#8
  | .chirpDown => 0x02#8
  | .nop | .init | .map | .fec | .chirpSync | .asm | .rend | .run | .clrErr => 0x00#8

/-- The word of a command: `op` in bits 15:8, `arg` in bits 7:0 (30_encoding.md R80). -/
def encode (i : Instr) : CmdWord := opOf i ++ argOf i

/-- What the decoder reads from an instruction whose bits are `w`, bit 0 the least significant of the one word
(spec/opcode_table.json); bits at and above `nbits` are zero. -/
def decodeTableWord (nbits w : Nat) : Option Instr := decodeWord (BitVec.ofNat 16 (w % 2 ^ nbits))

end Sys2Proof
end

