-- ==== Sys2Proof/Config.lean ====
section
/-!
DEFINITION. The parameters the model takes as arguments (00_scope.md R9), the numerics record among them (R15), the
constraints and laws the spec puts on them, and the free values. Every definition that depends on a parameter takes it
as an argument. The machine of the fixed names gives them the constants below, which have no body where the spec leaves
them open: nothing proved can depend on which value it is.
-/
namespace Sys2Proof

/-! ### The numerics record -/

/-- The record `NUM` over a carrier `α` (00_scope.md R15). An element that stands for zero is `zero`: a negative zero is
the same element (U27; log 1). -/
structure NUM (α : Type) where
  zero : α
  half : α
  one : α
  two : α
  /-- the constant 1000 -/
  thousand : α
  /-- the constant 32767 -/
  fullScale : α
  pi : α
  ofNat : Nat → α
  ofInt : Int → α
  /-- the representation of the decimal `n / 10^places` (10_state.md R44, 30_encoding.md R86; log 22) -/
  ofDecimal : (n : Int) → (places : Nat) → α
  add : α → α → α
  sub : α → α → α
  mul : α → α → α
  div : α → α → α
  neg : α → α
  abs : α → α
  sin : α → α
  cos : α → α
  lt : α → α → Bool
  le : α → α → Bool
  /-- equality with 0 -/
  isZero : α → Bool
  /-- not an infinity and not a not-a-number (U16; log 23) -/
  finite : α → Bool
  ceil : α → Int
  round : α → Int

/-- The laws required of `NUM`, on its finite values (00_scope.md R15; log 23). -/
structure NUM.Lawful {α : Type} (N : NUM α) : Prop where
  sin_zero : N.sin N.zero = N.zero
  zero_add : ∀ v, N.finite v = true → N.add N.zero v = v
  zero_mul : ∀ v, N.finite v = true → N.mul N.zero v = N.zero
  mul_zero : ∀ v, N.finite v = true → N.mul v N.zero = N.zero
  mul_one : ∀ v, N.finite v = true → N.mul v N.one = v
  div_self : ∀ v, N.finite v = true → N.isZero v = false → N.div v v = N.one
  zero_div : ∀ v, N.finite v = true → N.isZero v = false → N.div N.zero v = N.zero
  isZero_iff : ∀ v, N.finite v = true → (N.isZero v = true ↔ v = N.zero)
  lt_irrefl : ∀ v, N.finite v = true → N.lt v v = false
  lt_trans : ∀ u v w, N.finite u = true → N.finite v = true → N.finite w = true →
    N.lt u v = true → N.lt v w = true → N.lt u w = true
  lt_total : ∀ v w, N.finite v = true → N.finite w = true → N.lt v w = true ∨ v = w ∨ N.lt w v = true
  le_iff : ∀ v w, N.finite v = true → N.finite w = true → (N.le v w = true ↔ N.lt v w = true ∨ v = w)

/-! ### The parameters -/

/-- The values the spec calls unspecified, or leaves unstated while the block goes on. -/
structure Free (α : Type) where
  /-- element `k` of `MSG` where nothing has been written, in the unspecified contents number `gen` (10_state.md R44;
  93_implementation_defined.md U11; log 11) -/
  char : (gen k : Nat) → Char8
  /-- element `k` of `BITS` where nothing has been written (10_state.md R34; U11, U13; log 11) -/
  bit : (gen k : Nat) → Bool
  /-- element `k` of `CODED` where no command has produced one (10_state.md R33; log 12) -/
  coded : (k : Nat) → Bool
  /-- element `k` of the `Num` buffer number `space` where no command has produced one (10_state.md R33; log 12) -/
  sample : (space k : Nat) → α
  /-- what a host read of an unspecified integer element returns after `epoch` changes (20_memory.md R64; U10; log 10) -/
  word : (epoch space k : Nat) → U32
  /-- what a host read of an unspecified `Num` element returns (20_memory.md R64; U10; log 10) -/
  num : (epoch space k : Nat) → α
  /-- what a host read of a place that does not exist returns (20_memory.md R68; U14; log 10) -/
  value : (epoch space k : Nat) → HostVal α
  /-- what a length register holds of a length `n` that does not fit its 32 bits (log 20) -/
  length : (n : Nat) → U32

/-- The parameters of the model (00_scope.md R9) and its free values. -/
structure Params (α : Type) where
  /-- `NUM` (D10) -/
  num : NUM α
  /-- the Hann window `H` of length `di`, kept replaceable (D12; 43_chirp_synthesizer.md R177) -/
  hann : (di k : Nat) → α
  /-- `LUTA`, indexed by the digit's value (10_state.md R36; D19) -/
  lutA : BitVec 4 → Pattern
  /-- `LUTB` (10_state.md R36; D19) -/
  lutB : BitVec 4 → Pattern
  nmax : Nat
  tmax : Nat
  outmax : Nat
  /-- `HEX_LOWER_OK`, or none where it is not fixed (41_symbol_mapper.md R123; D17) -/
  hexLowerOk : Option Bool
  /-- `CHIRP_NORM_ABS`, with its default (43_chirp_synthesizer.md R179; D14) -/
  chirpNormAbs : Bool := false
  free : Free α

/-- The constraint column of 00_scope.md R9. -/
structure Params.Valid {α : Type} (P : Params α) : Prop where
  num : P.num.Lawful
  nmax : 5 ≤ P.nmax
  tmax : 1024 ≤ P.tmax
  outmax_ge : 567680 ≤ P.outmax
  outmax_lt : P.outmax < 2 ^ 32

/-! ### What the machine of the fixed names is given -/

/-- What the plain-data number domain leaves free: a value for pi and the values of the sine on the first quarter turn,
before they are confined to the enclosures of Machine/Numerics.lean (log 2, log 3). -/
structure Numerics where
  piRaw : NumVal
  sinRaw : NumVal → NumVal

/-- The free value behind `pi` (log 2). -/
opaque Config.piRaw : NumVal

/-- The free values behind `sin` and `cos` (log 3). -/
opaque Config.sinRaw : NumVal → NumVal

/-- Lookup table A (OPEN, D19; log 5). -/
opaque Config.lutA : BitVec 4 → Pattern

/-- Lookup table B (OPEN, D19; log 5). -/
opaque Config.lutB : BitVec 4 → Pattern

/-- `CHIRP_NORM_ABS`: free, so that what is proved of the machine holds of its default and of its other value (log 7). -/
opaque Config.chirpNormAbs : Bool

/-- The free number behind the capacity `NMAX` (log 4). -/
opaque Config.nmaxRaw : Nat

/-- The free number behind the capacity `TMAX` (log 4). -/
opaque Config.tmaxRaw : Nat

/-- The free number behind the capacity `OUTMAX` (log 4). -/
opaque Config.outmaxRaw : Nat

/-- Free value: an unwritten character (log 11). -/
opaque Config.unspecChar : (gen k : Nat) → Char8

/-- Free value: an unwritten bit (log 11). -/
opaque Config.unspecBit : (gen k : Nat) → Bool

/-- Free value: an element of `CODED` that no command has produced (log 12). -/
opaque Config.unspecCoded : (k : Nat) → Bool

/-- Free value: a sample that no command has produced (log 12). -/
opaque Config.unspecSample : (space k : Nat) → NumVal

/-- Free value: a host read of an unspecified integer element (log 10). -/
opaque Config.unspecWord : (epoch space k : Nat) → U32

/-- Free value: a host read of an unspecified `Num` element (log 10). -/
opaque Config.unspecNum : (epoch space k : Nat) → NumVal

/-- Free value: a host read of a place that does not exist (log 10). -/
opaque Config.unspecVal : (epoch space k : Nat) → HostVal NumVal

/-- Free value: a length that does not fit its register (log 20). -/
opaque Config.unspecLength : (n : Nat) → U32

/-- The free values of the machine. -/
def Config.free : Free NumVal where
  char := Config.unspecChar
  bit := Config.unspecBit
  coded := Config.unspecCoded
  sample := Config.unspecSample
  word := Config.unspecWord
  num := Config.unspecNum
  value := Config.unspecVal
  length := Config.unspecLength

end Sys2Proof
end

