-- ==== Sys2Proof/Machine/Capacity.lean ====
section
/-!
DEFINITION. The capacities of the buffers (00_scope.md R9, 10_state.md R32), and the parity count `rmin` they depend on
(42_fec_encoder.md R141).
-/
namespace Sys2Proof.Machine

/-- The search of 42_fec_encoder.md R141, upward from `r`, for at most `fuel` steps. -/
def rminFrom (m : Nat) : (fuel r : Nat) → Nat
  | 0, r => r
  | fuel + 1, r => if m + r + 1 ≤ 2 ^ r then r else rminFrom m fuel (r + 1)

/-- `rmin(m)`: the least `r` with `2^r ≥ m + r + 1` (42_fec_encoder.md R141). -/
def rmin (m : Nat) : Nat := rminFrom m (m + 1) 0

/-- The machine's `NMAX`: free, at least 5 (00_scope.md R9; log 4). -/
@[irreducible] def nmax : Nat := Config.nmaxRaw + 5

/-- The machine's `TMAX`: free, at least 1024 (00_scope.md R9; log 4). -/
@[irreducible] def tmax : Nat := Config.tmaxRaw + 1024

/-- The machine's `OUTMAX`: free, from 567680 up to below `2^32` (00_scope.md R9; log 4). -/
@[irreducible] def outmax : Nat := Config.outmaxRaw % (2 ^ 32 - 567680) + 567680

end Sys2Proof.Machine

namespace Sys2Proof

/-- `MMAX`, the capacity of `BITS` (00_scope.md R9). -/
def Params.mmax {α : Type} (P : Params α) : Nat := 4 * P.nmax

/-- `CMAX`, the capacity of `CODED` (00_scope.md R9). -/
def Params.cmax {α : Type} (P : Params α) : Nat := P.mmax + Machine.rmin P.mmax + 2

/-- `ASMMAX`, the capacity of `ASM` (00_scope.md R9). -/
def Params.asmmax {α : Type} (P : Params α) : Nat := (5 + P.cmax) * P.tmax

/-- A buffer's space number (10_state.md R32). -/
def Space.number : Space → Nat
  | .msg => 1
  | .lutA => 2
  | .lutB => 3
  | .bits => 4
  | .coded => 5
  | .sync => 6
  | .up => 7
  | .down => 8
  | .asm => 9
  | .out => 10

/-- The buffer of a space number, if there is one (10_state.md R32, 20_memory.md R60). -/
def Space.ofNumber : Nat → Option Space
  | 1 => some .msg
  | 2 => some .lutA
  | 3 => some .lutB
  | 4 => some .bits
  | 5 => some .coded
  | 6 => some .sync
  | 7 => some .up
  | 8 => some .down
  | 9 => some .asm
  | 10 => some .out
  | _ => none

/-- The capacity column of 10_state.md R32. -/
def Params.capacity {α : Type} (P : Params α) : Space → Nat
  | .msg => P.nmax
  | .lutA => 16
  | .lutB => 16
  | .bits => P.mmax
  | .coded => P.cmax
  | .sync => 4 * P.tmax
  | .up => P.tmax
  | .down => P.tmax
  | .asm => P.asmmax
  | .out => P.outmax

end Sys2Proof
end

