-- ==== Sys2Proof/Machine/Flags.lean ====
section
/-!
DEFINITION. The valid flags: their masks (10_state.md R23), which a command needs (40_control.md R100), and which a
command or a host write sets and clears (10_state.md R34, R35).
-/
namespace Sys2Proof.Machine

/-- `V.CFG` -/
def vCfg : Flags := 0x01#8
/-- `V.BITS` -/
def vBits : Flags := 0x02#8
/-- `V.CODED` -/
def vCoded : Flags := 0x04#8
/-- `V.SYNC` -/
def vSync : Flags := 0x08#8
/-- `V.UP` -/
def vUp : Flags := 0x10#8
/-- `V.DOWN` -/
def vDown : Flags := 0x20#8
/-- `V.ASM` -/
def vAsm : Flags := 0x40#8
/-- `V.OUT` -/
def vOut : Flags := 0x80#8

/-- Whether every flag of the mask `f` is 1 in `st`. -/
def hasFlags (st f : Flags) : Bool := st &&& f == f

/-- Whether some flag of the mask `f` is 1 in `st`. -/
def anyFlag (st f : Flags) : Bool := st &&& f != 0#8

/-- `st` with the flags of the mask `f` cleared. -/
def clearMask (f st : Flags) : Flags := st &&& ~~~f

/-- The `need` table: the flags that must be 1 for the command to execute (40_control.md R100). -/
def needFlags : Instr → Flags
  | .nop | .init | .run | .clrErr => 0#8
  | .map => vCfg
  | .fec => vCfg ||| vBits
  | .chirpSync | .chirpUp | .chirpDown => vCfg
  | .asm => vCfg ||| vCoded ||| vSync ||| vUp ||| vDown
  | .rend => vCfg ||| vAsm

/-- The flags a command clears when it raises (10_state.md R35). `RUN` itself raises nothing: the commands it issues
do (40_control.md R106). -/
def raiseClears : Instr → Flags
  | .nop | .run | .clrErr => 0#8
  | .init => vCfg ||| vSync ||| vUp ||| vDown ||| vAsm ||| vOut
  | .map => vBits ||| vCoded ||| vAsm ||| vOut
  | .fec => vCoded ||| vAsm ||| vOut
  | .chirpSync => vSync ||| vAsm ||| vOut
  | .chirpUp => vUp ||| vAsm ||| vOut
  | .chirpDown => vDown ||| vAsm ||| vOut
  | .asm => vAsm ||| vOut
  | .rend => vOut

/-- The flag a command sets when it completes (10_state.md R35). -/
def completionSets : Instr → Flags
  | .nop | .run | .clrErr => 0#8
  | .init => vCfg
  | .map => vBits
  | .fec => vCoded
  | .chirpSync => vSync
  | .chirpUp => vUp
  | .chirpDown => vDown
  | .asm => vAsm
  | .rend => vOut

/-- The flags a command clears when it completes (10_state.md R35). -/
def completionClears : Instr → Flags
  | .nop | .init | .rend | .run | .clrErr => 0#8
  | .map => vCoded ||| vAsm ||| vOut
  | .fec => vAsm ||| vOut
  | .chirpSync | .chirpUp | .chirpDown => vAsm ||| vOut
  | .asm => vOut

/-- `STATUS` after the command has completed (10_state.md R35). -/
def completedStatus (i : Instr) (st : Flags) : Flags := clearMask (completionClears i) st ||| completionSets i

/-- Cleared by a write of `MODE`, `FC`, `BW`, `TSYM`, `FS` or `OVSAMP` (10_state.md R34). -/
def paramWriteClears : Flags := vCfg ||| vSync ||| vUp ||| vDown ||| vAsm ||| vOut

/-- Cleared by a write of `INTERVAL`, `REPEAT` or `VOLUME` (10_state.md R34). -/
def renderWriteClears : Flags := vOut

/-- Cleared by a write of `MSGLEN`, of a `MSG` or `BITS` element, or of a `BITLEN` above `MMAX` (10_state.md R34). -/
def messageWriteClears : Flags := vBits ||| vCoded ||| vAsm ||| vOut

/-- Cleared by a write of a `BITLEN` that `BITS` can hold, which sets `V.BITS` (10_state.md R34). -/
def bitLenWriteClears : Flags := vCoded ||| vAsm ||| vOut

end Sys2Proof.Machine
end

