-- ==== Sys2Proof/Machine/Numerics.lean ====
section
/-!
DEFINITION. Exact number domains (00_scope.md R15 to R17), the plain-data one of the machine's State with its pi, sine and
cosine, the maximum of samples over any number domain, and `toI16` (R18).
-/
namespace Sys2Proof.Machine

/-! ### Exact number domains -/

section

variable {K : Type} [Field K] [LinearOrder K] [FloorRing K]

/-- `round`: to nearest, a tie to the even integer (00_scope.md R17). -/
def roundHalfEven (v : K) : Int :=
  let d := v - (⌊v⌋ : K)
  if d < 1 / 2 then ⌊v⌋
  else if 1 / 2 < d then ⌊v⌋ + 1
  else if ⌊v⌋ % 2 = 0 then ⌊v⌋
  else ⌊v⌋ + 1

/-- The number domain of exact arithmetic in an ordered field: every operation is the field's own, `ceil` is R16 and
`round` is R17; `pi`, `sin` and `cos` are given (00_scope.md R15). -/
def exactNum (pi : K) (sin cos : K → K) : NUM K where
  zero := 0
  half := 1 / 2
  one := 1
  two := 2
  thousand := 1000
  fullScale := 32767
  pi := pi
  ofNat n := (n : K)
  ofInt n := (n : K)
  ofDecimal n places := (n : K) / 10 ^ places
  add a b := a + b
  sub a b := a - b
  mul a b := a * b
  div a b := a / b
  neg a := -a
  abs a := |a|
  sin := sin
  cos := cos
  lt a b := decide (a < b)
  le a b := decide (a ≤ b)
  isZero a := decide (a = 0)
  finite _ := true
  ceil a := ⌈a⌉
  round a := roundHalfEven a

end

/-! ### The plain-data number domain: pi, sine and cosine on exact rationals -/

/-- `v` confined to the interval from `lo` to `hi`. -/
def clampNum (lo hi v : NumVal) : NumVal := if v < lo then lo else if hi < v then hi else v

/-- A rational below the number pi (PRESUMED, log 2). -/
def piLower : NumVal := 314159265358979 / 100000000000000

/-- A rational above the number pi (PRESUMED, log 2). -/
def piUpper : NumVal := 314159265358980 / 100000000000000

end Sys2Proof.Machine

namespace Sys2Proof

/-- The constant `pi` of `NUM`: a free rational between `piLower` and `piUpper` (00_scope.md R15; log 2). -/
def Numerics.pi (N : Numerics) : NumVal := Machine.clampNum Machine.piLower Machine.piUpper N.piRaw

end Sys2Proof

namespace Sys2Proof.Machine

/-- The sum of `n` successive terms of the sine's power series, from the term of number `k` on, whose value is `term`,
at an argument of square `t2` (log 3). -/
def sinTerms (t2 : NumVal) : (n k : Nat) → (term : NumVal) → NumVal
  | 0, _, _ => 0
  | n + 1, k, term =>
    term + sinTerms t2 n (k + 1) (-(term * t2) / (((2 * k + 2) * (2 * k + 3) : Nat) : NumVal))

/-- The series of `sin t` cut after a subtracted term: a lower bound for `0 ≤ t ≤ 2` (PRESUMED, log 3). -/
def sinLower (t : NumVal) : NumVal := sinTerms (t * t) 8 0 t

/-- The series of `sin t` cut after an added term, and 1: an upper bound for `0 ≤ t ≤ 2` (PRESUMED, log 3). -/
def sinUpper (t : NumVal) : NumVal :=
  let u := sinTerms (t * t) 9 0 t
  if 1 < u then 1 else u

end Sys2Proof.Machine

namespace Sys2Proof

/-- The sine on the first quarter turn: exact at a twelfth of a turn and at a quarter turn, where the reference value is
rational, and otherwise a free value between two partial sums of the sine's series (00_scope.md R15; log 3). -/
def Numerics.quarterSin (N : Numerics) (t : NumVal) : NumVal :=
  if 6 * t = N.pi then 1 / 2
  else if 2 * t = N.pi then 1
  else Machine.clampNum (Machine.sinLower t) (Machine.sinUpper t) (N.sinRaw t)

/-- The argument reduced to one turn, from 0 up to `2 * pi`. -/
def Numerics.oneTurn (N : Numerics) (x : NumVal) : NumVal :=
  x - (2 * N.pi) * ((Rat.floor (x / (2 * N.pi)) : Int) : NumVal)

/-- `sin` of `NUM`: the quarter-turn values extended by the sine's symmetries and its period (00_scope.md R15; log 3). -/
def Numerics.sin (N : Numerics) (x : NumVal) : NumVal :=
  let r := N.oneTurn x
  if 2 * r ≤ N.pi then N.quarterSin r
  else if r ≤ N.pi then N.quarterSin (N.pi - r)
  else if 2 * r ≤ 3 * N.pi then -N.quarterSin (r - N.pi)
  else -N.quarterSin (2 * N.pi - r)

/-- `cos` of `NUM`: the sine a quarter turn on (00_scope.md R15; log 3). -/
def Numerics.cos (N : Numerics) (x : NumVal) : NumVal := N.sin (x + N.pi / 2)

/-- The plain-data number domain: exact rational arithmetic with this pi, sine and cosine (log 1 to log 3). -/
def Numerics.toNum (F : Numerics) : NUM NumVal := Machine.exactNum F.pi F.sin F.cos

end Sys2Proof

namespace Sys2Proof.Machine

/-! ### Over any number domain -/

variable {α : Type}

/-- The larger of two values. -/
def max2 (N : NUM α) (a b : α) : α := if N.lt a b then b else a

/-- The largest of some values (43_chirp_synthesizer.md R179, 45_renderer_quantizer.md R224); of none it is 0, which no
reachable command asks for (DESIGN CHOICE, log 13). -/
def maxNum (N : NUM α) : List α → α
  | [] => N.zero
  | v :: vs => vs.foldl (max2 N) v

/-- `toI16`: no value outside the range of an `i16` (00_scope.md R18). -/
def toI16 (n : Int) : Option Sample := if -32768 ≤ n ∧ n ≤ 32767 then some (BitVec.ofInt 16 n) else none

end Sys2Proof.Machine
end

