-- ==== Sys2Proof/Machine/Parameters.lean ====
section
/-!
DEFINITION. The symmetric Hann window (43_chirp_synthesizer.md R177), and the parameters the machine of the fixed names
is run with.
-/
namespace Sys2Proof

/-- The symmetric Hann window `H` of length `di` (43_chirp_synthesizer.md R177). -/
def Machine.symmetricHann {α : Type} (N : NUM α) (di k : Nat) : α :=
  if di ≤ 1 then N.one
  else N.sub N.half (N.mul N.half (N.cos (N.div (N.mul (N.mul N.two N.pi) (N.ofNat k)) (N.ofNat (di - 1)))))

/-- The machine's `NUM` (D10; log 1 to log 3). -/
def Config.num : NUM NumVal := Numerics.toNum { piRaw := Config.piRaw, sinRaw := Config.sinRaw }

/-- The machine's parameters (00_scope.md R9). `HEX_LOWER_OK` is not fixed (log 6), and
`CHIRP_NORM_ABS` is free (log 7). -/
def Config.params : Params NumVal where
  num := Config.num
  hann := Machine.symmetricHann Config.num
  lutA := Config.lutA
  lutB := Config.lutB
  nmax := Machine.nmax
  tmax := Machine.tmax
  outmax := Machine.outmax
  hexLowerOk := none
  chirpNormAbs := Config.chirpNormAbs
  free := Config.free

end Sys2Proof
end

