-- ==== Sys2Proof/Machine/State.lean ====
section
/-!
DEFINITION. The state of the block (10_state.md R20, R21, R32), the host's side of its port, and the state after reset
(10_state.md R44, 70_reset_and_hazards.md R280, R281).
-/
namespace Sys2Proof.Machine

/-- A host-writable buffer: the cells that hold a value, addresses strictly rising, and the number of the unspecified
contents that lie under every other cell (log 11). For `MSG` the cells are of type `Host.Cell`. -/
structure Buffer (α : Type) where
  gen : Nat
  cells : List (Nat × α)
  deriving DecidableEq, Repr

/-- The block's registers and buffers over a carrier `α` of `Num`. `CMD` holds no value (10_state.md R22); `LUTA` and
`LUTB` are parameters, not state (R20). -/
structure Block (α : Type) where
  /-- register 1 `STATUS`: the eight valid flags (10_state.md R23) -/
  status : Flags
  /-- register 2 `ERR` (R24) -/
  err : U32
  /-- register 3 `ERRINFO` (R25) -/
  errInfo : U32
  /-- register 4 `MODE` (R26) -/
  mode : U32
  /-- register 5 `FC`, Hz (R27) -/
  fc : α
  /-- register 6 `BW`, Hz (R27) -/
  bw : α
  /-- register 7 `TSYM`, samples (R27) -/
  tsym : U32
  /-- register 8 `FS`, Hz (R27) -/
  fs : U32
  /-- register 9 `OVSAMP`, samples (R28) -/
  ovsamp : U32
  /-- register 10 `INTERVAL`, ms (R29) -/
  interval : α
  /-- register 11 `REPEAT`, a signed number (R29) -/
  repeatCount : U32
  /-- register 12 `VOLUME`, a fraction (R29) -/
  volume : α
  /-- register 13 `MSGLEN` (R30) -/
  msgLen : U32
  /-- register 14 `BITLEN` (R30) -/
  bitLen : U32
  /-- register 15 `CODEDLEN` (R30) -/
  codedLen : U32
  /-- register 16 `PARCNT` (R30) -/
  parCnt : U32
  /-- register 17 `ASMLEN` (R30) -/
  asmLen : U32
  /-- register 18 `GAP` (R30) -/
  gap : U32
  /-- register 19 `OUTLEN` (R30) -/
  outLen : U32
  /-- space 1 `MSG` (R37) -/
  msg : Buffer Char8
  /-- space 4 `BITS` (R38) -/
  bits : Buffer Bool
  /-- space 5 `CODED`: the elements the last `FEC` produced, empty where the contents are unspecified (R39) -/
  coded : List Bool
  /-- space 6 `SYNC` (R40) -/
  sync : List α
  /-- space 7 `UP` (R40) -/
  up : List α
  /-- space 8 `DOWN` (R40) -/
  down : List α
  /-- space 9 `ASM` (R41) -/
  asm : List α
  /-- space 10 `OUT` (R42) -/
  out : List Sample
  deriving DecidableEq, Repr

/-- The state of the machine: the block with its numbers exact rationals, and the host's side of its port. -/
structure State extends Block NumVal where
  /-- the model's own: the moves the host makes next, in order (20_memory.md R70; log 8) -/
  pending : List (HostMove NumVal)
  /-- the model's own: what the host's last read returned (log 9) -/
  rdata : Option (HostVal NumVal)
  /-- the model's own: how many moves other than reads the host has made; it indexes free values (log 10) -/
  epoch : Nat
  deriving DecidableEq, Repr

/-- The model's faults. -/
inductive Fault where
  /-- `REND` quantizes a sample outside the range of an `i16`, where `toI16` has no value (00_scope.md R18,
  45_renderer_quantizer.md R229). Raised by `REND` and, through it, by `RUN`; safe: the spec asks for a fault there. -/
  | int16Overflow
  deriving DecidableEq, Repr

/-- The model's refusals. -/
inductive Refusal where
  /-- No meaning yet for the instruction of this mnemonic. Raised by no arm of `exec` now; safe. -/
  | notModelled (mnemonic : String)
  /-- The host writes a value that is no integer to an integer register, to `MSG` or to `BITS`, for which the spec has
  no meaning (30_encoding.md R86; log 15). Raised by a host write, never by a command; safe. -/
  | fractionToInteger
  /-- The host writes an infinity or a not-a-number to a `Num` register, which is given no meaning (00_scope.md R15,
  93_implementation_defined.md U16; log 23). Raised by a host write under a number domain that has such values; the
  exact one of the machine has none; safe. -/
  | nonFiniteNum
  /-- `MAP` of a message that contains a character `a` to `f` while `HEX_LOWER_OK` is not fixed: the spec asks for no
  meaning (41_symbol_mapper.md R123, 93_implementation_defined.md U7; log 6). Raised by `MAP` and, through it, by
  `RUN`; safe. -/
  | lowerCaseUnfixed
  deriving DecidableEq, Repr

/-- The outcome of what acts on the block alone. -/
abbrev BlockResult (α : Type) := Host.Outcome (Block α) Fault Refusal

/-- The outcome of one step. -/
abbrev Result := Host.Outcome State Fault Refusal

/-- The block after reset, under any parameters (10_state.md R44, 70_reset_and_hazards.md R281). The two generations are
the model's own (log 19). -/
def Block.reset {α : Type} (P : Params α) : Block α where
  status := 0
  err := 0
  errInfo := 0
  mode := 0
  fc := P.num.ofNat 19500
  bw := P.num.ofNat 1000
  tsym := 1024
  fs := 48000
  ovsamp := 0
  interval := P.num.ofNat 500
  repeatCount := 10
  volume := P.num.ofDecimal 8 1
  msgLen := 5
  bitLen := 0
  codedLen := 0
  parCnt := 0
  asmLen := 0
  gap := 0
  outLen := 0
  msg := { gen := 0, cells := [(0, 0x31#8), (1, 0x35#8), (2, 0x39#8), (3, 0x37#8), (4, 0x33#8)] }
  bits := { gen := 0, cells := [] }
  coded := []
  sync := []
  up := []
  down := []
  asm := []
  out := []

/-- The state after reset. The three fields of the host's side are the model's own (log 19). -/
def State.reset : State :=
  { toBlock := Block.reset Config.params, pending := [], rdata := none, epoch := 0 }

end Sys2Proof.Machine
end

