-- ==== Sys2Proof/Machine/Operands.lean ====
section
/-!
DEFINITION. The one operand form, `sel` (30_encoding.md R83), and the register numbers and access classes that host
accesses use (10_state.md R21).
-/
namespace Sys2Proof

/-- The number `sel` of a chirp (30_encoding.md R83). -/
def ChirpSel.number : ChirpSel → Nat
  | .sync => 0
  | .up => 1
  | .down => 2

/-- The argument `isUp` (30_encoding.md R83). -/
def ChirpSel.isUp : ChirpSel → Bool
  | .sync => true
  | .up => true
  | .down => false

/-- The argument `durationSamples`, `4 * x[TSYM]` or `x[TSYM]` (30_encoding.md R83; `SYNC_MULT` of 00_scope.md R8). -/
def ChirpSel.duration (sel : ChirpSel) (tsym : Nat) : Nat :=
  match sel with
  | .sync => 4 * tsym
  | .up => tsym
  | .down => tsym

/-- The command that carries this `sel` (30_encoding.md R84). -/
def ChirpSel.instr : ChirpSel → Instr
  | .sync => .chirpSync
  | .up => .chirpUp
  | .down => .chirpDown

/-- The access classes of 10_state.md R21. -/
inductive Access where
  | rw
  | ro
  | wo
  deriving DecidableEq, Repr

/-- A register's number (10_state.md R21). -/
def RegName.number : RegName → Nat
  | .cmd => 0
  | .status => 1
  | .err => 2
  | .errInfo => 3
  | .mode => 4
  | .fc => 5
  | .bw => 6
  | .tsym => 7
  | .fs => 8
  | .ovsamp => 9
  | .interval => 10
  | .repeatCount => 11
  | .volume => 12
  | .msgLen => 13
  | .bitLen => 14
  | .codedLen => 15
  | .parCnt => 16
  | .asmLen => 17
  | .gap => 18
  | .outLen => 19

/-- The register of a number; numbers from 20 on name none (10_state.md R21). -/
def RegName.ofNumber : Nat → Option RegName
  | 0 => some .cmd
  | 1 => some .status
  | 2 => some .err
  | 3 => some .errInfo
  | 4 => some .mode
  | 5 => some .fc
  | 6 => some .bw
  | 7 => some .tsym
  | 8 => some .fs
  | 9 => some .ovsamp
  | 10 => some .interval
  | 11 => some .repeatCount
  | 12 => some .volume
  | 13 => some .msgLen
  | 14 => some .bitLen
  | 15 => some .codedLen
  | 16 => some .parCnt
  | 17 => some .asmLen
  | 18 => some .gap
  | 19 => some .outLen
  | _ => none

/-- The access column of 10_state.md R21. -/
def RegName.access : RegName → Access
  | .cmd => .wo
  | .status | .err | .errInfo | .codedLen | .parCnt | .asmLen | .gap | .outLen => .ro
  | .mode | .fc | .bw | .tsym | .fs | .ovsamp | .interval | .repeatCount | .volume | .msgLen | .bitLen => .rw

/-- The integer a host value is; a value with a fraction is none (log 15). -/
def HostVal.toInt {α : Type} (N : NUM α) : HostVal α → Option Int
  | .int v => some v
  | .num q => if N.finite q && N.isZero (N.sub q (N.ofInt (N.ceil q))) then some (N.ceil q) else none

/-- The `Num` a host value is (00_scope.md R15: `ofInt`). -/
def HostVal.toNum {α : Type} (N : NUM α) : HostVal α → α
  | .int v => N.ofInt v
  | .num q => q

end Sys2Proof
end

