-- ==== Sys2Proof/Machine/Ops.lean ====
section
/-!
DEFINITION. The shared operations: buffers and their canonical form, the elements a command reads, the flag updates,
raising an error (60_exceptions.md R261) and the return from one (R263), and the prologue every command shares
(40_control.md R100).
-/
namespace Sys2Proof.Machine

/-! ### The host-writable buffers -/

/-- The value stored at `k`, if one is. -/
def cellFind {α : Type} (k : Nat) : List (Nat × α) → Option α
  | [] => none
  | (j, v) :: rest => if j = k then some v else cellFind k rest

/-- `v` stored at `k`, the addresses kept strictly rising. -/
def cellWrite {α : Type} (k : Nat) (v : α) : List (Nat × α) → List (Nat × α)
  | [] => [(k, v)]
  | (j, u) :: rest =>
    if k < j then (k, v) :: (j, u) :: rest
    else if k = j then (k, v) :: rest
    else (j, u) :: cellWrite k v rest

/-- Values stored at `k`, `k + 1`, and so on. -/
def cellWriteFrom {α : Type} (k : Nat) : List α → List (Nat × α) → List (Nat × α)
  | [], c => c
  | v :: vs, c => cellWriteFrom (k + 1) vs (cellWrite k v c)

/-- Addresses strictly rising, the first at least `lo`. -/
def risingFrom {α : Type} (lo : Nat) : List (Nat × α) → Bool
  | [] => true
  | (j, _) :: rest => decide (lo ≤ j) && risingFrom (j + 1) rest

/-- Every address is below `cap`. -/
def cellsBelow {α : Type} (cap : Nat) : List (Nat × α) → Bool
  | [] => true
  | (j, _) :: rest => decide (j < cap) && cellsBelow cap rest

/-- The canonical form of a buffer of capacity `cap`: addresses strictly rising and inside the buffer. An unlisted
address holds no value, so that no entry can equal what an unlisted address reads as. -/
def Buffer.wf {α : Type} (cap : Nat) (b : Buffer α) : Bool := risingFrom 0 b.cells && cellsBelow cap b.cells

/-- The value stored at `k`, if one is. -/
def Buffer.read {α : Type} (b : Buffer α) (k : Nat) : Option α := cellFind k b.cells

/-- One element stored. -/
def Buffer.write {α : Type} (b : Buffer α) (k : Nat) (v : α) : Buffer α := { b with cells := cellWrite k v b.cells }

/-- Elements stored from index 0 on. -/
def Buffer.writeAll {α : Type} (b : Buffer α) (vs : List α) : Buffer α := { b with cells := cellWriteFrom 0 vs b.cells }

/-- The contents become unspecified: no cell holds a value, and the free values are new ones (60_exceptions.md R261;
log 11). -/
def Buffer.forget {α : Type} (b : Buffer α) : Buffer α := { gen := b.gen + 1, cells := [] }

/-! ### The elements a command reads -/

/-- `MSG[k]`: what was last written there, else a free character (20_memory.md R64; log 11). -/
def Block.msgAt {α : Type} (b : Block α) (P : Params α) (k : Nat) : Char8 := (b.msg.read k).getD (P.free.char b.msg.gen k)

/-- `BITS[k]`: what was last written there, else a free bit (10_state.md R34; log 11). -/
def Block.bitAt {α : Type} (b : Block α) (P : Params α) (k : Nat) : Bool := (b.bits.read k).getD (P.free.bit b.bits.gen k)

/-- `MSG[0..n)` -/
def Block.msgList {α : Type} (b : Block α) (P : Params α) (n : Nat) : List Char8 := (List.range n).map (b.msgAt P)

/-- `BITS[0..n)` -/
def Block.bitList {α : Type} (b : Block α) (P : Params α) (n : Nat) : List Bool := (List.range n).map (b.bitAt P)

/-- The first `n` elements of a produced buffer; one that was not produced is a free value (10_state.md R33; log 12). -/
def elemsOr {α : Type} (free : Nat → α) (n : Nat) (l : List α) : List α :=
  l.take n ++ (List.range (n - l.length)).map (fun j => free (l.length + j))

/-- `CODED[0..n)` -/
def Block.codedList {α : Type} (b : Block α) (P : Params α) (n : Nat) : List Bool := elemsOr P.free.coded n b.coded

/-- `SYNC[0..n)` -/
def Block.syncList {α : Type} (b : Block α) (P : Params α) (n : Nat) : List α := elemsOr (P.free.sample 6) n b.sync

/-- `UP[0..n)` -/
def Block.upList {α : Type} (b : Block α) (P : Params α) (n : Nat) : List α := elemsOr (P.free.sample 7) n b.up

/-- `DOWN[0..n)` -/
def Block.downList {α : Type} (b : Block α) (P : Params α) (n : Nat) : List α := elemsOr (P.free.sample 8) n b.down

/-- `ASM[0..n)` -/
def Block.asmList {α : Type} (b : Block α) (P : Params α) (n : Nat) : List α := elemsOr (P.free.sample 9) n b.asm

/-! ### Block updates -/

variable {α : Type}

/-- The flags of the mask `f` cleared. -/
def Block.clearFlags (b : Block α) (f : Flags) : Block α := { b with status := clearMask f b.status }

/-- The flag changes of a command that completed (10_state.md R35). -/
def Block.completed (b : Block α) (i : Instr) : Block α := { b with status := completedStatus i b.status }

/-- What a length register holds of the length `n`: a length that does not fit 32 bits leaves a free value (00_scope.md
R10, 10_state.md R21; log 20). -/
def lengthReg (P : Params α) (n : Nat) : U32 := if n < 2 ^ 32 then BitVec.ofNat 32 n else P.free.length n

/-- The contents of every buffer whose flag is in the mask `f` become unspecified (60_exceptions.md R261). -/
def Block.forgetBuffers (b : Block α) (f : Flags) : Block α :=
  { b with
    bits := if anyFlag f vBits then b.bits.forget else b.bits
    coded := if anyFlag f vCoded then [] else b.coded
    sync := if anyFlag f vSync then [] else b.sync
    up := if anyFlag f vUp then [] else b.up
    down := if anyFlag f vDown then [] else b.down
    asm := if anyFlag f vAsm then [] else b.asm
    out := if anyFlag f vOut then [] else b.out }

/-! ### Errors -/

/-- The eight errors (60_exceptions.md R250). -/
inductive BlockError where
  | invalidMessage
  | invalidParameter
  | invalidRepeat
  | invalidVolume
  | degenerateChirp
  | degenerateSignal
  | illegalCommand
  | sequenceError
  deriving DecidableEq, Repr

/-- The code column of 60_exceptions.md R250. -/
def BlockError.code : BlockError → U32
  | .invalidMessage => 1
  | .invalidParameter => 2
  | .invalidRepeat => 3
  | .invalidVolume => 4
  | .degenerateChirp => 5
  | .degenerateSignal => 6
  | .illegalCommand => 7
  | .sequenceError => 8

/-- `raise E(info)`: `ERR` and `ERRINFO` are written, the flags of the mask `f` are cleared and the contents of their
buffers become unspecified (00_scope.md R13, 60_exceptions.md R261). -/
def raise (e : BlockError) (info : U32) (f : Flags) (b : Block α) : Block α :=
  { (b.forgetBuffers f).clearFlags f with err := e.code, errInfo := info }

/-- The return from an error, `CLRERR`'s effect (40_control.md R105, 60_exceptions.md R263). -/
def clearError (b : Block α) : Block α := { b with err := 0, errInfo := 0 }

/-- A raise of the command `i`, with the flags 10_state.md R35 gives it. -/
def raiseFor (i : Instr) (e : BlockError) (info : U32) (b : Block α) : BlockResult α :=
  .next (raise e info (raiseClears i) b)

/-! ### The prologue -/

/-- The flags the command needs that are 0 (40_control.md R100). -/
def missingFlags (i : Instr) (b : Block α) : Flags := needFlags i &&& ~~~b.status

/-- What every command but `CLRERR` does first: nothing at all while an error is recorded, `SequenceError` while a flag
it needs is 0, and otherwise its own rule (40_control.md R100). -/
def prologue (i : Instr) (body : Block α → BlockResult α) (b : Block α) : BlockResult α :=
  if b.err ≠ 0 then .next b
  else if missingFlags i b ≠ 0 then raiseFor i .sequenceError ((missingFlags i b).setWidth 32) b
  else body b

/-- An illegal word: nothing while an error is recorded, otherwise `IllegalCommand`, which clears no flag
(40_control.md R100, 30_encoding.md R85, 60_exceptions.md R257). -/
def illegalWord (w : CmdWord) (b : Block α) : BlockResult α :=
  if b.err ≠ 0 then .next b else .next (raise .illegalCommand (w.setWidth 32) 0 b)

/-- One command after another, as `RUN` issues them (40_control.md R106). -/
def andThen (o : BlockResult α) (f : Block α → BlockResult α) : BlockResult α :=
  match o with
  | .next b => f b
  | .fault r => .fault r
  | .refused r => .refused r

/-! ### The machine of the fixed names -/

/-- What acts on the block, as a step of the machine: the host's side of the port stays as it is. -/
def onBlock (f : Block NumVal → BlockResult NumVal) (s : State) : Result :=
  match f s.toBlock with
  | .next b => .next { s with toBlock := b }
  | .fault r => .fault r
  | .refused r => .refused r

/-- The host's next move taken from the moves it is going to make; a move other than a read counts as a change
(log 8, log 10). -/
def State.takeMove (s : State) (rest : List (HostMove NumVal)) (change : Bool) : State :=
  { s with pending := rest, epoch := if change then s.epoch + 1 else s.epoch }

end Sys2Proof.Machine
end

