-- ==== Sys2Proof/Machine/Assembler.lean ====
section
/-!
DEFINITION. `ASM`, the signal assembler (44_signal_assembler.md R200 to R205), over any number domain `N`.
-/
namespace Sys2Proof.Machine

variable {α : Type}

/-- The assembled length `L` (44_signal_assembler.md R203; `LEAD_SILENCE` and `SYNC_MULT` of 00_scope.md R8). -/
def asmLength (t ov c : Nat) : Nat := t + 4 * t + c * t - ov * (c - 1)

/-- `src` added to `buf` sample by sample from index `start` on (44_signal_assembler.md R202, R204). -/
def addAt (N : NUM α) : (start : Nat) → (src buf : List α) → List α
  | _, _, [] => []
  | start + 1, src, b :: buf => b :: addAt N start src buf
  | 0, [], b :: buf => b :: buf
  | 0, x :: src, b :: buf => N.add b x :: addAt N 0 src buf

/-- One chirp per coded bit, the cursor moving on by `step` (44_signal_assembler.md R202). -/
def placeBits (N : NUM α) (up down : List α) (step : Nat) :
    (cur : Nat) → (coded : List Bool) → (buf : List α) → List α
  | _, [], buf => buf
  | cur, b :: coded, buf => placeBits N up down step (cur + step) coded (addAt N cur (if b then up else down) buf)

/-- The AssembledSignal (44_signal_assembler.md R201 to R204). -/
def assemble (N : NUM α) (t ov : Nat) (coded : List Bool) (sync up down : List α) : List α :=
  placeBits N up down (t - ov) (5 * t) coded (addAt N t sync (List.replicate (asmLength t ov coded.length) N.zero))

/-- The AssembledSignal of the block's current parameters and buffers (44_signal_assembler.md R204). -/
def Block.assembled (b : Block α) (P : Params α) : List α :=
  let t := b.tsym.toNat
  assemble P.num t b.ovsamp.toNat (b.codedList P b.codedLen.toNat) (b.syncList P (4 * t)) (b.upList P t) (b.downList P t)

/-- `ASM`'s own rule (44_signal_assembler.md R204). -/
def asmBody (P : Params α) (b : Block α) : BlockResult α :=
  .next ({ b with
    asm := b.assembled P
    asmLen := lengthReg P (asmLength b.tsym.toNat b.ovsamp.toNat b.codedLen.toNat) }.completed .asm)

/-- `ASM` under any parameters (44_signal_assembler.md R204). -/
def asmCommand (P : Params α) (b : Block α) : BlockResult α := prologue .asm (asmBody P) b

/-- `ASM` (44_signal_assembler.md R204). -/
def execAsm (s : State) : Result := onBlock (asmCommand Config.params) s

end Sys2Proof.Machine
end

