-- ==== Sys2Proof/Machine/Chirp.lean ====
section
/-!
DEFINITION. `CHIRP`, the chirp synthesizer with its Tukey window and unit-peak normaliser (43_chirp_synthesizer.md R170
to R184), over any number domain `N`. The formulas are written operator by operator as the spec writes them, one `NUM`
operation per written operator (00_scope.md R15).
-/
namespace Sys2Proof.Machine

variable {α : Type}

/-- The angular step `wc` (43_chirp_synthesizer.md R171). -/
def carrierStep (N : NUM α) (fc : α) (fe : Nat) : α := N.div (N.mul (N.mul N.two N.pi) fc) (N.ofNat fe)

/-- The angular bandwidth step `B_rad` (43_chirp_synthesizer.md R171). -/
def bandwidthStep (N : NUM α) (bw : α) (fe : Nat) : α := N.div (N.mul (N.mul N.two N.pi) bw) (N.ofNat fe)

/-- `slope` (43_chirp_synthesizer.md R171). -/
def slopeOf (N : NUM α) (isUp : Bool) : α := if isUp then N.one else N.neg N.one

/-- The phase increment `inc(i)`: `((slope * B_rad) / D) * (i + 0.5 * (1 - D)) + wc` (43_chirp_synthesizer.md R172). -/
def phaseInc (N : NUM α) (isUp : Bool) (d : Nat) (fc bw : α) (fe : Nat) (i : Nat) : α :=
  N.add
    (N.mul (N.div (N.mul (slopeOf N isUp) (bandwidthStep N bw fe)) (N.ofNat d))
      (N.add (N.ofNat i) (N.mul N.half (N.sub N.one (N.ofNat d)))))
    (carrierStep N fc fe)

/-- The phases of `n` samples from sample `i` on, whose phase is `phase`: each increment is added after its sample
(43_chirp_synthesizer.md R172, R173). -/
def phases (N : NUM α) (inc : Nat → α) : (n i : Nat) → (phase : α) → List α
  | 0, _, _ => []
  | n + 1, i, phase => phase :: phases N inc n (i + 1) (N.add phase (inc i))

/-- The sines before the window; the initial phase is 0 (43_chirp_synthesizer.md R173, R174). -/
def chirpSines (N : NUM α) (isUp : Bool) (d : Nat) (fc bw : α) (fe : Nat) : List α :=
  (phases N (phaseInc N isUp d fc bw fe) d 0 N.zero).map N.sin

/-- `di`, the length of the Hann window; `ALPHA` is one half (43_chirp_synthesizer.md R176, 00_scope.md R8). -/
def hannLength (N : NUM α) (d : Nat) : Nat := (N.ceil (N.mul (N.ofNat d) N.half)).toNat

/-- `h`, the length of each edge (43_chirp_synthesizer.md R176). -/
def edgeLength (N : NUM α) (d : Nat) : Nat := (N.ceil (N.div (N.ofNat (hannLength N d)) N.two)).toNat

/-- The Tukey window made of the Hann window `H` (43_chirp_synthesizer.md R175). -/
def tukey (N : NUM α) (H : Nat → Nat → α) (d k : Nat) : α :=
  let di := hannLength N d
  let h := edgeLength N d
  if k < h then H di k
  else if k < d - h then N.one
  else H di (di - h + (k - (d - h)))

/-- The windowed samples `y` (43_chirp_synthesizer.md R178). -/
def windowed (N : NUM α) (H : Nat → Nat → α) (isUp : Bool) (d : Nat) (fc bw : α) (fe : Nat) : List α :=
  List.zipWith N.mul (chirpSines N isUp d fc bw fe) ((List.range d).map (tukey N H d))

/-- The divisor of the normaliser: the signed maximum, or under `CHIRP_NORM_ABS` the largest absolute value
(43_chirp_synthesizer.md R179). -/
def chirpDivisor (N : NUM α) (normAbs : Bool) (y : List α) : α :=
  if normAbs then maxNum N (y.map N.abs) else maxNum N y

/-- The ElementaryChirp, or none where the divisor is 0 (43_chirp_synthesizer.md R179, R180). -/
def synthesize (N : NUM α) (H : Nat → Nat → α) (normAbs isUp : Bool) (d : Nat) (fc bw : α) (fe : Nat) :
    Option (List α) :=
  let y := windowed N H isUp d fc bw fe
  let mx := chirpDivisor N normAbs y
  if N.isZero mx then none else some (y.map (fun v => N.div v mx))

/-- The chirp of the block's current parameters (43_chirp_synthesizer.md R181). -/
def Block.chirp (b : Block α) (P : Params α) (sel : ChirpSel) : Option (List α) :=
  synthesize P.num P.hann P.chirpNormAbs sel.isUp (sel.duration b.tsym.toNat) b.fc b.bw b.fs.toNat

/-- A chirp stored in its destination buffer (30_encoding.md R83). -/
def Block.storeChirp (b : Block α) (sel : ChirpSel) (l : List α) : Block α :=
  match sel with
  | .sync => { b with sync := l }
  | .up => { b with up := l }
  | .down => { b with down := l }

/-- The rule of `CHIRP sel` (43_chirp_synthesizer.md R181). -/
def chirpBody (P : Params α) (sel : ChirpSel) (b : Block α) : BlockResult α :=
  match b.chirp P sel with
  | none => raiseFor sel.instr .degenerateChirp (BitVec.ofNat 32 sel.number) b
  | some l => .next ((b.storeChirp sel l).completed sel.instr)

/-- `CHIRP sel` under any parameters (43_chirp_synthesizer.md R181). -/
def chirpCommand (P : Params α) (sel : ChirpSel) (b : Block α) : BlockResult α :=
  prologue sel.instr (chirpBody P sel) b

/-- `CHIRP SYNC` (43_chirp_synthesizer.md R181). -/
def execChirpSync (s : State) : Result := onBlock (chirpCommand Config.params .sync) s

/-- `CHIRP UP` (43_chirp_synthesizer.md R181). -/
def execChirpUp (s : State) : Result := onBlock (chirpCommand Config.params .up) s

/-- `CHIRP DOWN` (43_chirp_synthesizer.md R181). -/
def execChirpDown (s : State) : Result := onBlock (chirpCommand Config.params .down) s

end Sys2Proof.Machine
end

