-- ==== Sys2Proof/Machine/Control.lean ====
section
/-!
DEFINITION. The control commands `NOP`, `INIT` and `CLRERR` (40_control.md R101 to R105). `RUN` stands in Run.lean.
-/
namespace Sys2Proof.Machine

variable {α : Type}

/-- `NOP` under any parameters (40_control.md R101). -/
def nopCommand (b : Block α) : BlockResult α := prologue .nop .next b

/-- The register whose value `INIT` rejects, if there is one: the first failing check (40_control.md R102 to R104). -/
def initFails (P : Params α) (b : Block α) : Option RegName :=
  if b.mode ≠ 0 then some .mode
  else if ¬ (P.num.lt P.num.zero b.fc = true) then some .fc
  else if ¬ (P.num.lt P.num.zero b.bw = true) then some .bw
  else if b.tsym.toNat < 1 ∨ P.tmax < b.tsym.toNat then some .tsym
  else if b.fs.toNat < 1 then some .fs
  else if b.tsym.toNat ≤ b.ovsamp.toNat then some .ovsamp
  else none

/-- `INIT`'s own rule (40_control.md R102). -/
def initBody (P : Params α) (b : Block α) : BlockResult α :=
  match initFails P b with
  | some r => raiseFor .init .invalidParameter (BitVec.ofNat 32 r.number) b
  | none => .next (b.completed .init)

/-- `INIT` under any parameters (40_control.md R102). -/
def initCommand (P : Params α) (b : Block α) : BlockResult α := prologue .init (initBody P) b

/-- `CLRERR` under any parameters: the only command that acts while an error is recorded (40_control.md R105). -/
def clrErrCommand (b : Block α) : BlockResult α := .next (clearError b)

/-- `NOP` (40_control.md R101). -/
def execNop (s : State) : Result := onBlock nopCommand s

/-- `INIT` (40_control.md R102). -/
def execInit (s : State) : Result := onBlock (initCommand Config.params) s

/-- `CLRERR` (40_control.md R105). -/
def execClrErr (s : State) : Result := onBlock clrErrCommand s

end Sys2Proof.Machine
end

