-- ==== Sys2Proof/Machine/Fec.lean ====
section
/-!
DEFINITION. `FEC`, the extended-Hamming encoder (42_fec_encoder.md R140 to R150). `rmin` (R141) stands in Capacity.lean.
-/
namespace Sys2Proof.Machine

/-- Whether the position `p`, at least 1, is a power of two (42_fec_encoder.md R142). -/
def isPowerOfTwo (p : Nat) : Bool := 2 ^ Nat.log2 p == p

/-- The walk of 42_fec_encoder.md R142 over `count` positions from `p` on: a placeholder 0 at a power of two, otherwise
the next unread data bit. -/
def insertBits : (count p : Nat) → (data : List Bool) → List Bool
  | 0, _, _ => []
  | count + 1, p, data =>
    if isPowerOfTwo p then false :: insertBits count (p + 1) data
    else data.headD false :: insertBits count (p + 1) data.tail

/-- `XOR` of a list of bits; of none it is 0 (00_scope.md R10). -/
def xorAll (l : List Bool) : Bool := l.foldr xor false

/-- The XOR of the bits at the positions `j`, `1 ≤ j ≤ length`, with `(j & 2^i) = 2^i` (42_fec_encoder.md R143). -/
def coverageXor (res : List Bool) (i : Nat) : Bool :=
  xorAll ((List.range res.length).map (fun t => if (t + 1) &&& 2 ^ i = 2 ^ i then res.getD t false else false))

/-- The parity of number `i` written at position `2^i` (42_fec_encoder.md R143). -/
def setParity (res : List Bool) (i : Nat) : List Bool := res.set (2 ^ i - 1) (coverageXor res i)

/-- The parities of numbers `0` to `r - 1`, in ascending order (42_fec_encoder.md R143). -/
def setParities (r : Nat) (res : List Bool) : List Bool := (List.range r).foldl setParity res

/-- The XOR of every `chunk`-th bit, from index 0 on (42_fec_encoder.md R145). -/
def strideXor (res : List Bool) (chunk : Nat) : Bool :=
  xorAll ((List.range res.length).map (fun t => if t % chunk = 0 then res.getD t false else false))

/-- One chunk parity appended (42_fec_encoder.md R145). -/
def appendChunk (res : List Bool) (chunk : Nat) : List Bool := res ++ [strideXor res chunk]

/-- The Hamming part of the CodedSequence: the data with its `r` parities (42_fec_encoder.md R142, R143). -/
def hammingBits (data : List Bool) : List Bool :=
  setParities (rmin data.length) (insertBits (data.length + rmin data.length) 1 data)

/-- The CodedSequence of a BitSequence (42_fec_encoder.md R147; `CHUNKS` of 00_scope.md R8). -/
def fecEncode (data : List Bool) : List Bool := [4, 8].foldl appendChunk (hammingBits data)

variable {α : Type}

/-- `FEC`'s own rule (42_fec_encoder.md R147). -/
def fecBody (P : Params α) (b : Block α) : BlockResult α :=
  let m := b.bitLen.toNat
  .next ({ b with
    coded := fecEncode (b.bitList P m)
    codedLen := lengthReg P (m + rmin m + 2)
    parCnt := lengthReg P (rmin m + 2) }.completed .fec)

/-- `FEC` under any parameters (42_fec_encoder.md R147). -/
def fecCommand (P : Params α) (b : Block α) : BlockResult α := prologue .fec (fecBody P) b

/-- `FEC` (42_fec_encoder.md R147). -/
def execFec (s : State) : Result := onBlock (fecCommand Config.params) s

end Sys2Proof.Machine
end

