-- ==== Sys2Proof/Machine/Mapper.lean ====
section
/-!
DEFINITION. `MAP`, the symbol-to-bit mapper with dual lookup tables (41_symbol_mapper.md R120 to R127).
-/
namespace Sys2Proof.Machine

/-- The table boundary `lim(N)` (41_symbol_mapper.md R121). -/
def lim (n : Nat) : Nat := if n % 2 = 1 then (n + 1) / 2 else (n + 2) / 2

/-- `hexval(c)`, with `HEX_LOWER_OK` given (41_symbol_mapper.md R123). -/
def hexval (lowerOk : Bool) (c : Char8) : Option (BitVec 4) :=
  let n := c.toNat
  if 0x30 ≤ n ∧ n ≤ 0x39 then some (BitVec.ofNat 4 (n - 0x30))
  else if 0x41 ≤ n ∧ n ≤ 0x46 then some (BitVec.ofNat 4 (n - 0x41 + 10))
  else if lowerOk = true ∧ 0x61 ≤ n ∧ n ≤ 0x66 then some (BitVec.ofNat 4 (n - 0x61 + 10))
  else none

/-- A pattern's bits in the order they are emitted, `b3` first (41_symbol_mapper.md R124). -/
def patternBits (e : Pattern) : List Bool := [e.getLsbD 3, e.getLsbD 2, e.getLsbD 1, e.getLsbD 0]

/-- The bits of a table entry written as a decimal literal (41_symbol_mapper.md R122): how the document writes the
tables, whose contents are parameters. -/
def literalBits (e : Nat) : List Nat := [e / 1000 % 10, e / 100 % 10, e / 10 % 10, e % 10]

/-- The loop of 41_symbol_mapper.md R124 from digit `i` on: the bits, or the index of the first bad digit. -/
def mapDigits (lutA lutB : BitVec 4 → Pattern) (lowerOk : Bool) (bound : Nat) :
    (i : Nat) → List Char8 → Except Nat (List Bool)
  | _, [] => .ok []
  | i, c :: cs =>
    match hexval lowerOk c with
    | none => .error i
    | some d =>
      match mapDigits lutA lutB lowerOk bound (i + 1) cs with
      | .error j => .error j
      | .ok bs => .ok (patternBits (if i < bound then lutA d else lutB d) ++ bs)

/-- The BitSequence of a message (41_symbol_mapper.md R124, R127). -/
def mapMessage (lutA lutB : BitVec 4 → Pattern) (lowerOk : Bool) (msg : List Char8) : Except Nat (List Bool) :=
  mapDigits lutA lutB lowerOk (lim msg.length) 0 msg

/-- Whether `c` is one of `a` to `f`, which only `HEX_LOWER_OK` can make a digit (41_symbol_mapper.md R123). -/
def isLowerHex (c : Char8) : Bool := decide (0x61 ≤ c.toNat ∧ c.toNat ≤ 0x66)

/-- Whether the message has no meaning: it contains `a` to `f` and `HEX_LOWER_OK` is not fixed (41_symbol_mapper.md
R123). -/
def caseUnfixed (hexLowerOk : Option Bool) (msg : List Char8) : Bool := hexLowerOk.isNone && msg.any isLowerHex

variable {α : Type}

/-- The BitSequence of the block's current message (41_symbol_mapper.md R124). Where `HEX_LOWER_OK` is not fixed, `MAP`
asks for it only of messages on which it has no say. -/
def Block.mapped (b : Block α) (P : Params α) : Except Nat (List Bool) :=
  mapMessage P.lutA P.lutB (P.hexLowerOk.getD false) (b.msgList P b.msgLen.toNat)

/-- `MAP`'s own rule (41_symbol_mapper.md R123 to R125). -/
def mapBody (P : Params α) (b : Block α) : BlockResult α :=
  if b.msgLen.toNat < 1 ∨ P.nmax < b.msgLen.toNat then
    raiseFor .map .invalidMessage (0x80000000#32 ||| (b.msgLen &&& 0x7FFFFFFF#32)) b
  else if caseUnfixed P.hexLowerOk (b.msgList P b.msgLen.toNat) then .refused .lowerCaseUnfixed
  else
    match b.mapped P with
    | .error i => raiseFor .map .invalidMessage (BitVec.ofNat 32 i) b
    | .ok bs =>
      .next ({ b with bits := b.bits.writeAll bs, bitLen := lengthReg P (4 * b.msgLen.toNat) }.completed .map)

/-- `MAP` under any parameters (41_symbol_mapper.md R124). -/
def mapCommand (P : Params α) (b : Block α) : BlockResult α := prologue .map (mapBody P) b

/-- `MAP` (41_symbol_mapper.md R124). -/
def execMap (s : State) : Result := onBlock (mapCommand Config.params) s

end Sys2Proof.Machine
end

