-- ==== Sys2Proof/Machine/Renderer.lean ====
section
/-!
DEFINITION. `REND`: replication, peak normaliser, volume scale and 16-bit quantizer (45_renderer_quantizer.md R220 to
R231), over any number domain `N`.
-/
namespace Sys2Proof.Machine

variable {α : Type}

/-- The inter-signal gap in samples (45_renderer_quantizer.md R222). -/
def gapSamples (N : NUM α) (interval : α) (fs : Nat) : Nat :=
  (N.round (N.mul (N.div interval N.thousand) (N.ofNat fs))).toNat

/-- The total length (45_renderer_quantizer.md R222). -/
def totalLength (count l gap : Nat) : Nat := count * (l + gap)

/-- The peak: the largest absolute value (45_renderer_quantizer.md R224). -/
def peakOf (N : NUM α) (asm : List α) : α := maxNum N (asm.map N.abs)

/-- The integer `q` of a sample (45_renderer_quantizer.md R226; `FULLSCALE` of 00_scope.md R8). -/
def quantized (N : NUM α) (volume peak x : α) : Int := N.round (N.mul (N.div (N.mul x volume) peak) N.fullScale)

/-- The `i16` samples of one copy, or none where some `q` is out of range (45_renderer_quantizer.md R226, R229). -/
def quantizeAll (N : NUM α) (volume peak : α) : List α → Option (List Sample)
  | [] => some []
  | x :: xs =>
    match toI16 (quantized N volume peak x), quantizeAll N volume peak xs with
    | some v, some vs => some (v :: vs)
    | _, _ => none

/-- `count` copies of one quantized signal, each followed by `gap` zeros (45_renderer_quantizer.md R223). -/
def replicateWithGap (count gap : Nat) (one : List Sample) : List Sample :=
  (List.replicate count (one ++ List.replicate gap 0#16)).flatten

/-- The first check of `REND` that fails, with the error and its detail word, if one does (45_renderer_quantizer.md
R221, R222, R225). -/
def rendFails (P : Params α) (b : Block α) (asm : List α) : Option (BlockError × U32) :=
  let N := P.num
  if b.repeatCount.toInt < 1 then some (.invalidRepeat, b.repeatCount)
  else if ¬ (N.le N.zero b.volume = true ∧ N.le b.volume N.one = true) then some (.invalidVolume, 0)
  else if ¬ (N.le N.zero b.interval = true) then some (.invalidParameter, BitVec.ofNat 32 RegName.interval.number)
  else if P.outmax < totalLength b.repeatCount.toNat asm.length (gapSamples N b.interval b.fs.toNat) then
    some (.invalidParameter, BitVec.ofNat 32 RegName.outLen.number)
  else if N.isZero (peakOf N asm) = true then some (.degenerateSignal, 0)
  else none

/-- The RenderedAudio of a signal, or none where a sample is out of range (45_renderer_quantizer.md R223 to R226). -/
def renderSignal (N : NUM α) (count gap : Nat) (volume : α) (asm : List α) : Option (List Sample) :=
  (quantizeAll N volume (peakOf N asm) asm).map (replicateWithGap count gap)

/-- The RenderedAudio of the block's current parameters (45_renderer_quantizer.md R227). -/
def Block.rendered (b : Block α) (P : Params α) (asm : List α) : Option (List Sample) :=
  renderSignal P.num b.repeatCount.toNat (gapSamples P.num b.interval b.fs.toNat) b.volume asm

/-- `REND`'s own rule (45_renderer_quantizer.md R227). -/
def rendBody (P : Params α) (b : Block α) : BlockResult α :=
  let asm := b.asmList P b.asmLen.toNat
  match rendFails P b asm with
  | some (e, info) => raiseFor .rend e info b
  | none =>
    match b.rendered P asm with
    | none => .fault .int16Overflow
    | some out =>
      let g := gapSamples P.num b.interval b.fs.toNat
      .next ({ b with
        out := out
        gap := lengthReg P g
        outLen := lengthReg P (totalLength b.repeatCount.toNat asm.length g) }.completed .rend)

/-- `REND` under any parameters (45_renderer_quantizer.md R227). -/
def rendCommand (P : Params α) (b : Block α) : BlockResult α := prologue .rend (rendBody P) b

/-- `REND` (45_renderer_quantizer.md R227). -/
def execRend (s : State) : Result := onBlock (rendCommand Config.params) s

end Sys2Proof.Machine
end

