-- ==== Sys2Proof/Machine/Run.lean ====
section
/-!
DEFINITION. `RUN`, the whole pipeline (40_control.md R106), and all commands together under any parameters.
-/
namespace Sys2Proof.Machine

variable {α : Type}

/-- The eight commands of the pipeline, each issued as if by the host, prologue included (40_control.md R106). -/
def runBody (P : Params α) (b : Block α) : BlockResult α :=
  andThen (andThen (andThen (andThen (andThen (andThen (andThen (initCommand P b) (mapCommand P)) (fecCommand P))
    (chirpCommand P .sync)) (chirpCommand P .up)) (chirpCommand P .down)) (asmCommand P)) (rendCommand P)

/-- `RUN` under any parameters (40_control.md R106). -/
def runCommand (P : Params α) (b : Block α) : BlockResult α := prologue .run (runBody P) b

/-- `RUN` (40_control.md R106). -/
def execRun (s : State) : Result := onBlock (runCommand Config.params) s

/-- Every command under any parameters and over any number domain (00_scope.md R9, R15). -/
def commandUnder (P : Params α) : Instr → Block α → BlockResult α
  | .nop, b => nopCommand b
  | .init, b => initCommand P b
  | .map, b => mapCommand P b
  | .fec, b => fecCommand P b
  | .chirpSync, b => chirpCommand P .sync b
  | .chirpUp, b => chirpCommand P .up b
  | .chirpDown, b => chirpCommand P .down b
  | .asm, b => asmCommand P b
  | .rend, b => rendCommand P b
  | .run, b => runCommand P b
  | .clrErr, b => clrErrCommand b

end Sys2Proof.Machine
end

