-- ==== Sys2Proof/Machine/Dispatch.lean ====
section
/-!
DEFINITION. The meaning of each command, the prologue of 40_control.md R100 included.
-/
namespace Sys2Proof.Machine

def exec (i : Instr) (s : State) : Host.Outcome State Fault Refusal :=
  match i with
  | .nop => Sys2Proof.Machine.execNop s
  | .init => Sys2Proof.Machine.execInit s
  | .map => Sys2Proof.Machine.execMap s
  | .fec => Sys2Proof.Machine.execFec s
  | .chirpSync => Sys2Proof.Machine.execChirpSync s
  | .chirpUp => Sys2Proof.Machine.execChirpUp s
  | .chirpDown => Sys2Proof.Machine.execChirpDown s
  | .asm => Sys2Proof.Machine.execAsm s
  | .rend => Sys2Proof.Machine.execRend s
  | .run => Sys2Proof.Machine.execRun s
  | .clrErr => Sys2Proof.Machine.execClrErr s

end Sys2Proof.Machine
end

