-- ==== Sys2Proof/Machine/Port.lean ====
section
/-!
DEFINITION. The host's moves (20_memory.md R64 to R69, R74): register and buffer accesses, command issues and reset.
-/
namespace Sys2Proof.Machine

variable {α : Type}

/-! ### Reads -/

/-- `RegRead(n)` (20_memory.md R66); a register that does not exist reads as a free value (R68; log 10). -/
def readReg (P : Params α) (epoch n : Nat) (b : Block α) : HostVal α :=
  match RegName.ofNumber n with
  | some .cmd => .int 0
  | some .status => .int b.status.toNat
  | some .err => .int b.err.toNat
  | some .errInfo => .int b.errInfo.toNat
  | some .mode => .int b.mode.toNat
  | some .fc => .num b.fc
  | some .bw => .num b.bw
  | some .tsym => .int b.tsym.toNat
  | some .fs => .int b.fs.toNat
  | some .ovsamp => .int b.ovsamp.toNat
  | some .interval => .num b.interval
  | some .repeatCount => .int b.repeatCount.toInt
  | some .volume => .num b.volume
  | some .msgLen => .int b.msgLen.toNat
  | some .bitLen => .int b.bitLen.toNat
  | some .codedLen => .int b.codedLen.toNat
  | some .parCnt => .int b.parCnt.toNat
  | some .asmLen => .int b.asmLen.toNat
  | some .gap => .int b.gap.toNat
  | some .outLen => .int b.outLen.toNat
  | none => P.free.value epoch 0 n

/-- A bit as a host value. -/
def bitVal (v : Bool) : HostVal α := .int (if v then 1 else 0)

/-- A free integer of `w` bits for a read of element `k` of a buffer (20_memory.md R64; log 10). -/
def freeInt (P : Params α) (epoch w : Nat) (sp : Space) (k : Nat) : HostVal α :=
  .int ((P.free.word epoch sp.number k).setWidth w).toNat

/-- A free sample value for a read of element `k` of `OUT` (20_memory.md R62, R64; log 10). -/
def freeSample (P : Params α) (epoch k : Nat) : HostVal α :=
  .int ((P.free.word epoch Space.out.number k).setWidth 16).toInt

/-- Element `k` of a produced `Num` buffer: free where the flag is 0 or `k` is at or beyond the length
(20_memory.md R64). -/
def readSamples (P : Params α) (epoch : Nat) (sp : Space) (flag : Flags) (len : Nat) (l : List α) (k : Nat)
    (b : Block α) : HostVal α :=
  if hasFlags b.status flag = true ∧ k < len then .num (l.getD k (P.free.sample sp.number k))
  else .num (P.free.num epoch sp.number k)

/-- `MemRead(space, k)` for a buffer (20_memory.md R64). -/
def readSpace (P : Params α) (epoch : Nat) (sp : Space) (k : Nat) (b : Block α) : HostVal α :=
  match sp with
  | .msg =>
    if k < b.msgLen.toNat ∧ k < P.capacity .msg then .int (b.msgAt P k).toNat else freeInt P epoch 8 .msg k
  | .lutA => if k < 16 then .int (P.lutA (BitVec.ofNat 4 k)).toNat else freeInt P epoch 4 .lutA k
  | .lutB => if k < 16 then .int (P.lutB (BitVec.ofNat 4 k)).toNat else freeInt P epoch 4 .lutB k
  | .bits =>
    if hasFlags b.status vBits = true ∧ k < b.bitLen.toNat then bitVal (b.bitAt P k) else freeInt P epoch 1 .bits k
  | .coded =>
    if hasFlags b.status vCoded = true ∧ k < b.codedLen.toNat then bitVal (b.coded.getD k (P.free.coded k))
    else freeInt P epoch 1 .coded k
  | .sync => readSamples P epoch .sync vSync (4 * b.tsym.toNat) b.sync k b
  | .up => readSamples P epoch .up vUp b.tsym.toNat b.up k b
  | .down => readSamples P epoch .down vDown b.tsym.toNat b.down k b
  | .asm => readSamples P epoch .asm vAsm b.asmLen.toNat b.asm k b
  | .out =>
    if hasFlags b.status vOut = true ∧ k < b.outLen.toNat ∧ k < b.out.length then .int (b.out.getD k 0).toInt
    else freeSample P epoch k

/-- `MemRead(space, k)` (20_memory.md R64); a space that does not exist reads as a free value (R68; log 10, log 16). -/
def readMem (P : Params α) (epoch space k : Nat) (b : Block α) : HostVal α :=
  match Space.ofNumber space with
  | some sp => readSpace P epoch sp k b
  | none => P.free.value epoch space k

/-! ### Writes -/

/-- A host value taken as an integer; one with a fraction has no meaning there (log 15). -/
def withInt {σ : Type} (N : NUM α) (v : HostVal α) (f : Int → Host.Outcome σ Fault Refusal) :
    Host.Outcome σ Fault Refusal :=
  match v.toInt N with
  | some n => f n
  | none => .refused .fractionToInteger

/-- A host value taken as a `Num`; one that is not finite has no meaning (00_scope.md R15,
93_implementation_defined.md U16). -/
def withNum {σ : Type} (N : NUM α) (v : HostVal α) (f : α → Host.Outcome σ Fault Refusal) :
    Host.Outcome σ Fault Refusal :=
  if N.finite (v.toNum N) then f (v.toNum N) else .refused .nonFiniteNum

/-- A host write of `BITLEN`, the value already of 32 bits (10_state.md R34; log 14). -/
def writeBitLen (P : Params α) (v : U32) (b : Block α) : Block α :=
  if v.toNat ≤ P.mmax then { b with bitLen := v, status := clearMask bitLenWriteClears b.status ||| vBits }
  else b.clearFlags messageWriteClears

/-- `RegWrite(n, v)` of a register that is not `CMD` (20_memory.md R66, flag changes of 10_state.md R34); a read-only or
absent register ignores it (10_state.md R21), and `CMD` holds nothing (R22). -/
def storeReg (P : Params α) (n : Nat) (v : HostVal α) (b : Block α) : BlockResult α :=
  match RegName.ofNumber n with
  | some .mode => withInt P.num v (fun x => .next ({ b with mode := BitVec.ofInt 32 x }.clearFlags paramWriteClears))
  | some .fc => withNum P.num v (fun q => .next ({ b with fc := q }.clearFlags paramWriteClears))
  | some .bw => withNum P.num v (fun q => .next ({ b with bw := q }.clearFlags paramWriteClears))
  | some .tsym => withInt P.num v (fun x => .next ({ b with tsym := BitVec.ofInt 32 x }.clearFlags paramWriteClears))
  | some .fs => withInt P.num v (fun x => .next ({ b with fs := BitVec.ofInt 32 x }.clearFlags paramWriteClears))
  | some .ovsamp =>
    withInt P.num v (fun x => .next ({ b with ovsamp := BitVec.ofInt 32 x }.clearFlags paramWriteClears))
  | some .interval => withNum P.num v (fun q => .next ({ b with interval := q }.clearFlags renderWriteClears))
  | some .repeatCount =>
    withInt P.num v (fun x => .next ({ b with repeatCount := BitVec.ofInt 32 x }.clearFlags renderWriteClears))
  | some .volume => withNum P.num v (fun q => .next ({ b with volume := q }.clearFlags renderWriteClears))
  | some .msgLen =>
    withInt P.num v (fun x => .next ({ b with msgLen := BitVec.ofInt 32 x }.clearFlags messageWriteClears))
  | some .bitLen => withInt P.num v (fun x => .next (writeBitLen P (BitVec.ofInt 32 x) b))
  | some .cmd | some .status | some .err | some .errInfo | some .codedLen | some .parCnt | some .asmLen | some .gap
  | some .outLen | none => .next b

/-- `MemWrite(space, k, v)`: only `MSG` and `BITS` take it, inside their capacity (20_memory.md R65, R68). -/
def storeMem (P : Params α) (space k : Nat) (v : HostVal α) (b : Block α) : BlockResult α :=
  match Space.ofNumber space with
  | some .msg =>
    withInt P.num v (fun x =>
      if k < P.capacity .msg then
        .next ({ b with msg := b.msg.write k (BitVec.ofInt 8 x) }.clearFlags messageWriteClears)
      else .next b)
  | some .bits =>
    withInt P.num v (fun x =>
      if k < P.capacity .bits then
        .next ({ b with bits := b.bits.write k ((BitVec.ofInt 1 x).getLsbD 0) }.clearFlags messageWriteClears)
      else .next b)
  | some .lutA | some .lutB | some .coded | some .sync | some .up | some .down | some .asm | some .out | none => .next b

/-- Reset, a host move (70_reset_and_hazards.md R280): the unspecified contents are new ones (log 11). -/
def resetBlock (P : Params α) (b : Block α) : Block α :=
  { Block.reset P with
    msg := { (Block.reset P).msg with gen := b.msg.gen + 1 }
    bits := b.bits.forget }

/-! ### The moves of the machine of the fixed names -/

/-- `RegRead(n)` (20_memory.md R66). -/
def regRead (n : Nat) (s : State) : HostVal NumVal := readReg Config.params s.epoch n s.toBlock

/-- `MemRead(space, k)` (20_memory.md R64). -/
def memRead (space k : Nat) (s : State) : HostVal NumVal := readMem Config.params s.epoch space k s.toBlock

/-- The issue of a command word: bits 31:16 are ignored (10_state.md R22), an illegal word raises, and a legal one is
executed (40_control.md R100). -/
def issue (w : CmdWord) (s : State) : Result :=
  match decodeWord w with
  | some i => exec i s
  | none => onBlock (illegalWord w) s

/-- `RegWrite(n, v)`: of `CMD` it issues a command (10_state.md R22, 20_memory.md R66). -/
def regWrite (n : Nat) (v : HostVal NumVal) (s : State) : Result :=
  match RegName.ofNumber n with
  | some .cmd => withInt Config.num v (fun x => issue (BitVec.ofInt 16 x) s)
  | _ => onBlock (storeReg Config.params n v) s

/-- `MemWrite(space, k, v)` (20_memory.md R65). -/
def memWrite (space k : Nat) (v : HostVal NumVal) (s : State) : Result := onBlock (storeMem Config.params space k v) s

/-- Reset: the host's side of the port goes on (70_reset_and_hazards.md R280; log 19). -/
def resetMove (s : State) : State := { s with toBlock := resetBlock Config.params s.toBlock }

/-- A move of the host (20_memory.md R74). -/
def perform (m : HostMove NumVal) (s : State) : Result :=
  match m with
  | .regRead n => .next { s with rdata := some (regRead n s) }
  | .regWrite n v => regWrite n v s
  | .memRead space k => .next { s with rdata := some (memRead space k s) }
  | .memWrite space k v => memWrite space k v s
  | .reset => .next (resetMove s)

/-- Whether a move is more than a read; a read changes nothing, so that it repeats (20_memory.md R64, R69; log 10). -/
def isChange {α : Type} : HostMove α → Bool
  | .regRead _ | .memRead _ _ => false
  | .regWrite _ _ | .memWrite _ _ _ | .reset => true

/-- The host makes its next move; without one the block is idle and nothing changes (60_exceptions.md R267; log 8). -/
def advance (s : State) : Result :=
  match s.pending with
  | [] => .next s
  | m :: rest => perform m (s.takeMove rest (isChange m))

end Sys2Proof.Machine
end

