-- ==== Sys2Proof/Machine/Step.lean ====
section
/-!
DEFINITION. One step: the host makes its next move, which may issue a command (20_memory.md R70, R74).
-/
namespace Sys2Proof.Machine

/-- One step of the block and its host. -/
def step (s : State) : Host.Outcome State Fault Refusal := advance s

/-- The state in which the host's next move is to write the command word `w` of `nbits` bits to `CMD`
(10_state.md R22); everything else as it is (log 8). -/
def State.withFetchWord (s : State) (nbits w : Nat) : State :=
  { s with pending := .regWrite 0 (.int ((w % 2 ^ nbits : Nat) : Int)) :: s.pending }

end Sys2Proof.Machine
end

