-- ==== Sys2Proof/Machine/Reference.lean ====
section
/-!
DEFINITION. The reference instantiation of the number domain: the exact real numbers (00_scope.md R15, D10). Every
definition that takes a numerics record or parameters may be read at it. It is no part of the machine of the fixed
names, whose state must be plain data (log 1).
-/
namespace Sys2Proof

/-- `NUM` under the reference instantiation: the real-number operations (00_scope.md R15). -/
noncomputable def NUM.reference : NUM ℝ := Machine.exactNum Real.pi Real.sin Real.cos

/-- Parameters under the reference semantics: the numbers are the reals and `H` is that of 43_chirp_synthesizer.md
R177; the rest is given. -/
noncomputable def Params.reference (P : Params ℝ) : Params ℝ :=
  { P with num := NUM.reference, hann := Machine.symmetricHann NUM.reference }

end Sys2Proof
end

