-- ==== Sys2Proof/Safety.lean ====
section
/-!
DEFINITION. What a sound state and a good run are: the invariants of the block (10_state.md R23, R33 to R35, R39 to R42)
and the end of a run (70_reset_and_hazards.md R288).
-/
namespace Sys2Proof.Machine

/-- The flag combinations the dependency order allows: no output is valid without what it was computed from
(10_state.md R33, R35). -/
def FlagsLegal (st : Flags) : Prop :=
  (hasFlags st vCoded = true → hasFlags st vBits = true) ∧
  (hasFlags st vSync = true → hasFlags st vCfg = true) ∧
  (hasFlags st vUp = true → hasFlags st vCfg = true) ∧
  (hasFlags st vDown = true → hasFlags st vCfg = true) ∧
  (hasFlags st vAsm = true → hasFlags st (vCoded ||| vSync ||| vUp ||| vDown) = true) ∧
  (hasFlags st vOut = true → hasFlags st vAsm = true)

/-- A block whose host-writable buffers are in canonical form and inside their capacities, whose flags are legal, and
whose error registers agree (10_state.md R24, R25, R32, R34; 60_exceptions.md R250). -/
structure Block.WellFormed {α : Type} (b : Block α) (P : Params α) : Prop where
  msg : b.msg.wf P.nmax = true
  bits : b.bits.wf P.mmax = true
  bitLen : b.bitLen.toNat ≤ P.mmax
  flags : FlagsLegal b.status
  errCode : b.err.toNat ≤ 8
  errInfo : b.err = 0 → b.errInfo = 0

/-- What each valid flag says of its buffer and length registers: they hold what the flag's command computes from the
current inputs (10_state.md R23). -/
structure Block.Coherent {α : Type} (b : Block α) (P : Params α) : Prop where
  cfg : hasFlags b.status vCfg = true → initFails P b = none
  coded : hasFlags b.status vCoded = true →
    b.coded = fecEncode (b.bitList P b.bitLen.toNat) ∧
    b.codedLen = lengthReg P (b.bitLen.toNat + rmin b.bitLen.toNat + 2) ∧
    b.parCnt = lengthReg P (rmin b.bitLen.toNat + 2)
  sync : hasFlags b.status vSync = true → b.chirp P .sync = some b.sync
  up : hasFlags b.status vUp = true → b.chirp P .up = some b.up
  down : hasFlags b.status vDown = true → b.chirp P .down = some b.down
  asm : hasFlags b.status vAsm = true →
    b.asm = b.assembled P ∧ b.asmLen = lengthReg P (asmLength b.tsym.toNat b.ovsamp.toNat b.codedLen.toNat)
  out : hasFlags b.status vOut = true →
    let asm := b.asmList P b.asmLen.toNat
    let g := gapSamples P.num b.interval b.fs.toNat
    b.rendered P asm = some b.out ∧ b.gap = lengthReg P g ∧
    b.outLen = lengthReg P (totalLength b.repeatCount.toNat asm.length g) ∧
    totalLength b.repeatCount.toNat asm.length g ≤ P.outmax

/-- A well-formed state of the machine. -/
def State.WellFormed (s : State) : Prop := s.toBlock.WellFormed Config.params

/-- A coherent state of the machine. -/
def State.Coherent (s : State) : Prop := s.toBlock.Coherent Config.params

/-- The command executes when it is issued: no error is recorded and every flag it needs is 1 (40_control.md R100). -/
def Ready {α : Type} (i : Instr) (b : Block α) : Prop := b.err = 0 ∧ missingFlags i b = 0

/-- The command's own rule, what the prologue leads to when it lets the command execute (40_control.md R100). -/
def ownRule {α : Type} (P : Params α) : Instr → Block α → BlockResult α
  | .nop, b => .next b
  | .init, b => initBody P b
  | .map, b => mapBody P b
  | .fec, b => fecBody P b
  | .chirpSync, b => chirpBody P .sync b
  | .chirpUp, b => chirpBody P .up b
  | .chirpDown, b => chirpBody P .down b
  | .asm, b => asmBody P b
  | .rend, b => rendBody P b
  | .run, b => runBody P b
  | .clrErr, b => .next (clearError b)

/-- The message has no meaning to `MAP`: its length is in range, and it contains `a` to `f` while `HEX_LOWER_OK` is not
fixed (41_symbol_mapper.md R123). -/
def mapRefuses {α : Type} (P : Params α) (b : Block α) : Prop :=
  1 ≤ b.msgLen.toNat ∧ b.msgLen.toNat ≤ P.nmax ∧ caseUnfixed P.hexLowerOk (b.msgList P b.msgLen.toNat) = true

/-- A run that is finished and good (70_reset_and_hazards.md R288). -/
def finishedGood {α : Type} (b : Block α) : Prop := b.err = 0 ∧ hasFlags b.status vOut = true

/-- A run that is finished and failed (70_reset_and_hazards.md R288). -/
def finishedFailed {α : Type} (b : Block α) : Prop := b.err ≠ 0

/-- A run in progress (70_reset_and_hazards.md R288). -/
def inProgress {α : Type} (b : Block α) : Prop := b.err = 0 ∧ hasFlags b.status vOut = false

/-- The artifact the block owes the host at the end of a good run (70_reset_and_hazards.md R288). -/
def artifact {α : Type} (b : Block α) : U32 × U32 × List Sample := (b.fs, b.outLen, b.out.take b.outLen.toNat)

end Sys2Proof.Machine
end

