-- ==== Sys2Proof/Certificates/Slice0/Obligations.lean ====
section
/-!
DEFINITION. The statements for the provers. Each docstring names the rule of spec/ it formalises, or the log entry where
it states the model's own choice.
-/
open Sys2Proof Sys2Proof.Machine

/-! ### Parameters -/

/-- 00_scope.md R9 and R15: the machine's parameters meet every constraint of R9, its number domain obeys every law of
R15, and so does the reference instantiation, the real numbers. -/
def Obligations.NumberDomainsObeyTheLaws : Prop := Config.params.Valid ∧ NUM.reference.Lawful

/-! ### Encoding -/

/-- 30_encoding.md R84: the eleven words decode to their commands, and no other word is legal. -/
def Obligations.OpcodeMapDecodes : Prop :=
  (decodeWord 0x0000#16 = some .nop ∧ decodeWord 0x0100#16 = some .init ∧ decodeWord 0x0200#16 = some .map ∧
    decodeWord 0x0300#16 = some .fec ∧ decodeWord 0x0400#16 = some .chirpSync ∧
    decodeWord 0x0401#16 = some .chirpUp ∧ decodeWord 0x0402#16 = some .chirpDown ∧
    decodeWord 0x0500#16 = some .asm ∧ decodeWord 0x0600#16 = some .rend ∧ decodeWord 0x0700#16 = some .run ∧
    decodeWord 0x0800#16 = some .clrErr) ∧
  ∀ w : CmdWord, w ∉ [0x0000#16, 0x0100#16, 0x0200#16, 0x0300#16, 0x0400#16, 0x0401#16, 0x0402#16, 0x0500#16,
    0x0600#16, 0x0700#16, 0x0800#16] → decodeWord w = none

/-- 30_encoding.md R80 to R84: decoding inverts encoding, and a legal word is the encoding of its command. -/
def Obligations.DecodeInvertsEncode : Prop :=
  (∀ i : Instr, decodeWord (encode i) = some i) ∧ ∀ (w : CmdWord) (i : Instr), decodeWord w = some i → encode i = w

/-- 30_encoding.md R85, 60_exceptions.md R257: an illegal word has an unassigned opcode, an operand where there is none,
or no such chirp; issued with no error recorded it records code 7 and the word and changes nothing else, and issued while
an error is recorded it changes nothing. -/
def Obligations.IllegalWordRaises : Prop :=
  ∀ (w : CmdWord) (s : State),
    let op := (w.extractLsb' 8 8).toNat
    let arg := (w.extractLsb' 0 8).toNat
    9 ≤ op ∨ (op ≠ 4 ∧ arg ≠ 0) ∨ (op = 4 ∧ 3 ≤ arg) →
    decodeWord w = none ∧ (s.err = 0 → issue w s = .next { s with err := 7, errInfo := w.setWidth 32 }) ∧
    (s.err ≠ 0 → issue w s = .next s)

/-! ### The step and the prologue -/

/-- 10_state.md R22, 20_memory.md R70, R74: when the host's next move writes a legal word to `CMD` (bits 31:16
ignored), the step executes that command, on the state with the move taken (log 8, log 10). -/
def Obligations.StepExecutesTheIssuedCommand : Prop :=
  ∀ (s : State) (v : HostVal NumVal) (rest : List (HostMove NumVal)) (x : Int) (i : Instr),
    s.pending = .regWrite 0 v :: rest → v.toInt Config.num = some x → decodeWord (BitVec.ofInt 16 x) = some i →
    step s = exec i { s with pending := rest, epoch := s.epoch + 1 }

/-- 60_exceptions.md R267: between the host's moves the block is idle (log 8). -/
def Obligations.IdleStepChangesNothing : Prop := ∀ s : State, s.pending = [] → step s = .next s

/-- 40_control.md R100: the common prologue, with its `need` table. -/
def Obligations.CommonPrologue : Prop :=
  (needFlags .nop = 0x00#8 ∧ needFlags .init = 0x00#8 ∧ needFlags .run = 0x00#8 ∧ needFlags .clrErr = 0x00#8 ∧
    needFlags .map = 0x01#8 ∧ needFlags .fec = 0x03#8 ∧ needFlags .chirpSync = 0x01#8 ∧ needFlags .chirpUp = 0x01#8 ∧
    needFlags .chirpDown = 0x01#8 ∧ needFlags .asm = 0x3D#8 ∧ needFlags .rend = 0x41#8) ∧
  ∀ (w : CmdWord) (s : State),
    (s.err ≠ 0 → w ≠ 0x0800#16 → issue w s = .next s) ∧
    (s.err = 0 → decodeWord w = none → issue w s = .next { s with err := 7, errInfo := w.setWidth 32 }) ∧
    (∀ i, s.err = 0 → decodeWord w = some i → needFlags i &&& ~~~s.status ≠ 0#8 →
      issue w s = .next { s with
        toBlock := raise .sequenceError ((needFlags i &&& ~~~s.status).setWidth 32) (raiseClears i) s.toBlock }) ∧
    (∀ i, s.err = 0 ∨ w = 0x0800#16 → decodeWord w = some i → needFlags i &&& ~~~s.status = 0#8 →
      issue w s = onBlock (ownRule Config.params i) s)

/-- 10_state.md R35: the flags each command sets and clears when it completes, and clears when it raises. -/
def Obligations.CommandFlagTable : Prop :=
  let sets : Instr → Flags := fun i =>
    match i with
    | .init => 0x01#8
    | .map => 0x02#8
    | .fec => 0x04#8
    | .chirpSync => 0x08#8
    | .chirpUp => 0x10#8
    | .chirpDown => 0x20#8
    | .asm => 0x40#8
    | .rend => 0x80#8
    | .nop | .run | .clrErr => 0x00#8
  let clears : Instr → Flags := fun i =>
    match i with
    | .map => 0xC4#8
    | .fec | .chirpSync | .chirpUp | .chirpDown => 0xC0#8
    | .asm => 0x80#8
    | .nop | .init | .rend | .run | .clrErr => 0x00#8
  let raised : Instr → Flags := fun i =>
    match i with
    | .init => 0xF9#8
    | .map => 0xC6#8
    | .fec => 0xC4#8
    | .chirpSync => 0xC8#8
    | .chirpUp => 0xD0#8
    | .chirpDown => 0xE0#8
    | .asm => 0xC0#8
    | .rend => 0x80#8
    | .nop | .run | .clrErr => 0x00#8
  ∀ (i : Instr) (s t : State), i ≠ .run → s.err = 0 → exec i s = .next t →
    (t.err = 0 → t.status = (s.status &&& ~~~(clears i)) ||| sets i) ∧
    (t.err ≠ 0 → t.status = s.status &&& ~~~(raised i))

/-- 60_exceptions.md R261, R250: what a raise writes, which buffers it leaves alone, and the eight codes. -/
def Obligations.RaiseEffect : Prop :=
  (∀ (α : Type) (e : BlockError) (info : U32) (f : Flags) (s : Block α),
    let t := raise e info f s
    t = { s with
      err := e.code, errInfo := info, status := s.status &&& ~~~f, bits := t.bits, coded := t.coded,
      sync := t.sync, up := t.up, down := t.down, asm := t.asm, out := t.out } ∧
    (f &&& 0x02#8 = 0#8 → t.bits = s.bits) ∧ (f &&& 0x04#8 = 0#8 → t.coded = s.coded) ∧
    (f &&& 0x08#8 = 0#8 → t.sync = s.sync) ∧ (f &&& 0x10#8 = 0#8 → t.up = s.up) ∧
    (f &&& 0x20#8 = 0#8 → t.down = s.down) ∧ (f &&& 0x40#8 = 0#8 → t.asm = s.asm) ∧
    (f &&& 0x80#8 = 0#8 → t.out = s.out)) ∧
  BlockError.invalidMessage.code = 1 ∧ BlockError.invalidParameter.code = 2 ∧ BlockError.invalidRepeat.code = 3 ∧
  BlockError.invalidVolume.code = 4 ∧ BlockError.degenerateChirp.code = 5 ∧ BlockError.degenerateSignal.code = 6 ∧
  BlockError.illegalCommand.code = 7 ∧ BlockError.sequenceError.code = 8

/-- 60_exceptions.md R264, 10_state.md R24: while an error is recorded, no step but a `CLRERR` or a reset changes it. -/
def Obligations.ErrorStaysUntilCleared : Prop :=
  ∀ (s t : State) (m : HostMove NumVal) (rest : List (HostMove NumVal)),
    s.pending = m :: rest → s.err ≠ 0 → m ≠ .reset →
    (∀ v x, m = .regWrite 0 v → v.toInt Config.num = some x → BitVec.ofInt 16 x ≠ 0x0800#16) →
    step s = .next t → t.err = s.err ∧ t.errInfo = s.errInfo

/-! ### Control commands -/

/-- 40_control.md R101: the word `0x0000` is `NOP`, and it leaves the state unchanged, in any state. -/
def Obligations.NopChangesNothing : Prop :=
  encode .nop = 0x0000#16 ∧ ∀ s : State, exec .nop s = .next s ∧ issue 0x0000#16 s = .next s

/-- 40_control.md R105: the word `0x0800` is `CLRERR`; it clears the error registers and nothing else, also while an
error is recorded; with none recorded it changes nothing; and no other command acts while an error is recorded. -/
def Obligations.ClrErrClearsTheError : Prop :=
  encode .clrErr = 0x0800#16 ∧
  ∀ s : State, exec .clrErr s = .next { s with err := 0, errInfo := 0 } ∧
    (s.err = 0 → s.errInfo = 0 → exec .clrErr s = .next s) ∧
    ∀ i : Instr, s.err ≠ 0 → i ≠ .clrErr → exec i s = .next s

/-- 40_control.md R102: with acceptable parameters `INIT` completes, setting `V.CFG` and changing nothing else. -/
def Obligations.InitCompletes : Prop :=
  ∀ s : State, s.err = 0 → s.mode = 0 → 0 < s.fc → 0 < s.bw → 1 ≤ s.tsym.toNat → s.tsym.toNat ≤ tmax →
    1 ≤ s.fs.toNat → s.ovsamp.toNat < s.tsym.toNat → exec .init s = .next { s with status := s.status ||| 0x01#8 }

/-- 40_control.md R102 to R104: `INIT`'s checks in their order, each raise with the register's number and the flags of
10_state.md R35, under any parameters; `0 < x[FC]` and `0 < x[BW]` are the number domain's order. `exec` is this
command under the machine's parameters. -/
def Obligations.InitChecksInOrder : Prop :=
  (∀ (α : Type) (P : Params α) (s : Block α), s.err = 0 →
    let fails := fun n : U32 => (.next (raise .invalidParameter n 0xF9#8 s) : BlockResult α)
    initCommand P s =
      if s.mode ≠ 0 then fails 4
      else if P.num.lt P.num.zero s.fc = false then fails 5
      else if P.num.lt P.num.zero s.bw = false then fails 6
      else if s.tsym.toNat < 1 ∨ s.tsym.toNat > P.tmax then fails 7
      else if s.fs.toNat < 1 then fails 8
      else if s.ovsamp.toNat ≥ s.tsym.toNat then fails 9
      else .next { s with status := s.status ||| 0x01#8 }) ∧
  ∀ s : State, exec .init s = onBlock (initCommand Config.params) s

/-! ### MAP -/

/-- 41_symbol_mapper.md R123: the value of a digit character, with `HEX_LOWER_OK` either way (the codes are the
spec's from general knowledge, 93_implementation_defined.md G1). -/
def Obligations.HexDigitValues : Prop :=
  ∀ (lowerOk : Bool) (c : Char8),
    (0x30 ≤ c.toNat ∧ c.toNat ≤ 0x39 → (hexval lowerOk c).map BitVec.toNat = some (c.toNat - 0x30)) ∧
    (0x41 ≤ c.toNat ∧ c.toNat ≤ 0x46 → (hexval lowerOk c).map BitVec.toNat = some (c.toNat - 0x41 + 10)) ∧
    (0x61 ≤ c.toNat ∧ c.toNat ≤ 0x66 →
      (hexval lowerOk c).map BitVec.toNat = if lowerOk = true then some (c.toNat - 0x61 + 10) else none) ∧
    (c.toNat < 0x30 ∨ (0x39 < c.toNat ∧ c.toNat < 0x41) ∨ (0x46 < c.toNat ∧ c.toNat < 0x61) ∨ 0x66 < c.toNat →
      hexval lowerOk c = none)

/-- 41_symbol_mapper.md R121: the table boundary, and its values for 1 to 8 digits. -/
def Obligations.TableBoundary : Prop :=
  (∀ n : Nat, Sys2Proof.Machine.lim n = if n % 2 = 1 then (n + 1) / 2 else (n + 2) / 2) ∧
  [1, 2, 3, 4, 5, 6, 7, 8].map Sys2Proof.Machine.lim = [1, 2, 2, 3, 3, 4, 4, 5]

/-- 41_symbol_mapper.md R124, 10_state.md R38: on a message of hexadecimal digits `MAP` completes; every digit's four
bits come from its table, and nothing but `BITS[0..4N)`, `BITLEN` and the flags changes. First under any parameters,
`HEX_LOWER_OK` fixed or not (then of the digits `0` to `9` and `A` to `F`), and then on the machine. That `BITLEN` is
free where `4N` does not fit it is log 20. -/
def Obligations.MapCompletes : Prop :=
  let done : ∀ {α : Type}, Params α → Block α → (Nat → BitVec 4) → Block α → Prop := fun P s d t =>
    t = { s with bits := t.bits, bitLen := t.bitLen, status := (s.status &&& 0x3B#8) ||| 0x02#8 } ∧
    (4 * s.msgLen.toNat < 2 ^ 32 → t.bitLen.toNat = 4 * s.msgLen.toNat) ∧
    (∀ k j, k < s.msgLen.toNat → j < 4 →
      t.bitAt P (4 * k + j) =
        (if k < Sys2Proof.Machine.lim s.msgLen.toNat then P.lutA (d k) else P.lutB (d k)).getLsbD (3 - j)) ∧
    ∀ k, 4 * s.msgLen.toNat ≤ k → t.bitAt P k = s.bitAt P k
  (∀ (α : Type) (P : Params α) (s : Block α) (lower : Bool) (d : Nat → BitVec 4),
    P.hexLowerOk = some lower ∨ (P.hexLowerOk = none ∧ lower = false) →
    s.err = 0 → s.status &&& 0x01#8 = 0x01#8 → 1 ≤ s.msgLen.toNat → s.msgLen.toNat ≤ P.nmax →
    (∀ k, k < s.msgLen.toNat → hexval lower (s.msgAt P k) = some (d k)) →
    ∃ t, mapCommand P s = .next t ∧ done P s d t) ∧
  ∀ (s : State) (d : Nat → BitVec 4),
    s.err = 0 → s.status &&& 0x01#8 = 0x01#8 → 1 ≤ s.msgLen.toNat → s.msgLen.toNat ≤ nmax →
    (∀ k, k < s.msgLen.toNat → hexval false (s.msgAt Config.params k) = some (d k)) →
    ∃ t, exec .map s = .next { s with toBlock := t } ∧ done Config.params s.toBlock d t

/-- 41_symbol_mapper.md R125, R123, 60_exceptions.md R251: `MAP` rejects a length outside `1..NMAX` first, and then the
first character that is no digit; a message with `a` to `f` has no meaning where `HEX_LOWER_OK` is not fixed, as on the
machine. Under any parameters; `exec` is this command under the machine's. -/
def Obligations.MapRejectsBadMessages : Prop :=
  (∀ (α : Type) (P : Params α) (s : Block α), s.err = 0 → s.status &&& 0x01#8 = 0x01#8 →
    let lower := fun c : Char8 => 0x61 ≤ c.toNat ∧ c.toNat ≤ 0x66
    (s.msgLen.toNat < 1 ∨ P.nmax < s.msgLen.toNat →
      mapCommand P s =
        .next (raise .invalidMessage (0x80000000#32 ||| (s.msgLen &&& 0x7FFFFFFF#32)) 0xC6#8 s)) ∧
    (1 ≤ s.msgLen.toNat → s.msgLen.toNat ≤ P.nmax →
      (∀ k, P.hexLowerOk = none → k < s.msgLen.toNat → lower (s.msgAt P k) →
        mapCommand P s = .refused .lowerCaseUnfixed) ∧
      ∀ i ok, P.hexLowerOk = some ok ∨
          (P.hexLowerOk = none ∧ ok = false ∧ ∀ k, k < s.msgLen.toNat → ¬ lower (s.msgAt P k)) →
        i < s.msgLen.toNat → hexval ok (s.msgAt P i) = none →
        (∀ k, k < i → (hexval ok (s.msgAt P k)).isSome = true) →
        mapCommand P s = .next (raise .invalidMessage (BitVec.ofNat 32 i) 0xC6#8 s))) ∧
  Config.params.hexLowerOk = none ∧ ∀ s : State, exec .map s = onBlock (mapCommand Config.params) s

/-- 41_symbol_mapper.md R127: what `MAP` writes is a function of `MSGLEN`, `MSG[0..MSGLEN)`, `LUTA`, `LUTB` and
`HEX_LOWER_OK` alone: two blocks, under parameters that agree on these and on `NMAX`, and over any two number domains. -/
def Obligations.MapDependsOnTheMessageAlone : Prop :=
  ∀ (α β : Type) (P₁ : Params α) (P₂ : Params β) (s₁ t₁ : Block α) (s₂ : Block β),
    P₁.lutA = P₂.lutA → P₁.lutB = P₂.lutB → P₁.hexLowerOk = P₂.hexLowerOk → P₁.nmax = P₂.nmax →
    Ready .map s₁ → Ready .map s₂ → s₁.msgLen = s₂.msgLen →
    (∀ k, k < s₁.msgLen.toNat → s₁.msgAt P₁ k = s₂.msgAt P₂ k) →
    mapCommand P₁ s₁ = .next t₁ → t₁.err = 0 →
    ∃ t₂, mapCommand P₂ s₂ = .next t₂ ∧ t₂.err = 0 ∧
      (4 * s₁.msgLen.toNat < 2 ^ 32 → t₁.bitLen = t₂.bitLen) ∧
      ∀ k, k < 4 * s₁.msgLen.toNat → t₁.bitAt P₁ k = t₂.bitAt P₂ k

/-! ### FEC -/

/-- 42_fec_encoder.md R147: `FEC` completes whenever it may execute; it writes `CODED`, `CODEDLEN`, `PARCNT` and the
flags, and nothing else. What a length register holds of a length beyond its 32 bits is log 20. -/
def Obligations.FecCompletes : Prop :=
  ∀ s : State, s.err = 0 → s.status &&& 0x03#8 = 0x03#8 →
    let m := s.bitLen.toNat
    exec .fec s = .next { s with
      coded := fecEncode (s.bitList Config.params m)
      codedLen := lengthReg Config.params (m + rmin m + 2)
      parCnt := BitVec.ofNat 32 (rmin m + 2)
      status := (s.status &&& 0x3F#8) ||| 0x04#8 } ∧
    (m + rmin m + 2 < 2 ^ 32 → lengthReg Config.params (m + rmin m + 2) = BitVec.ofNat 32 (m + rmin m + 2))

/-- 42_fec_encoder.md R141: `rmin(m)` is the least `r` with `2^r ≥ m + r + 1`; it is never 1, and it is `r ≥ 2` exactly
on an interval of bit counts. -/
def Obligations.RminIsTheLeast : Prop :=
  (∀ m : Nat, m + rmin m + 1 ≤ 2 ^ rmin m ∧ ∀ r, r < rmin m → 2 ^ r < m + r + 1) ∧
  rmin 0 = 0 ∧ rmin 1 = 2 ∧ rmin 20 = 5 ∧ (∀ m : Nat, rmin m ≠ 1) ∧
  ∀ m r : Nat, 2 ≤ r → (rmin m = r ↔ 2 ^ (r - 1) - (r - 1) ≤ m ∧ m ≤ 2 ^ r - r - 1)

/-- 42_fec_encoder.md R142: in the CodedSequence the data bits stand, in order, at the positions that are no powers of
two, and exactly `r` of the positions `1..m+r` are powers of two. -/
def Obligations.FecKeepsTheDataInOrder : Prop :=
  ∀ data : List Bool,
    let n := data.length + rmin data.length
    ((List.range n).filter (fun t => !isPowerOfTwo (t + 1))).map (fun t => (fecEncode data).getD t false) = data ∧
    ((List.range n).filter (fun t => isPowerOfTwo (t + 1))).length = rmin data.length

/-- 42_fec_encoder.md R143, R144: every Hamming parity is the XOR of the other positions it covers, so that the XOR
over its whole coverage set is 0. -/
def Obligations.FecParitiesAreEven : Prop :=
  ∀ (data : List Bool) (i : Nat), i < rmin data.length →
    let n := data.length + rmin data.length
    let covered := (List.range n).filter (fun t => (t + 1) &&& 2 ^ i = 2 ^ i)
    xorAll (covered.map (fun t => (fecEncode data).getD t false)) = false ∧
    (fecEncode data).getD (2 ^ i - 1) false =
      xorAll ((covered.filter (fun t => t + 1 ≠ 2 ^ i)).map (fun t => (fecEncode data).getD t false))

/-- 42_fec_encoder.md R145: the chunk-4 parity is appended first, and the chunk-8 parity covers it. -/
def Obligations.FecChunkParities : Prop :=
  ∀ data : List Bool,
    let h := hammingBits data
    let q4 := xorAll (((List.range h.length).filter (fun t => t % 4 = 0)).map (fun t => h.getD t false))
    let q8 := xorAll (((List.range (h.length + 1)).filter (fun t => t % 8 = 0)).map (fun t => (h ++ [q4]).getD t false))
    fecEncode data = h ++ [q4, q8]

/-- 42_fec_encoder.md R146: the lengths and counts after `FEC`, where `CODEDLEN` can hold the length; `CODED` has the
length in any case, inside its capacity. -/
def Obligations.FecLengths : Prop :=
  ∀ s : State, s.err = 0 → s.status &&& 0x03#8 = 0x03#8 → s.bitLen.toNat ≤ Config.params.mmax →
    let m := s.bitLen.toNat
    ∃ t, exec .fec s = .next t ∧ t.coded.length = m + rmin m + 2 ∧ t.coded.length ≤ Config.params.cmax ∧
      t.parCnt.toNat = rmin m + 2 ∧ t.bitLen = s.bitLen ∧
      (m + rmin m + 2 < 2 ^ 32 →
        t.codedLen.toNat = m + rmin m + 2 ∧ t.codedLen.toNat = t.bitLen.toNat + t.parCnt.toNat)

/-- 42_fec_encoder.md R148: the CodedSequence of a 5-digit message, bit by bit. -/
def Obligations.FecFiveDigitTree : Prop :=
  ∀ d : Nat → Bool,
    let x := fun l : List Nat => xorAll (l.map d)
    let p0 := x [0, 1, 3, 4, 6, 8, 10, 11, 13, 15, 17, 19]
    let p1 := x [0, 2, 3, 5, 6, 9, 10, 12, 13, 16, 17]
    let p2 := x [1, 2, 3, 7, 8, 9, 10, 14, 15, 16, 17]
    let p3 := x [4, 5, 6, 7, 8, 9, 10, 18, 19]
    let p4 := x [11, 12, 13, 14, 15, 16, 17, 18, 19]
    fecEncode ((List.range 20).map d) =
      [p0, p1, d 0, p2, d 1, d 2, d 3, p3, d 4, d 5, d 6, d 7, d 8, d 9, d 10, p4, d 11, d 12, d 13, d 14, d 15, d 16,
        d 17, d 18, d 19, x [0, 3, 6, 10, 13, 17], x [0, 1, 3, 6, 8, 10, 13, 15, 17]]

/-- 42_fec_encoder.md R149: flipping one data bit of the CodedSequence breaks at least two of the parity checks. -/
def Obligations.FecFlipBreaksTwoChecks : Prop :=
  ∀ (data : List Bool) (j : Nat),
    let n := data.length + rmin data.length
    1 ≤ j → j ≤ n → isPowerOfTwo j = false →
    let flipped := (fecEncode data).set (j - 1) (!(fecEncode data).getD (j - 1) false)
    let check := fun i => xorAll (((List.range n).filter (fun t => (t + 1) &&& 2 ^ i = 2 ^ i)).map
      (fun t => flipped.getD t false))
    ∃ i i', i < rmin data.length ∧ i' < rmin data.length ∧ i ≠ i' ∧ check i = true ∧ check i' = true

/-! ### CHIRP -/

/-- 43_chirp_synthesizer.md R171 to R174: over any number domain, sample `i` is the sine of the phase before increment
`i` is added, from phase 0 on, every written operator one operation of the domain; so the first sample is 0 wherever
`sin(0) = 0`. -/
def Obligations.ChirpSinesFollowThePhase : Prop :=
  ∀ (α : Type) (N : NUM α) (isUp : Bool) (d : Nat) (fc bw : α) (fe : Nat),
    let wc := N.div (N.mul (N.mul N.two N.pi) fc) (N.ofNat fe)
    let bRad := N.div (N.mul (N.mul N.two N.pi) bw) (N.ofNat fe)
    let slope := if isUp = true then N.one else N.neg N.one
    let inc := fun i : Nat =>
      N.add (N.mul (N.div (N.mul slope bRad) (N.ofNat d)) (N.add (N.ofNat i) (N.mul N.half (N.sub N.one (N.ofNat d))))) wc
    (chirpSines N isUp d fc bw fe).length = d ∧
    ∃ phase : Nat → α, phase 0 = N.zero ∧ (∀ i : Nat, phase (i + 1) = N.add (phase i) (inc i)) ∧
      (∀ i, i < d → (chirpSines N isUp d fc bw fe)[i]? = some (N.sin (phase i))) ∧
      (N.sin N.zero = N.zero → 0 < d → (chirpSines N isUp d fc bw fe)[0]? = some N.zero)

/-- 43_chirp_synthesizer.md R182: the closed form of the phase, over exact numbers. -/
def Obligations.PhaseClosedForm : Prop :=
  ∀ (K : Type) [Field K] [LinearOrder K] [IsStrictOrderedRing K] [FloorRing K] (pi : K) (sin cos : K → K)
    (isUp : Bool) (d : Nat) (fc bw : K) (fe i : Nat), i < d →
    let N := exactNum pi sin cos
    let slope : K := if isUp = true then 1 else -1
    (phases N (phaseInc N isUp d fc bw fe) d 0 N.zero)[i]? =
      some ((i : K) * (2 * pi * fc / (fe : K)) +
        slope * (2 * pi * bw / (fe : K)) * (i : K) * ((i : K) - (d : K)) / (2 * (d : K)))

/-- 43_chirp_synthesizer.md R176: over exact numbers the taper lengths as `ceil` gives them and in integers, that the
edges do not overlap, the two lengths the rule works out, and the window of one sample. -/
def Obligations.TaperLengths : Prop :=
  ∀ (K : Type) [Field K] [LinearOrder K] [IsStrictOrderedRing K] [FloorRing K] (pi : K) (sin cos : K → K),
    let N := exactNum pi sin cos
    (∀ d : Nat,
      (hannLength N d : Int) = ⌈(d : K) * (1 / 2)⌉ ∧ hannLength N d = (d + 1) / 2 ∧
      (edgeLength N d : Int) = ⌈(hannLength N d : K) / 2⌉ ∧ edgeLength N d = (hannLength N d + 1) / 2 ∧
      (2 ≤ d → 2 * edgeLength N d ≤ d)) ∧
    (hannLength N 1024 = 512 ∧ edgeLength N 1024 = 256 ∧ 1024 - 2 * edgeLength N 1024 = 512) ∧
    (hannLength N 4096 = 2048 ∧ edgeLength N 4096 = 1024 ∧ 4096 - 2 * edgeLength N 4096 = 2048) ∧
    hannLength N 1 = 1 ∧ edgeLength N 1 = 1 ∧ ∀ H : Nat → Nat → K, tukey N H 1 0 = H 1 0

/-- 43_chirp_synthesizer.md R175: over exact numbers, the Tukey window's rising edge, flat middle and falling edge, made
of any Hann window `H` of length `di`, with `h` its half, both rounded up. -/
def Obligations.TukeyWindowShape : Prop :=
  ∀ (K : Type) [Field K] [LinearOrder K] [IsStrictOrderedRing K] [FloorRing K] (pi : K) (sin cos : K → K)
    (H : Nat → Nat → K) (d k : Nat), 1 ≤ d →
    let N := exactNum pi sin cos
    let di := (d + 1) / 2
    let h := (di + 1) / 2
    (k < h → tukey N H d k = H di k) ∧
    (h ≤ k → k < d - h → tukey N H d k = 1) ∧
    (k < h → tukey N H d (d - h + k) = H di (di - h + k))

/-- 43_chirp_synthesizer.md R177: the symmetric Hann window: its formula over any number domain; and over exact numbers,
where the cosine has the reference's values at these points and its symmetry about half a turn, its end points, its
symmetry, its middle, and the windows the rule writes out. -/
def Obligations.HannWindow : Prop :=
  (∀ (α : Type) (N : NUM α) (di k : Nat), 2 ≤ di → k < di →
    symmetricHann N di k =
      N.sub N.half (N.mul N.half (N.cos (N.div (N.mul (N.mul N.two N.pi) (N.ofNat k)) (N.ofNat (di - 1)))))) ∧
  ∀ (K : Type) [Field K] [LinearOrder K] [IsStrictOrderedRing K] [FloorRing K] (pi : K) (sin cos : K → K),
    0 < pi → cos 0 = 1 → cos (pi / 2) = 0 → cos pi = -1 → cos (2 * pi / 3) = -(1 / 2) →
    (∀ x, 0 ≤ x → x ≤ pi → cos (2 * pi - x) = cos x) →
    let N := exactNum pi sin cos
    let H := symmetricHann N
    (∀ di k : Nat, 2 ≤ di → k < di → H di k = H di (di - 1 - k)) ∧
    H 1 0 = 1 ∧ (∀ di : Nat, 2 ≤ di → H di 0 = 0 ∧ H di (di - 1) = 0) ∧
    (∀ k : Nat, 1 ≤ k → H (2 * k + 1) k = 1) ∧
    (List.range 8).map (tukey N H 8) = [0, 3 / 4, 1, 1, 1, 1, 3 / 4, 0] ∧
    (List.range 9).map (tukey N H 9) = [0, 1 / 2, 1, 1, 1, 1, 1, 1 / 2, 0] ∧
    (List.range 4).map (tukey N H 4) = [0, 1, 1, 0] ∧ (List.range 2).map (tukey N H 2) = [1, 1]

/-- 43_chirp_synthesizer.md R179, R183, R184: over exact numbers a synthesized chirp has `D` samples; with the signed
maximum as divisor the largest is exactly 1, and with `CHIRP_NORM_ABS` the largest magnitude is exactly 1; the first
sample is 0, and from three samples on the last is 0 if the Hann window ends in 0. -/
def Obligations.ChirpHasUnitPeak : Prop :=
  ∀ (K : Type) [Field K] [LinearOrder K] [IsStrictOrderedRing K] [FloorRing K] (pi : K) (sin cos : K → K)
    (H : Nat → Nat → K) (absolute isUp : Bool) (d : Nat) (fc bw : K) (fe : Nat) (l : List K), sin 0 = 0 →
    synthesize (exactNum pi sin cos) H absolute isUp d fc bw fe = some l →
    l.length = d ∧
    (absolute = false → (1 : K) ∈ l ∧ ∀ v ∈ l, v ≤ 1) ∧
    (absolute = true → (∃ v ∈ l, |v| = 1) ∧ ∀ v ∈ l, |v| ≤ 1) ∧
    l[0]? = some 0 ∧ (3 ≤ d → (∀ di, 2 ≤ di → H di (di - 1) = 0) → l[d - 1]? = some 0)

/-- 43_chirp_synthesizer.md R181: each chirp command completes where its divisor is not 0, and writes its own buffer
and flags only. The divisor is that of R179 under the parameter `CHIRP_NORM_ABS`, which is free (log 7). -/
def Obligations.ChirpsComplete : Prop :=
  ∀ s : State, s.err = 0 → s.status &&& 0x01#8 = 0x01#8 →
    let t := s.tsym.toNat
    let y := fun (isUp : Bool) (d : Nat) =>
      windowed Config.num (symmetricHann Config.num) isUp d s.fc s.bw s.fs.toNat
    let mx := fun (isUp : Bool) (d : Nat) =>
      if Config.chirpNormAbs = true then maxNum Config.num ((y isUp d).map (fun v => |v|))
      else maxNum Config.num (y isUp d)
    let scaled := fun (isUp : Bool) (d : Nat) => (y isUp d).map (fun v => v / mx isUp d)
    (mx true (4 * t) ≠ 0 → exec .chirpSync s = .next { s with
      sync := scaled true (4 * t), status := (s.status &&& 0x3F#8) ||| 0x08#8 }) ∧
    (mx true t ≠ 0 → exec .chirpUp s = .next { s with
      up := scaled true t, status := (s.status &&& 0x3F#8) ||| 0x10#8 }) ∧
    (mx false t ≠ 0 → exec .chirpDown s = .next { s with
      down := scaled false t, status := (s.status &&& 0x3F#8) ||| 0x20#8 })

/-- 43_chirp_synthesizer.md R180, 60_exceptions.md R255: a chirp whose divisor is 0 raises with its `sel`, under any
parameters, `CHIRP_NORM_ABS` either way. `exec` is each of these commands under the machine's parameters. -/
def Obligations.ChirpsOfNoAmplitudeRaise : Prop :=
  (∀ (α : Type) (P : Params α) (s : Block α), s.err = 0 → s.status &&& 0x01#8 = 0x01#8 →
    let N := P.num
    let t := s.tsym.toNat
    let y := fun (isUp : Bool) (d : Nat) => windowed N P.hann isUp d s.fc s.bw s.fs.toNat
    let mx := fun (isUp : Bool) (d : Nat) =>
      if P.chirpNormAbs = true then maxNum N ((y isUp d).map N.abs) else maxNum N (y isUp d)
    (N.isZero (mx true (4 * t)) = true →
      chirpCommand P .sync s = .next (raise .degenerateChirp 0 0xC8#8 s)) ∧
    (N.isZero (mx true t) = true → chirpCommand P .up s = .next (raise .degenerateChirp 1 0xD0#8 s)) ∧
    (N.isZero (mx false t) = true → chirpCommand P .down s = .next (raise .degenerateChirp 2 0xE0#8 s))) ∧
  ∀ s : State, exec .chirpSync s = onBlock (chirpCommand Config.params .sync) s ∧
    exec .chirpUp s = onBlock (chirpCommand Config.params .up) s ∧
    exec .chirpDown s = onBlock (chirpCommand Config.params .down) s

/-- 43_chirp_synthesizer.md R183: a chirp of one sample always raises. -/
def Obligations.OneSampleChirpsRaise : Prop :=
  ∀ s : State, s.err = 0 → s.status &&& 0x01#8 = 0x01#8 → s.tsym = 1 →
    exec .chirpUp s = .next { s with toBlock := raise .degenerateChirp 1 0xD0#8 s.toBlock } ∧
    exec .chirpDown s = .next { s with toBlock := raise .degenerateChirp 2 0xE0#8 s.toBlock }

/-! ### ASM -/

/-- 44_signal_assembler.md R204: `ASM` completes whenever it may execute, and writes `ASM`, `ASMLEN` and the flags
only. What `ASMLEN` holds of a length beyond its 32 bits is log 20. -/
def Obligations.AsmCompletes : Prop :=
  ∀ s : State, s.err = 0 → s.status &&& 0x3D#8 = 0x3D#8 →
    let t := s.tsym.toNat
    let l := asmLength t s.ovsamp.toNat s.codedLen.toNat
    exec .asm s = .next { s with
      asm := assemble Config.num t s.ovsamp.toNat (s.codedList Config.params s.codedLen.toNat)
        (s.syncList Config.params (4 * t)) (s.upList Config.params t) (s.downList Config.params t)
      asmLen := lengthReg Config.params l
      status := (s.status &&& 0x7F#8) ||| 0x40#8 } ∧
    (l < 2 ^ 32 → lengthReg Config.params l = BitVec.ofNat 32 l)

/-- 44_signal_assembler.md R203: the assembled length is the closed form, inside the buffer's capacity, and `ASMLEN`
holds it where it can. The CodedSequence's length is one its register holds. -/
def Obligations.AsmLength : Prop :=
  ∀ s : State, s.WellFormed → s.Coherent → s.err = 0 → s.status &&& 0x3D#8 = 0x3D#8 → s.coded.length < 2 ^ 32 →
    ∃ t, exec .asm s = .next t ∧ s.codedLen.toNat = s.coded.length ∧
      (t.asm.length : Int) = s.tsym.toNat + 4 * s.tsym.toNat + s.codedLen.toNat * s.tsym.toNat -
        s.ovsamp.toNat * (s.codedLen.toNat - 1 : Int) ∧
      t.asm.length ≤ Config.params.asmmax ∧ (t.asm.length < 2 ^ 32 → t.asmLen.toNat = t.asm.length)

/-- 44_signal_assembler.md R201, R202: over any number domain, every sample of the AssembledSignal: silence or the
synchronization chirp added to it, and then the chirps of the coded bits added in order at stride `T - ov`. -/
def Obligations.AssembledSamples : Prop :=
  ∀ (α : Type) (N : NUM α) (t ov : Nat) (coded : List Bool) (sync up down : List α) (j : Nat),
    ov < t → sync.length = 4 * t → up.length = t → down.length = t →
    j < asmLength t ov coded.length →
    (assemble N t ov coded sync up down)[j]? = some
      ((List.range coded.length).foldl
        (fun acc c =>
          let cur := 5 * t + c * (t - ov)
          if cur ≤ j ∧ j < cur + t then
            N.add acc ((if coded.getD c false then up else down).getD (j - cur) N.zero)
          else acc)
        (if t ≤ j ∧ j < 5 * t then N.add N.zero (sync.getD (j - t) N.zero) else N.zero))

/-- 44_signal_assembler.md R205: without overlap the AssembledSignal is silence, the synchronization chirp and one
chirp per coded bit, end to end, over any number domain that obeys the laws of 00_scope.md R15. -/
def Obligations.AssembleWithoutOverlap : Prop :=
  ∀ (α : Type) (N : NUM α) (t : Nat) (coded : List Bool) (sync up down : List α), N.Lawful →
    sync.length = 4 * t → up.length = t → down.length = t → (∀ v ∈ sync ++ up ++ down, N.finite v = true) →
    assemble N t 0 coded sync up down =
      List.replicate t N.zero ++ sync ++ (coded.map (fun b => if b = true then up else down)).flatten ∧
    (assemble N t 0 coded sync up down).length = (5 + coded.length) * t

/-! ### REND -/

/-- 45_renderer_quantizer.md R222 to R227: with acceptable parameters `REND` completes; every copy of every sample is
the quantized one, every gap is 0, and nothing but `OUT`, `GAP`, `OUTLEN` and the flags changes. -/
def Obligations.RendCompletes : Prop :=
  ∀ s : State, s.err = 0 → s.status &&& 0x41#8 = 0x41#8 → 1 ≤ s.repeatCount.toInt → 0 ≤ s.volume → s.volume ≤ 1 →
    0 ≤ s.interval →
    let l := s.asmLen.toNat
    let asm := s.asmList Config.params l
    let gap := (roundHalfEven ((s.interval / 1000) * (s.fs.toNat : NumVal))).toNat
    let peak := maxNum Config.num (asm.map (fun v => |v|))
    s.repeatCount.toNat * (l + gap) ≤ outmax → peak ≠ 0 →
    ∃ t, exec .rend s = .next t ∧
      t = { s with out := t.out, gap := t.gap, outLen := t.outLen, status := s.status ||| 0x80#8 } ∧
      t.gap.toNat = gap ∧ t.outLen.toNat = s.repeatCount.toNat * (l + gap) ∧ t.out.length = t.outLen.toNat ∧
      ∀ c, c < s.repeatCount.toNat →
        (∀ k, k < l → ((t.out.getD (c * (l + gap) + k) 0).toInt : Int) =
          roundHalfEven (((asm.getD k 0 * s.volume) / peak) * 32767)) ∧
        ∀ k, k < gap → t.out.getD (c * (l + gap) + l + k) 0 = 0

/-- 45_renderer_quantizer.md R221, R222, R225: `REND`'s checks in their order. -/
def Obligations.RendChecksInOrder : Prop :=
  ∀ s : State, s.err = 0 → s.status &&& 0x41#8 = 0x41#8 →
    let asm := s.asmList Config.params s.asmLen.toNat
    let fails := fun (e : BlockError) (info : U32) => (.next { s with toBlock := raise e info 0x80#8 s.toBlock } : Result)
    let gap := (roundHalfEven ((s.interval / 1000) * (s.fs.toNat : NumVal))).toNat
    (s.repeatCount.toInt < 1 → exec .rend s = fails .invalidRepeat s.repeatCount) ∧
    (1 ≤ s.repeatCount.toInt → ¬ (0 ≤ s.volume ∧ s.volume ≤ 1) →
      exec .rend s = fails .invalidVolume 0) ∧
    (1 ≤ s.repeatCount.toInt → 0 ≤ s.volume → s.volume ≤ 1 → ¬ (0 ≤ s.interval) →
      exec .rend s = fails .invalidParameter 10) ∧
    (1 ≤ s.repeatCount.toInt → 0 ≤ s.volume → s.volume ≤ 1 → 0 ≤ s.interval →
      outmax < s.repeatCount.toNat * (s.asmLen.toNat + gap) →
      exec .rend s = fails .invalidParameter 19) ∧
    (1 ≤ s.repeatCount.toInt → 0 ≤ s.volume → s.volume ≤ 1 → 0 ≤ s.interval →
      s.repeatCount.toNat * (s.asmLen.toNat + gap) ≤ outmax → maxNum Config.num (asm.map (fun v => |v|)) = 0 →
      exec .rend s = fails .degenerateSignal 0)

/-- 45_renderer_quantizer.md R228: over exact numbers every rendered sample lies in `[-32767, 32767]`, and at full volume
a sample of largest magnitude becomes 32767 or -32767. -/
def Obligations.RenderedRange : Prop :=
  ∀ (K : Type) [Field K] [LinearOrder K] [IsStrictOrderedRing K] [FloorRing K] (pi : K) (sin cos : K → K)
    (volume : K) (asm : List K),
    let N := exactNum pi sin cos
    let peak := maxNum N (asm.map (fun v => |v|))
    0 ≤ volume → volume ≤ 1 → peak ≠ 0 →
    (∀ x ∈ asm, -32767 ≤ quantized N volume peak x ∧ quantized N volume peak x ≤ 32767) ∧
    (∀ x ∈ asm, |x| = peak → quantized N 1 peak x = if 0 < x then 32767 else -32767) ∧
    ∀ count gap : Nat, ∃ out, renderSignal N count gap volume asm = some out ∧ out.length = count * (asm.length + gap) ∧
      ∀ v ∈ out, -32767 ≤ v.toInt ∧ v.toInt ≤ 32767

/-- 45_renderer_quantizer.md R225, 60_exceptions.md R256: on a sound state whose signal has a length `ASMLEN` holds,
`REND` never finds an all-zero signal. It rests on the exact arithmetic of log 1 and holds for either divisor of the
chirps. -/
def Obligations.DegenerateSignalUnreachable : Prop :=
  ∀ s : State, s.WellFormed → s.Coherent → s.err = 0 → s.status &&& 0x41#8 = 0x41#8 → s.asm.length < 2 ^ 32 →
    1 ≤ peakOf Config.num (s.asmList Config.params s.asmLen.toNat) ∧ ∀ t, exec .rend s = .next t → t.err ≠ 6

/-- 00_scope.md R17: over exact numbers `round` answers a nearest integer, and the even one at a tie. -/
def Obligations.RoundHalfToEven : Prop :=
  ∀ (K : Type) [Field K] [LinearOrder K] [IsStrictOrderedRing K] [FloorRing K] (pi : K) (sin cos : K → K),
    let round := (exactNum pi sin cos).round
    (∀ (v : K) (n : Int), |(round v : K) - v| ≤ |(n : K) - v|) ∧
    (∀ n : Int, round ((n : K) + 1 / 2) % 2 = 0) ∧
    round (5 / 2) = 2 ∧ round (7 / 2) = 4 ∧ round (-32767 / 2) = -16384

/-- 00_scope.md R16 and R18: over exact numbers `ceil` is the least integer not below its argument; `toI16` has the
value where it is in range and none elsewhere. -/
def Obligations.CeilAndToI16 : Prop :=
  (∀ (K : Type) [Field K] [LinearOrder K] [IsStrictOrderedRing K] [FloorRing K] (pi : K) (sin cos : K → K) (v : K),
    let c := (exactNum pi sin cos).ceil v
    v ≤ (c : K) ∧ ∀ n : Int, v ≤ (n : K) → c ≤ n) ∧
  (∀ n : Int, -32768 ≤ n → n ≤ 32767 → ∃ v, toI16 n = some v ∧ v.toInt = n) ∧
  ∀ n : Int, n < -32768 ∨ 32767 < n → toI16 n = none

/-! ### RUN, and all commands -/

/-- 40_control.md R107, 45_renderer_quantizer.md R228, 41_symbol_mapper.md R123: over exact numbers every command,
issued in any state and under any parameters, ends in a next state, but for `MAP`, and `RUN` through it, on a message
that contains `a` to `f` where `HEX_LOWER_OK` is not fixed: that is refused, as R123 asks. None faults. That `exec` is
one of these machines, with `HEX_LOWER_OK` not fixed, is the model's choice (log 1, log 6). -/
def Obligations.EveryCommandAnswers : Prop :=
  (∀ (K : Type) [Field K] [LinearOrder K] [IsStrictOrderedRing K] [FloorRing K] (pi : K) (sin cos : K → K)
    (P : Params K) (i : Instr) (s : Block K), P.num = exactNum pi sin cos →
    (∃ t, commandUnder P i s = .next t) ∨
      ((i = .map ∨ i = .run) ∧ mapRefuses P s ∧ commandUnder P i s = .refused .lowerCaseUnfixed)) ∧
  ∀ (i : Instr) (s : State),
    (∃ t, exec i s = .next t) ∨
      ((i = .map ∨ i = .run) ∧ exec i s = .refused .lowerCaseUnfixed ∧
        ∃ k, k < s.msgLen.toNat ∧ 0x61 ≤ (s.msgAt Config.params k).toNat ∧ (s.msgAt Config.params k).toNat ≤ 0x66)

/-- 40_control.md R106: `RUN` stops at the first error, and the error is that of the earliest failing stage. -/
def Obligations.RunStopsAtTheFirstError : Prop :=
  ∀ (s : State) (k : Nat) (states : Nat → State),
    let stages : List Instr := [.init, .map, .fec, .chirpSync, .chirpUp, .chirpDown, .asm, .rend]
    s.err = 0 → k < 8 → states 0 = s →
    (∀ j i, j ≤ k → stages[j]? = some i → exec i (states j) = .next (states (j + 1))) →
    (states (k + 1)).err ≠ 0 ∨ k = 7 → exec .run s = .next (states (k + 1))

/-- 40_control.md R106: with acceptable parameters, message and chirps `RUN` completes the whole pipeline: every flag
is 1, the lengths are those of the rules, and no input register and no character of the message changes. The
chirps' divisors are those of the free parameter `CHIRP_NORM_ABS` (log 7); the assembled length is one `ASMLEN` holds
(log 20); the message has no `a` to `f` (log 6). -/
def Obligations.RunCompletes : Prop :=
  ∀ (s : State) (d : Nat → BitVec 4),
    s.err = 0 → s.mode = 0 → 0 < s.fc → 0 < s.bw → 1 ≤ s.tsym.toNat → s.tsym.toNat ≤ tmax → 1 ≤ s.fs.toNat →
    s.ovsamp.toNat < s.tsym.toNat → 1 ≤ s.msgLen.toNat → s.msgLen.toNat ≤ nmax →
    (∀ k, k < s.msgLen.toNat → hexval false (s.msgAt Config.params k) = some (d k)) →
    let t := s.tsym.toNat
    let mx := fun (isUp : Bool) (len : Nat) => chirpDivisor Config.num Config.chirpNormAbs
      (windowed Config.num (symmetricHann Config.num) isUp len s.fc s.bw s.fs.toNat)
    mx true (4 * t) ≠ 0 → mx true t ≠ 0 → mx false t ≠ 0 →
    1 ≤ s.repeatCount.toInt → 0 ≤ s.volume → s.volume ≤ 1 → 0 ≤ s.interval →
    let m := 4 * s.msgLen.toNat
    let c := m + rmin m + 2
    let l := asmLength t s.ovsamp.toNat c
    let gap := gapSamples Config.num s.interval s.fs.toNat
    l < 2 ^ 32 → s.repeatCount.toNat * (l + gap) ≤ outmax →
    ∃ u, exec .run s = .next u ∧
      u = { s with
        status := 0xFF#8, bits := u.bits, bitLen := u.bitLen, coded := u.coded, codedLen := u.codedLen,
        parCnt := u.parCnt, sync := u.sync, up := u.up, down := u.down, asm := u.asm, asmLen := u.asmLen,
        out := u.out, gap := u.gap, outLen := u.outLen } ∧
      u.bitLen.toNat = m ∧ u.codedLen.toNat = c ∧ u.parCnt.toNat = rmin m + 2 ∧ u.asmLen.toNat = l ∧
      u.gap.toNat = gap ∧ u.outLen.toNat = s.repeatCount.toNat * (l + gap) ∧ u.out.length = u.outLen.toNat

/-! ### The host port -/

/-- 20_memory.md R64, R66, R69: a read changes no block state, and the same read repeated returns the same value. -/
def Obligations.ReadsHaveNoEffect : Prop :=
  ∀ (s : State) (m : HostMove NumVal) (rest : List (HostMove NumVal)), s.pending = m :: rest →
    (∀ n, m = .regRead n → step s = .next { s with pending := rest, rdata := some (regRead n s) } ∧
      regRead n { s with pending := rest, rdata := some (regRead n s) } = regRead n s) ∧
    ∀ space k, m = .memRead space k →
      step s = .next { s with pending := rest, rdata := some (memRead space k s) } ∧
      memRead space k { s with pending := rest, rdata := some (memRead space k s) } = memRead space k s

/-- 20_memory.md R64, R66: what reads of registers and of valid buffers return; `CMD` reads 0, bits 31:8 of `STATUS`
read 0, and a sample reads as a signed number. -/
def Obligations.ReadsReturnTheContents : Prop :=
  ∀ s : State,
    (List.range 20).map (fun n => regRead n s) =
      [.int 0, .int s.status.toNat, .int s.err.toNat, .int s.errInfo.toNat, .int s.mode.toNat, .num s.fc, .num s.bw,
        .int s.tsym.toNat, .int s.fs.toNat, .int s.ovsamp.toNat, .num s.interval, .int s.repeatCount.toInt,
        .num s.volume, .int s.msgLen.toNat, .int s.bitLen.toNat, .int s.codedLen.toNat, .int s.parCnt.toNat,
        .int s.asmLen.toNat, .int s.gap.toNat, .int s.outLen.toNat] ∧
    (∀ k, k < s.msgLen.toNat → k < nmax → memRead 1 k s = .int (s.msgAt Config.params k).toNat) ∧
    (∀ k, k < 16 → memRead 2 k s = .int (Config.lutA (BitVec.ofNat 4 k)).toNat ∧
      memRead 3 k s = .int (Config.lutB (BitVec.ofNat 4 k)).toNat) ∧
    (∀ k, s.status &&& 0x02#8 = 0x02#8 → k < s.bitLen.toNat →
      memRead 4 k s = .int (if s.bitAt Config.params k = true then 1 else 0)) ∧
    (∀ k b, s.status &&& 0x04#8 = 0x04#8 → k < s.codedLen.toNat → s.coded[k]? = some b →
      memRead 5 k s = .int (if b = true then 1 else 0)) ∧
    (∀ k v, s.status &&& 0x08#8 = 0x08#8 → k < 4 * s.tsym.toNat → s.sync[k]? = some v → memRead 6 k s = .num v) ∧
    (∀ k v, s.status &&& 0x10#8 = 0x10#8 → k < s.tsym.toNat → s.up[k]? = some v → memRead 7 k s = .num v) ∧
    (∀ k v, s.status &&& 0x20#8 = 0x20#8 → k < s.tsym.toNat → s.down[k]? = some v → memRead 8 k s = .num v) ∧
    (∀ k v, s.status &&& 0x40#8 = 0x40#8 → k < s.asmLen.toNat → s.asm[k]? = some v → memRead 9 k s = .num v) ∧
    ∀ k v, s.status &&& 0x80#8 = 0x80#8 → k < s.outLen.toNat → s.out[k]? = some v → memRead 10 k s = .int v.toInt

/-- 10_state.md R34, 20_memory.md R66: what a host write of each register stores, and the flags that it and a write of
an element of `MSG` or `BITS` clear and set, in any state and under any parameters; a `Num` that is not finite has no
meaning (00_scope.md R15). That `BITLEN` is cut to 32 bits before it is compared is log 14. -/
def Obligations.RegisterWritesInvalidate : Prop :=
  (∀ (α : Type) (P : Params α) (s : Block α) (x : Int) (q : α),
    (P.num.finite q = true →
      storeReg P 5 (.num q) s = .next { s with fc := q, status := s.status &&& 0x06#8 } ∧
      storeReg P 6 (.num q) s = .next { s with bw := q, status := s.status &&& 0x06#8 } ∧
      storeReg P 10 (.num q) s = .next { s with interval := q, status := s.status &&& 0x7F#8 } ∧
      storeReg P 12 (.num q) s = .next { s with volume := q, status := s.status &&& 0x7F#8 }) ∧
    (P.num.finite q = false → ∀ n, n ∈ [5, 6, 10, 12] → storeReg P n (.num q) s = .refused .nonFiniteNum) ∧
    (storeReg P 4 (.int x) s = .next { s with mode := BitVec.ofInt 32 x, status := s.status &&& 0x06#8 } ∧
      storeReg P 7 (.int x) s = .next { s with tsym := BitVec.ofInt 32 x, status := s.status &&& 0x06#8 } ∧
      storeReg P 8 (.int x) s = .next { s with fs := BitVec.ofInt 32 x, status := s.status &&& 0x06#8 } ∧
      storeReg P 9 (.int x) s = .next { s with ovsamp := BitVec.ofInt 32 x, status := s.status &&& 0x06#8 } ∧
      storeReg P 11 (.int x) s = .next { s with repeatCount := BitVec.ofInt 32 x, status := s.status &&& 0x7F#8 } ∧
      storeReg P 13 (.int x) s = .next { s with msgLen := BitVec.ofInt 32 x, status := s.status &&& 0x39#8 }) ∧
    ((BitVec.ofInt 32 x).toNat ≤ P.mmax → storeReg P 14 (.int x) s =
      .next { s with bitLen := BitVec.ofInt 32 x, status := (s.status &&& 0x3B#8) ||| 0x02#8 }) ∧
    (P.mmax < (BitVec.ofInt 32 x).toNat →
      storeReg P 14 (.int x) s = .next { s with status := s.status &&& 0x39#8 }) ∧
    ∀ k,
      (k < P.nmax → ∃ t, storeMem P 1 k (.int x) s = .next t ∧
        t = { s with msg := t.msg, status := s.status &&& 0x39#8 }) ∧
      (k < P.mmax → ∃ t, storeMem P 4 k (.int x) s = .next t ∧
        t = { s with bits := t.bits, status := s.status &&& 0x39#8 })) ∧
  ∀ (s : State) (v : HostVal NumVal),
    (∀ n, n ≠ 0 → regWrite n v s = onBlock (storeReg Config.params n v) s) ∧
    ∀ space k, memWrite space k v s = onBlock (storeMem Config.params space k v) s

/-- 20_memory.md R65, R68, 10_state.md R34: a write inside `MSG` or `BITS` stores the low bits in that one element and
clears the message flags, and changes nothing else. -/
def Obligations.BufferWritesStoreOneElement : Prop :=
  ∀ (s : State) (k : Nat) (x : Int),
    (k < nmax → ∃ t, memWrite 1 k (.int x) s = .next t ∧
      t = { s with msg := t.msg, status := s.status &&& 0x39#8 } ∧ t.msgAt Config.params k = BitVec.ofInt 8 x ∧
      ∀ j, j ≠ k → t.msgAt Config.params j = s.msgAt Config.params j) ∧
    (k < Config.params.mmax → ∃ t, memWrite 4 k (.int x) s = .next t ∧
      t = { s with bits := t.bits, status := s.status &&& 0x39#8 } ∧ (t.bitAt Config.params k = true ↔ x % 2 = 1) ∧
      ∀ j, j ≠ k → t.bitAt Config.params j = s.bitAt Config.params j)

/-- 10_state.md R21, 20_memory.md R65, R66, R68: writes of read-only registers and buffers, of places that do not
exist, and beyond a capacity are ignored. -/
def Obligations.OtherWritesAreIgnored : Prop :=
  ∀ (s : State) (v : HostVal NumVal) (x : Int),
    (∀ n, n ∈ [1, 2, 3, 15, 16, 17, 18, 19] ∨ 20 ≤ n → regWrite n v s = .next s) ∧
    (∀ space k, space ≠ 1 → space ≠ 4 → memWrite space k v s = .next s) ∧
    (∀ k, nmax ≤ k → memWrite 1 k (.int x) s = .next s) ∧ ∀ k, Config.params.mmax ≤ k → memWrite 4 k (.int x) s = .next s

/-- 20_memory.md R74: no move of the host but a command or a reset changes the error registers, the lengths the
commands write, or a buffer the commands write, and none sets a flag other than `V.BITS`. -/
def Obligations.HostCannotWriteResults : Prop :=
  ∀ (s t : State) (m : HostMove NumVal) (rest : List (HostMove NumVal)), s.pending = m :: rest → m ≠ .reset →
    (∀ v, m ≠ .regWrite 0 v) → step s = .next t →
    t.err = s.err ∧ t.errInfo = s.errInfo ∧ t.codedLen = s.codedLen ∧ t.parCnt = s.parCnt ∧ t.asmLen = s.asmLen ∧
    t.gap = s.gap ∧ t.outLen = s.outLen ∧ t.coded = s.coded ∧ t.sync = s.sync ∧ t.up = s.up ∧ t.down = s.down ∧
    t.asm = s.asm ∧ t.out = s.out ∧ t.status &&& ~~~(s.status ||| 0x02#8) = 0#8

/-- 70_reset_and_hazards.md R280, R281, 10_state.md R44: every register and the message after a reset move, made in any
state. -/
def Obligations.ResetGivesTheResetValues : Prop :=
  ∀ (s : State) (rest : List (HostMove NumVal)), s.pending = .reset :: rest →
    ∃ t, step s = .next t ∧ t.status = 0 ∧ t.err = 0 ∧ t.errInfo = 0 ∧ t.mode = 0 ∧ t.fc = 19500 ∧ t.bw = 1000 ∧
      t.tsym = 1024 ∧ t.fs = 48000 ∧ t.ovsamp = 0 ∧ t.interval = 500 ∧ t.repeatCount = 10 ∧ t.volume = 8 / 10 ∧
      t.msgLen = 5 ∧ t.bitLen = 0 ∧ t.codedLen = 0 ∧ t.parCnt = 0 ∧ t.asmLen = 0 ∧ t.gap = 0 ∧ t.outLen = 0 ∧
      t.msgList Config.params 5 = [0x31#8, 0x35#8, 0x39#8, 0x37#8, 0x33#8]

/-! ### Invariants -/

/-- 10_state.md R23, R32 to R35: every step keeps the canonical form of memory, the capacities, the legal flag
combinations and the agreement of the error registers. -/
def Obligations.StepKeepsWellFormed : Prop :=
  ∀ s t : State, s.WellFormed → step s = .next t → t.WellFormed

/-- The state after reset is well formed (10_state.md R44). -/
def Obligations.ResetIsWellFormed : Prop := State.reset.WellFormed

/-- 10_state.md R23, R33: every step keeps what the valid flags say: a buffer whose flag is 1 holds what its command
computes from the current inputs. -/
def Obligations.StepKeepsCoherent : Prop :=
  ∀ s t : State, s.WellFormed → s.Coherent → step s = .next t → t.Coherent

/-- The state after reset is coherent: no flag is 1 (10_state.md R44). -/
def Obligations.ResetIsCoherent : Prop := State.reset.Coherent
end

