-- ==== Sys2Proof/Laws/Assembler.lean ====
section
/-!
SUPPORT. The lengths the assembler's steps keep, and the samples one addition changes.
-/
namespace Sys2Proof.Machine

variable {α : Type} (N : NUM α)

/-- Adding a chirp changes no length. -/
@[simp] theorem addAt_length : ∀ (start : Nat) (src buf : List α), (addAt N start src buf).length = buf.length := by
  intro start src buf
  induction buf generalizing start src with
  | nil => cases start <;> simp [addAt]
  | cons b buf ih =>
    cases start with
    | succ n => simp [addAt, ih]
    | zero => cases src <;> simp [addAt, ih]

/-- The samples after one chirp is added (44_signal_assembler.md R202). -/
theorem addAt_get : ∀ (start : Nat) (src buf : List α) (j : Nat), j < buf.length →
   (addAt N start src buf)[j]? = some (if start ≤ j ∧ j < start + src.length then N.add (buf.getD j N.zero)
       (src.getD (j - start) N.zero) else buf.getD j N.zero) := by
  intro start src buf
  induction buf generalizing start src with
  | nil => intro j h; simp at h
  | cons b buf ih =>
    intro j h
    cases start with
    | succ n =>
      cases j with
      | zero => simp [addAt]
      | succ j =>
        simp only [addAt, List.getElem?_cons_succ, List.getD_cons_succ]
        rw [ih n src j (by simpa using h)]
        have : (n ≤ j ∧ j < n + src.length) ↔ (n + 1 ≤ j + 1 ∧ j + 1 < n + 1 + src.length) := by omega
        rw [if_congr this rfl rfl]
        rw [show j + 1 - (n + 1) = j - n by omega]
    | zero =>
      cases src with
      | nil => simp at h; simp [addAt]; rw [List.getElem?_eq_getElem (by simpa using h)]; simp
      | cons x src =>
        cases j with
        | zero => simp [addAt]
        | succ j =>
          simp only [addAt, List.getElem?_cons_succ, List.getD_cons_succ]
          rw [ih 0 src j (by simpa using h)]
          simp

/-- Placing chirps changes no length. -/
@[simp] theorem placeBits_length (up down step) : ∀ coded cur (buf : List α),
    (placeBits N up down step cur coded buf).length = buf.length := by
  intro coded; induction coded with
  | nil => intros; rfl
  | cons b c ih => intro cur buf; simp [placeBits, ih]

/-- Adding a chirp after a part leaves the part as it is. -/
theorem addAt_append (pre src rest : List α) (start : Nat) (h : pre.length = start) : addAt N start src
    (pre ++ rest) = pre ++ addAt N 0 src rest := by
  induction pre generalizing start with
  | nil => simp at h; subst h; rfl
  | cons a pre ih => simp at h; subst h; simp [addAt, ih]

/-- The assembled length is at most that without overlap. -/
theorem asmLength_le (t ov c : Nat) : asmLength t ov c ≤ (5 + c) * t := by
  unfold asmLength; rw [Nat.add_mul]; omega

end Sys2Proof.Machine
end

