-- ==== Sys2Proof/Laws/Buffers.lean ====
section
/-!
SUPPORT. The host-writable buffers: a read after a write, and the canonical form, which every operation keeps.
-/
namespace Sys2Proof.Machine

variable {α : Type}

@[simp] theorem cellFind_cellWrite_same (k : Nat) (v : α) (c : List (Nat × α)) :
    cellFind k (cellWrite k v c) = some v := by
  induction c with
  | nil => simp [cellWrite, cellFind]
  | cons p rest ih =>
    obtain ⟨j, u⟩ := p
    simp only [cellWrite]
    split
    · simp [cellFind]
    · split
      · simp [cellFind]
      · simp [cellFind, ih, Ne.symm ‹¬k = j›]

theorem cellFind_cellWrite_other (k j : Nat) (v : α) (c : List (Nat × α)) (h : j ≠ k) :
    cellFind j (cellWrite k v c) = cellFind j c := by
  induction c with
  | nil => simp [cellWrite, cellFind, Ne.symm h]
  | cons p rest ih =>
    obtain ⟨i, u⟩ := p
    simp only [cellWrite]
    split
    · simp [cellFind, Ne.symm h]
    · split
      · subst k; simp [cellFind, Ne.symm h]
      · simp [cellFind, ih]

/-- What a run of writes leaves at every address. -/
theorem cellFind_cellWriteFrom (vs : List α) : ∀ (k j : Nat) (c : List (Nat × α)),
    cellFind j (cellWriteFrom k vs c) = if k ≤ j ∧ j < k + vs.length then vs[j - k]? else cellFind j c := by
  induction vs with
  | nil => intro k j c; simp only [cellWriteFrom, List.length_nil, Nat.add_zero]; rw [if_neg (by omega)]
  | cons v vs ih =>
    intro k j c
    simp only [cellWriteFrom, ih, List.length_cons]
    by_cases hj : j = k
    · subst hj
      simp
    · by_cases h : k + 1 ≤ j ∧ j < k + 1 + vs.length
      · rw [if_pos h, if_pos (by omega)]
        obtain ⟨d, rfl⟩ : ∃ d, j = k + 1 + d := ⟨j - (k + 1), by omega⟩
        have e1 : k + 1 + d - (k + 1) = d := by omega
        have e2 : k + 1 + d - k = d + 1 := by omega
        rw [e1, e2, List.getElem?_cons_succ]
      · rw [if_neg h, if_neg (by omega), cellFind_cellWrite_other k j v c hj]

theorem risingFrom_mono {lo lo' : Nat} {c : List (Nat × α)} (h : risingFrom lo c = true) (hl : lo' ≤ lo) :
    risingFrom lo' c = true := by
  cases c with
  | nil => rfl
  | cons p rest =>
    obtain ⟨j, u⟩ := p
    simp only [risingFrom, Bool.and_eq_true, decide_eq_true_eq] at *
    exact ⟨by omega, h.2⟩

theorem risingFrom_cellWrite {k : Nat} {v : α} {c : List (Nat × α)} : ∀ {lo : Nat},
    risingFrom lo c = true → lo ≤ k → risingFrom lo (cellWrite k v c) = true := by
  induction c with
  | nil => intro lo _ hk; simp [cellWrite, risingFrom, hk]
  | cons p rest ih =>
    obtain ⟨j, u⟩ := p
    intro lo h hk
    simp only [risingFrom, Bool.and_eq_true, decide_eq_true_eq] at h
    simp only [cellWrite]
    split
    · simp only [risingFrom, Bool.and_eq_true, decide_eq_true_eq]
      exact ⟨hk, by omega, h.2⟩
    · split
      · subst k; simp only [risingFrom, Bool.and_eq_true, decide_eq_true_eq]; exact ⟨hk, h.2⟩
      · simp only [risingFrom, Bool.and_eq_true, decide_eq_true_eq]
        exact ⟨h.1, ih h.2 (by omega)⟩

theorem cellsBelow_cellWrite {cap k : Nat} {v : α} {c : List (Nat × α)} (h : cellsBelow cap c = true) (hk : k < cap) :
    cellsBelow cap (cellWrite k v c) = true := by
  induction c with
  | nil => simp [cellWrite, cellsBelow, hk]
  | cons p rest ih =>
    obtain ⟨j, u⟩ := p
    simp only [cellsBelow, Bool.and_eq_true, decide_eq_true_eq] at h
    simp only [cellWrite]
    split
    · simp [cellsBelow, hk, h]
    · split
      · simp [cellsBelow, hk, h]
      · simp [cellsBelow, h, ih]

theorem risingFrom_cellWriteFrom (vs : List α) : ∀ {k : Nat} {c : List (Nat × α)},
    risingFrom 0 c = true → risingFrom 0 (cellWriteFrom k vs c) = true := by
  induction vs with
  | nil => intro k c h; exact h
  | cons v vs ih => intro k c h; exact ih (risingFrom_cellWrite h (Nat.zero_le k))

theorem cellsBelow_cellWriteFrom {cap : Nat} (vs : List α) : ∀ {k : Nat} {c : List (Nat × α)},
    cellsBelow cap c = true → k + vs.length ≤ cap → cellsBelow cap (cellWriteFrom k vs c) = true := by
  induction vs with
  | nil => intro k c h _; exact h
  | cons v vs ih =>
    intro k c h hk
    simp only [List.length_cons] at hk
    exact ih (cellsBelow_cellWrite h (by omega)) (by omega)

/-- Storing one element keeps the canonical form. -/
theorem wf_write {cap k : Nat} {v : α} {b : Buffer α} (h : b.wf cap = true) (hk : k < cap) :
    (b.write k v).wf cap = true := by
  simp only [Buffer.wf, Buffer.write, Bool.and_eq_true] at *
  exact ⟨risingFrom_cellWrite h.1 (Nat.zero_le k), cellsBelow_cellWrite h.2 hk⟩

/-- Storing elements from index 0 on keeps the canonical form. -/
theorem wf_writeAll {cap : Nat} {vs : List α} {b : Buffer α} (h : b.wf cap = true) (hl : vs.length ≤ cap) :
    (b.writeAll vs).wf cap = true := by
  simp only [Buffer.wf, Buffer.writeAll, Bool.and_eq_true] at *
  exact ⟨risingFrom_cellWriteFrom vs h.1, cellsBelow_cellWriteFrom vs h.2 (by omega)⟩

/-- Contents that have become unspecified are in canonical form. -/
@[simp] theorem wf_forget (cap : Nat) (b : Buffer α) : b.forget.wf cap = true := rfl

/-- The generation plays no part in the canonical form. -/
theorem wf_gen (cap g : Nat) (b : Buffer α) : ({ b with gen := g } : Buffer α).wf cap = b.wf cap := rfl

/-- A read after a write of one element. -/
theorem read_write (b : Buffer α) (k j : Nat) (v : α) :
    (b.write k v).read j = if j = k then some v else b.read j := by
  by_cases h : j = k
  · subst h; simp [Buffer.read, Buffer.write]
  · simp only [if_neg h]; exact cellFind_cellWrite_other k j v b.cells h

/-- A read after elements were stored from index 0 on. -/
theorem read_writeAll (b : Buffer α) (vs : List α) (j : Nat) :
    (b.writeAll vs).read j = if j < vs.length then vs[j]? else b.read j := by
  simp only [Buffer.read, Buffer.writeAll, cellFind_cellWriteFrom, Nat.zero_le, true_and, Nat.zero_add, Nat.sub_zero]

/-- All elements of a buffer that holds exactly them. -/
theorem elemsOr_full (free : Nat → α) (l : List α) : elemsOr free l.length l = l := by
  simp [elemsOr]

@[simp] theorem elemsOr_length (free : Nat → α) (n : Nat) (l : List α) : (elemsOr free n l).length = n := by
  simp [elemsOr]; omega

@[simp] theorem Buffer.write_gen (b : Buffer α) (k : Nat) (v : α) : (b.write k v).gen = b.gen := rfl

@[simp] theorem Buffer.writeAll_gen (b : Buffer α) (vs : List α) : (b.writeAll vs).gen = b.gen := rfl

@[simp] theorem Buffer.forget_gen (b : Buffer α) : b.forget.gen = b.gen + 1 := rfl

end Sys2Proof.Machine
end

