-- ==== Sys2Proof/Laws/Capacity.lean ====
section
/-!
SUPPORT. What the capacities and `rmin` give: `rmin` is least and grows with the bit count, and the machine's capacities
meet the constraints of 00_scope.md R9.
-/
namespace Sys2Proof.Machine

/-- The search finds the least `r` from where it starts. -/
theorem rminFrom_spec (m : Nat) : ∀ fuel r, (∀ q, q < r → 2 ^ q < m + q + 1) → m + (r + fuel) + 1 ≤ 2 ^ (r + fuel) →
    m + rminFrom m fuel r + 1 ≤ 2 ^ rminFrom m fuel r ∧ ∀ q, q < rminFrom m fuel r → 2 ^ q < m + q + 1 := by
  intro fuel
  induction fuel with
  | zero => intro r h1 h2; exact ⟨h2, h1⟩
  | succ f ih =>
    intro r h1 h2
    unfold rminFrom
    split
    · exact ⟨‹_›, h1⟩
    · apply ih
      · intro q hq
        rcases Nat.lt_succ_iff_lt_or_eq.mp hq with h | rfl
        · exact h1 q h
        · omega
      · rw [show r + 1 + f = r + (f+1) by omega]; exact h2

/-- `rmin` has its inequality, and no smaller number does (42_fec_encoder.md R141). -/
theorem rmin_spec (m : Nat) : m + rmin m + 1 ≤ 2 ^ rmin m ∧ ∀ q, q < rmin m → 2 ^ q < m + q + 1 := by
  apply rminFrom_spec
  · intro q hq; omega
  · have : m < 2 ^ m := Nat.lt_two_pow_self
    rw [Nat.zero_add, pow_succ]; omega

/-- Whatever has the property of `rmin` is `rmin`. -/
theorem rmin_unique {m r : Nat} (h1 : m + r + 1 ≤ 2 ^ r) (h2 : ∀ q, q < r → 2 ^ q < m + q + 1) : rmin m = r := by
  obtain ⟨a, b⟩ := rmin_spec m
  rcases Nat.lt_trichotomy (rmin m) r with h | h | h
  · have := h2 _ h; omega
  · exact h
  · have := b _ h; omega

/-- More data bits never take fewer parities. -/
theorem rmin_mono {m m' : Nat} (h : m ≤ m') : rmin m ≤ rmin m' := by
  obtain ⟨a, b⟩ := rmin_spec m
  obtain ⟨a', b'⟩ := rmin_spec m'
  by_contra hc
  have := b _ (by omega : rmin m' < rmin m)
  omega

/-- `NMAX` is at least 5 (00_scope.md R9). -/
theorem five_le_nmax : 5 ≤ nmax := by unfold nmax; omega

/-- `TMAX` is at least 1024 (00_scope.md R9). -/
theorem le_tmax : 1024 ≤ tmax := by unfold tmax; omega

/-- `OUTMAX` is at least 567680 (00_scope.md R9). -/
theorem le_outmax : 567680 ≤ outmax := by unfold outmax; omega

/-- `OUTMAX` fits 32 bits (00_scope.md R9). -/
theorem outmax_lt : outmax < 2 ^ 32 := by unfold outmax; omega

end Sys2Proof.Machine
end

