-- ==== Sys2Proof/Laws/Numerics.lean ====
section
/-!
SUPPORT. What the number domains' operations give: pi and the sine's special points and symmetries of the plain-data
domain, rounding and the maximum of samples in every exact domain, and the laws of 00_scope.md R15.
-/
namespace Sys2Proof.Machine

/-! ### Confinement -/

theorem le_clampNum {lo hi v : NumVal} (h : lo ≤ hi) : lo ≤ clampNum lo hi v := by
  unfold clampNum; split
  · exact le_refl lo
  · split
    · exact h
    · exact not_lt.mp ‹¬v < lo›

theorem clampNum_le {lo hi v : NumVal} (h : lo ≤ hi) : clampNum lo hi v ≤ hi := by
  unfold clampNum; split
  · exact h
  · split
    · exact le_refl hi
    · exact not_lt.mp ‹¬hi < v›

theorem piLower_le_pi (N : Numerics) : piLower ≤ N.pi := le_clampNum (by norm_num [piLower, piUpper])

theorem pi_le_piUpper (N : Numerics) : N.pi ≤ piUpper := clampNum_le (by norm_num [piLower, piUpper])

theorem pi_pos (N : Numerics) : 0 < N.pi := lt_of_lt_of_le (by norm_num [piLower]) (piLower_le_pi N)

theorem pi_ne_zero (N : Numerics) : N.pi ≠ 0 := (pi_pos N).ne'

/-! ### Sine and cosine -/

theorem sinTerms_zero (t2 : NumVal) (n : Nat) : ∀ k, sinTerms t2 n k 0 = 0 := by
  induction n with
  | zero => intro k; rfl
  | succ n ih => intro k; simp [sinTerms, ih]

theorem quarterSin_zero (N : Numerics) : N.quarterSin 0 = 0 := by
  have h := pi_ne_zero N
  have hl : sinLower 0 = 0 := sinTerms_zero _ _ _
  have hu : sinUpper 0 = 0 := by
    simp only [sinUpper, sinTerms_zero]
    exact if_neg (by norm_num)
  unfold Numerics.quarterSin
  rw [mul_zero, mul_zero, if_neg h.symm, if_neg h.symm, hl, hu]
  exact le_antisymm (clampNum_le (le_refl 0)) (le_clampNum (le_refl 0))

theorem quarterSin_twelfth (N : Numerics) : N.quarterSin (N.pi / 6) = 1 / 2 := by
  unfold Numerics.quarterSin
  rw [if_pos (by ring)]

theorem quarterSin_quarter (N : Numerics) : N.quarterSin (N.pi / 2) = 1 := by
  have h := pi_pos N
  unfold Numerics.quarterSin
  rw [if_neg (by intro h'; linarith), if_pos (by ring)]

/-- An argument inside the first turn is its own reduction. -/
theorem oneTurn_of_mem {N : Numerics} {x : NumVal} (h0 : 0 ≤ x) (h1 : x < 2 * N.pi) : N.oneTurn x = x := by
  have hp := pi_pos N
  have hf : Rat.floor (x / (2 * N.pi)) = 0 := by
    have : ⌊x / (2 * N.pi)⌋ = 0 := by
      rw [Int.floor_eq_zero_iff, Set.mem_Ico]
      exact ⟨by positivity, by rw [div_lt_one (by linarith)]; exact h1⟩
    exact this
  simp [Numerics.oneTurn, hf]

/-- The reduction forgets whole turns. -/
theorem oneTurn_add_turn (N : Numerics) (x : NumVal) : N.oneTurn (x + 2 * N.pi) = N.oneTurn x := by
  have hp := pi_pos N
  have hf : Rat.floor ((x + 2 * N.pi) / (2 * N.pi)) = Rat.floor (x / (2 * N.pi)) + 1 := by
    have e : (x + 2 * N.pi) / (2 * N.pi) = x / (2 * N.pi) + 1 := by field_simp
    have : ⌊x / (2 * N.pi) + 1⌋ = ⌊x / (2 * N.pi)⌋ + 1 := Int.floor_add_one _
    rw [e]; exact this
  simp only [Numerics.oneTurn, hf]
  push_cast
  ring

theorem oneTurn_nonneg (N : Numerics) (x : NumVal) : 0 ≤ N.oneTurn x := by
  have hp := pi_pos N
  have h : ((Rat.floor (x / (2 * N.pi)) : Int) : NumVal) ≤ x / (2 * N.pi) := Int.floor_le (x / (2 * N.pi))
  rw [le_div_iff₀ (by linarith)] at h
  simp only [Numerics.oneTurn]
  linarith

theorem oneTurn_lt (N : Numerics) (x : NumVal) : N.oneTurn x < 2 * N.pi := by
  have hp := pi_pos N
  have h : x / (2 * N.pi) < ((Rat.floor (x / (2 * N.pi)) : Int) : NumVal) + 1 := Int.lt_floor_add_one (x / (2 * N.pi))
  rw [div_lt_iff₀ (by linarith)] at h
  simp only [Numerics.oneTurn]
  linarith

theorem sin_add_turn (N : Numerics) (x : NumVal) : N.sin (x + 2 * N.pi) = N.sin x := by
  simp only [Numerics.sin, oneTurn_add_turn]

/-- The sine on the first half turn. -/
theorem sin_first {N : Numerics} {x : NumVal} (h0 : 0 ≤ x) (h1 : 2 * x ≤ N.pi) : N.sin x = N.quarterSin x := by
  have hp := pi_pos N
  simp only [Numerics.sin]
  rw [oneTurn_of_mem h0 (by linarith), if_pos h1]

theorem sin_second {N : Numerics} {x : NumVal} (h0 : N.pi < 2 * x) (h1 : x ≤ N.pi) :
    N.sin x = N.quarterSin (N.pi - x) := by
  have hp := pi_pos N
  simp only [Numerics.sin]
  rw [oneTurn_of_mem (by linarith) (by linarith), if_neg (by linarith), if_pos h1]

theorem sin_third {N : Numerics} {x : NumVal} (h0 : N.pi < x) (h1 : 2 * x ≤ 3 * N.pi) :
    N.sin x = -N.quarterSin (x - N.pi) := by
  have hp := pi_pos N
  simp only [Numerics.sin]
  rw [oneTurn_of_mem (by linarith) (by linarith), if_neg (by linarith), if_neg (by linarith), if_pos h1]

theorem sin_fourth {N : Numerics} {x : NumVal} (h0 : 3 * N.pi < 2 * x) (h1 : x < 2 * N.pi) :
    N.sin x = -N.quarterSin (2 * N.pi - x) := by
  have hp := pi_pos N
  simp only [Numerics.sin]
  rw [oneTurn_of_mem (by linarith) h1, if_neg (by linarith), if_neg (by linarith), if_neg (by linarith)]

/-- `sin(0) = 0` exactly (00_scope.md R15). -/
theorem sin_zero (N : Numerics) : N.sin 0 = 0 := by
  have hp := pi_pos N
  rw [sin_first (le_refl 0) (by linarith), quarterSin_zero]

theorem sin_twelfth (N : Numerics) : N.sin (N.pi / 6) = 1 / 2 := by
  have hp := pi_pos N
  rw [sin_first (by linarith) (by linarith), quarterSin_twelfth]

theorem sin_quarter (N : Numerics) : N.sin (N.pi / 2) = 1 := by
  have hp := pi_pos N
  rw [sin_first (by linarith) (by linarith), quarterSin_quarter]

theorem sin_half (N : Numerics) : N.sin N.pi = 0 := by
  have hp := pi_pos N
  rw [sin_second (by linarith) (le_refl _), sub_self, quarterSin_zero]

theorem sin_three_quarters (N : Numerics) : N.sin (3 * N.pi / 2) = -1 := by
  have hp := pi_pos N
  rw [sin_third (by linarith) (by linarith), show 3 * N.pi / 2 - N.pi = N.pi / 2 by ring, quarterSin_quarter]

theorem cos_zero (N : Numerics) : N.cos 0 = 1 := by
  rw [Numerics.cos, zero_add, sin_quarter]

theorem cos_turn (N : Numerics) : N.cos (2 * N.pi) = 1 := by
  rw [Numerics.cos, add_comm, sin_add_turn, sin_quarter]

theorem cos_half (N : Numerics) : N.cos N.pi = -1 := by
  rw [Numerics.cos, show N.pi + N.pi / 2 = 3 * N.pi / 2 by ring, sin_three_quarters]

theorem cos_third (N : Numerics) : N.cos (2 * N.pi / 3) = -(1 / 2) := by
  have hp := pi_pos N
  rw [Numerics.cos, show 2 * N.pi / 3 + N.pi / 2 = 7 * N.pi / 6 by ring, sin_third (by linarith) (by linarith),
    show 7 * N.pi / 6 - N.pi = N.pi / 6 by ring, quarterSin_twelfth]

/-- The cosine is symmetric about half a turn. -/
theorem cos_reflect {N : Numerics} {x : NumVal} (h0 : 0 ≤ x) (h1 : x ≤ N.pi) : N.cos (2 * N.pi - x) = N.cos x := by
  have hp := pi_pos N
  simp only [Numerics.cos]
  by_cases hq : 2 * x ≤ N.pi
  · rw [show 2 * N.pi - x + N.pi / 2 = (N.pi / 2 - x) + 2 * N.pi by ring, sin_add_turn,
      sin_first (by linarith) (by linarith)]
    rcases h0.eq_or_lt with h | h
    · subst h; rw [zero_add, sub_zero, sin_first (by linarith) (by linarith)]
    · rw [sin_second (by linarith) (by linarith), show N.pi - (x + N.pi / 2) = N.pi / 2 - x by ring]
  · rw [sin_third (x := x + N.pi / 2) (by linarith) (by linarith), show x + N.pi / 2 - N.pi = x - N.pi / 2 by ring]
    rcases h1.eq_or_lt with h | h
    · subst h
      rw [show 2 * N.pi - N.pi + N.pi / 2 = 3 * N.pi / 2 by ring, sin_third (by linarith) (by linarith),
        show 3 * N.pi / 2 - N.pi = N.pi - N.pi / 2 by ring]
    · rw [sin_fourth (by linarith) (by linarith),
        show 2 * N.pi - (2 * N.pi - x + N.pi / 2) = x - N.pi / 2 by ring]

/-! ### Exact number domains: each operation is the field's -/

section

variable {K : Type} [Field K] [LinearOrder K] [FloorRing K] {pi : K} {sin cos : K → K}

@[simp] theorem exactNum_zero : (exactNum pi sin cos).zero = 0 := rfl
@[simp] theorem exactNum_half : (exactNum pi sin cos).half = 1 / 2 := rfl
@[simp] theorem exactNum_one : (exactNum pi sin cos).one = 1 := rfl
@[simp] theorem exactNum_two : (exactNum pi sin cos).two = 2 := rfl
@[simp] theorem exactNum_thousand : (exactNum pi sin cos).thousand = 1000 := rfl
@[simp] theorem exactNum_fullScale : (exactNum pi sin cos).fullScale = 32767 := rfl
@[simp] theorem exactNum_pi : (exactNum pi sin cos).pi = pi := rfl
@[simp] theorem exactNum_sin : (exactNum pi sin cos).sin = sin := rfl
@[simp] theorem exactNum_cos : (exactNum pi sin cos).cos = cos := rfl
@[simp] theorem exactNum_ofNat (n : Nat) : (exactNum pi sin cos).ofNat n = (n : K) := rfl
@[simp] theorem exactNum_ofInt (n : Int) : (exactNum pi sin cos).ofInt n = (n : K) := rfl
@[simp] theorem exactNum_ofDecimal (n : Int) (p : Nat) :
    (exactNum pi sin cos).ofDecimal n p = (n : K) / 10 ^ p := rfl
@[simp] theorem exactNum_add (a b : K) : (exactNum pi sin cos).add a b = a + b := rfl
@[simp] theorem exactNum_sub (a b : K) : (exactNum pi sin cos).sub a b = a - b := rfl
@[simp] theorem exactNum_mul (a b : K) : (exactNum pi sin cos).mul a b = a * b := rfl
@[simp] theorem exactNum_div (a b : K) : (exactNum pi sin cos).div a b = a / b := rfl
@[simp] theorem exactNum_lt (a b : K) : (exactNum pi sin cos).lt a b = decide (a < b) := rfl
@[simp] theorem exactNum_le (a b : K) : (exactNum pi sin cos).le a b = decide (a ≤ b) := rfl
@[simp] theorem exactNum_neg (a : K) : (exactNum pi sin cos).neg a = -a := rfl
@[simp] theorem exactNum_abs (a : K) : (exactNum pi sin cos).abs a = |a| := rfl
@[simp] theorem exactNum_isZero (a : K) : (exactNum pi sin cos).isZero a = decide (a = 0) := rfl
@[simp] theorem exactNum_finite (a : K) : (exactNum pi sin cos).finite a = true := rfl
@[simp] theorem exactNum_ceil (a : K) : (exactNum pi sin cos).ceil a = ⌈a⌉ := rfl
@[simp] theorem exactNum_round (a : K) : (exactNum pi sin cos).round a = roundHalfEven a := rfl

/-- Multiplication of samples in an exact domain, as a function. -/
theorem exactNum_mul_eq : (exactNum pi sin cos).mul = fun a b => a * b := rfl

/-! ### Rounding -/

/-- Everything `round` can answer: the floor or the integer after it. -/
theorem roundHalfEven_cases (v : K) :
    (roundHalfEven v = ⌊v⌋ ∧ v - ⌊v⌋ ≤ 1 / 2) ∨ (roundHalfEven v = ⌊v⌋ + 1 ∧ 1 / 2 ≤ v - ⌊v⌋) := by
  simp only [roundHalfEven]
  split
  · exact .inl ⟨rfl, le_of_lt ‹_›⟩
  · split
    · exact .inr ⟨rfl, le_of_lt ‹_›⟩
    · have hd : v - (⌊v⌋ : K) = 1 / 2 := le_antisymm (not_lt.mp ‹_›) (not_lt.mp ‹_›)
      split
      · exact .inl ⟨rfl, hd.le⟩
      · exact .inr ⟨rfl, hd.ge⟩

section

variable [IsStrictOrderedRing K]

/-- `round` is never further than one half away. -/
theorem roundHalfEven_near (v : K) : (roundHalfEven v : K) - v ≤ 1 / 2 ∧ v - (roundHalfEven v : K) ≤ 1 / 2 := by
  have h1 := Int.floor_le v
  have h2 := Int.lt_floor_add_one v
  rcases roundHalfEven_cases v with ⟨h, hd⟩ | ⟨h, hd⟩ <;> rw [h] <;> push_cast <;> constructor <;> linarith

/-- `round` stays inside integer bounds. -/
theorem roundHalfEven_bounds {v : K} {lo hi : Int} (h0 : (lo : K) ≤ v) (h1 : v ≤ hi) :
    lo ≤ roundHalfEven v ∧ roundHalfEven v ≤ hi := by
  obtain ⟨a, b⟩ := roundHalfEven_near v
  constructor
  · by_contra h
    have : (roundHalfEven v : K) + 1 ≤ lo := by exact_mod_cast (by omega : roundHalfEven v + 1 ≤ lo)
    linarith
  · by_contra h
    have : (hi : K) + 1 ≤ roundHalfEven v := by exact_mod_cast (by omega : hi + 1 ≤ roundHalfEven v)
    linarith

end

/-! ### The maximum of samples -/

theorem max2_exact (a b : K) : max2 (exactNum pi sin cos) a b = max a b := by
  simp only [max2, exactNum_lt, decide_eq_true_eq]
  split
  · exact (max_eq_right (le_of_lt ‹_›)).symm
  · exact (max_eq_left (not_lt.mp ‹_›)).symm

theorem foldl_max2_mem (l : List K) : ∀ a, l.foldl (max2 (exactNum pi sin cos)) a = a ∨
    l.foldl (max2 (exactNum pi sin cos)) a ∈ l := by
  induction l with
  | nil => intro a; exact .inl rfl
  | cons v vs ih =>
    intro a
    rcases ih (max2 (exactNum pi sin cos) a v) with h | h
    · rw [List.foldl_cons, h, max2_exact]
      rcases max_choice a v with h' | h'
      · exact .inl h'
      · exact .inr (by rw [h']; simp)
    · exact .inr (by rw [List.foldl_cons]; exact List.mem_cons_of_mem _ h)

theorem le_foldl_max2 (l : List K) : ∀ a, a ≤ l.foldl (max2 (exactNum pi sin cos)) a ∧
    ∀ v ∈ l, v ≤ l.foldl (max2 (exactNum pi sin cos)) a := by
  induction l with
  | nil => intro a; exact ⟨le_refl a, by simp⟩
  | cons v vs ih =>
    intro a
    obtain ⟨h1, h2⟩ := ih (max2 (exactNum pi sin cos) a v)
    rw [max2_exact] at h1 h2
    rw [List.foldl_cons, max2_exact]
    refine ⟨le_trans (le_max_left a v) h1, ?_⟩
    intro w hw
    rcases List.mem_cons.mp hw with rfl | hw
    · exact le_trans (le_max_right a w) h1
    · exact h2 w hw

/-- The maximum of some samples is one of them. -/
theorem maxNum_mem {l : List K} (h : l ≠ []) : maxNum (exactNum pi sin cos) l ∈ l := by
  cases l with
  | nil => exact absurd rfl h
  | cons v vs =>
    rcases foldl_max2_mem vs v with h' | h'
    · rw [maxNum, h']; simp
    · exact List.mem_cons_of_mem _ h'

/-- No sample is above the maximum. -/
theorem le_maxNum {l : List K} {v : K} (h : v ∈ l) : v ≤ maxNum (exactNum pi sin cos) l := by
  cases l with
  | nil => cases h
  | cons w ws =>
    obtain ⟨h1, h2⟩ := le_foldl_max2 (pi := pi) (sin := sin) (cos := cos) ws w
    rcases List.mem_cons.mp h with rfl | h
    · exact h1
    · exact h2 v h

/-! ### The laws required of every number domain -/

/-- Every exact domain whose sine is 0 at 0 obeys the laws of 00_scope.md R15. -/
theorem exactNum_lawful [IsStrictOrderedRing K] (h : sin 0 = 0) : (exactNum pi sin cos).Lawful where
  sin_zero := h
  zero_add v _ := by simp
  zero_mul v _ := by simp
  mul_zero v _ := by simp
  mul_one v _ := by simp
  div_self v _ h := by simpa using div_self (by simpa using h)
  zero_div v _ _ := by simp
  isZero_iff v _ := by simp
  lt_irrefl v _ := by simp
  lt_trans u v w _ _ _ h1 h2 := by simp at *; exact lt_trans h1 h2
  lt_total v w _ _ := by simpa using lt_trichotomy v w
  le_iff v w _ _ := by simpa using le_iff_lt_or_eq

end

/-- The plain-data domain obeys the laws. -/
theorem toNum_lawful (F : Numerics) : F.toNum.Lawful := exactNum_lawful (sin_zero F)

end Sys2Proof.Machine
end

