-- ==== Sys2Proof/Laws/Chirp.lean ====
section
/-!
SUPPORT. The samples of a chirp: its phases, its window, and what the normaliser answers.
-/
namespace Sys2Proof.Machine

variable {α : Type}

/-- As many phases as samples. -/
@[simp] theorem phases_length (N : NUM α) (inc) : ∀ n i p, (phases N inc n i p).length = n := by
  intro n; induction n with
  | zero => intros; rfl
  | succ n ih => intro i p; simp [phases, ih]

/-- As many sines as samples. -/
@[simp] theorem chirpSines_length (N : NUM α) (isUp d fc bw fe) : (chirpSines N isUp d fc bw fe).length = d := by
  simp [chirpSines]

/-- As many windowed samples as the chirp has. -/
@[simp] theorem windowed_length (N : NUM α) (H isUp d fc bw fe) : (windowed N H isUp d fc bw fe).length = d := by
  simp [windowed]

/-- A windowed sample is the product of its sine and its window (43_chirp_synthesizer.md R178). -/
theorem windowed_get (N : NUM α) (H isUp d fc bw fe) (k : Nat) (x : α)
    (h : (chirpSines N isUp d fc bw fe)[k]? = some x) :
    (windowed N H isUp d fc bw fe)[k]? = some (N.mul x (tukey N H d k)) := by
  obtain ⟨hk, rfl⟩ := List.getElem?_eq_some_iff.mp h
  rw [chirpSines_length] at hk
  simp [windowed, hk]

/-- Everything the synthesizer can answer (43_chirp_synthesizer.md R179). -/
theorem synthesize_cases {N : NUM α} {H absolute isUp d fc bw fe l}
    (h : synthesize N H absolute isUp d fc bw fe = some l) :
    let y := windowed N H isUp d fc bw fe
    N.isZero (chirpDivisor N absolute y) = false ∧ l = y.map (fun v => N.div v (chirpDivisor N absolute y)) := by
  simp only [synthesize] at h
  split at h
  · cases h
  · cases h; exact ⟨Bool.eq_false_iff.mpr ‹_›, rfl⟩

/-- The synthesizer answers where its divisor is not 0. -/
theorem synthesize_some {N : NUM α} {H absolute isUp d fc bw fe}
    (h : N.isZero (chirpDivisor N absolute (windowed N H isUp d fc bw fe)) = false) :
    synthesize N H absolute isUp d fc bw fe = some ((windowed N H isUp d fc bw fe).map
      (fun v => N.div v (chirpDivisor N absolute (windowed N H isUp d fc bw fe)))) := by
  simp [synthesize, h]

/-- The synthesizer answers nothing where its divisor is 0 (43_chirp_synthesizer.md R180). -/
theorem synthesize_none {N : NUM α} {H absolute isUp d fc bw fe}
    (h : N.isZero (chirpDivisor N absolute (windowed N H isUp d fc bw fe)) = true) :
    synthesize N H absolute isUp d fc bw fe = none := by
  simp [synthesize, h]

/-- As many samples as the chirp has. -/
theorem synthesize_length {N : NUM α} {H absolute isUp d fc bw fe l}
    (h : synthesize N H absolute isUp d fc bw fe = some l) : l.length = d := by
  rw [(synthesize_cases h).2]; simp

/-- The formula of the Hann window (43_chirp_synthesizer.md R177). -/
theorem symmetricHann_of_two_le {N : NUM α} {di k : Nat} (h : 2 ≤ di) :
    symmetricHann N di k =
      N.sub N.half (N.mul N.half (N.cos (N.div (N.mul (N.mul N.two N.pi) (N.ofNat k)) (N.ofNat (di - 1))))) := by
  rw [symmetricHann, if_neg (by omega)]

/-! ### Over exact numbers -/

section

variable {K : Type} [Field K] [LinearOrder K] [FloorRing K] {pi : K} {sin cos : K → K}

/-- No sample is above the divisor. -/
theorem le_chirpDivisor {absolute : Bool} {y : List K} {v : K} (h : v ∈ y) :
    v ≤ chirpDivisor (exactNum pi sin cos) absolute y := by
  cases absolute with
  | false => exact le_maxNum h
  | true =>
    exact le_trans (le_abs_self v) (le_maxNum (pi := pi) (sin := sin) (cos := cos) (List.mem_map_of_mem (f := fun v => |v|) h))

variable [IsStrictOrderedRing K]

/-- One half of a length, rounded up. -/
theorem ceil_half (d : Nat) : ⌈(d : K) * (1 / 2)⌉ = (((d + 1) / 2 : Nat) : Int) := by
  rw [Int.ceil_eq_iff]
  rcases Nat.even_or_odd' d with ⟨k, rfl | rfl⟩
  · have : (2 * k + 1) / 2 = k := by omega
    rw [this]; push_cast; constructor <;> linarith
  · have : (2 * k + 1 + 1) / 2 = k + 1 := by omega
    rw [this]; push_cast; constructor <;> linarith

/-- `di` in integers (43_chirp_synthesizer.md R176). -/
theorem hannLength_exact (d : Nat) : hannLength (exactNum pi sin cos) d = (d + 1) / 2 := by
  simp only [hannLength, exactNum_mul, exactNum_ofNat, exactNum_half, exactNum_ceil, ceil_half]
  rfl

/-- `h` in integers (43_chirp_synthesizer.md R176). -/
theorem edgeLength_exact (d : Nat) : edgeLength (exactNum pi sin cos) d = (hannLength (exactNum pi sin cos) d + 1) / 2 := by
  have h : ∀ n : Nat, (n : K) / 2 = (n : K) * (1 / 2) := fun n => by ring
  simp only [edgeLength, exactNum_div, exactNum_ofNat, exactNum_two, exactNum_ceil, h, ceil_half]
  rfl

end

end Sys2Proof.Machine
end

