-- ==== Sys2Proof/Laws/Mapper.lean ====
section
/-!
SUPPORT. What the digit loop of `MAP` answers, and the message it reads.
-/
namespace Sys2Proof.Machine

/-- On digits the loop answers four bits per digit, each from its table. -/
theorem mapDigits_ok (lutA lutB lo bound) : ∀ (cs : List Char8) (i : Nat) (d : Nat → BitVec 4), (∀ k c, cs[k]? =
    some c → hexval lo c = some (d (i+k))) →
   ∃ bs, mapDigits lutA lutB lo bound i cs = .ok bs ∧ bs.length = 4 * cs.length ∧ ∀ k j, k < cs.length → j < 4 →
       bs[4*k+j]? = some ((if i + k < bound then lutA (d (i+k)) else lutB (d (i+k))).getLsbD (3-j)) := by
  intro cs; induction cs with
  | nil => intro i d h; exact ⟨[], rfl, rfl, by intro k j hk; simp at hk⟩
  | cons c cs ih =>
    intro i d h
    have h0 := h 0 c rfl
    obtain ⟨bs, e, hl, hb⟩ := ih (i+1) d
        (by intro k c' hc; have := h (k+1) c' (by simpa using hc); rw [this]; congr 2; omega)
    refine ⟨patternBits (if i < bound then lutA (d i) else lutB (d i)) ++ bs, ?_, ?_, ?_⟩
    · simp only [Nat.add_zero] at h0
      simp only [mapDigits, h0, e]
    · simp [patternBits, hl]; omega
    · intro k j hk hj
      cases k with
      | zero =>
        simp only [Nat.mul_zero, Nat.zero_add, Nat.add_zero]
        rw [List.getElem?_append_left (by simp [patternBits]; omega)]
        have : j = 0 ∨ j = 1 ∨ j = 2 ∨ j = 3 := by omega
        rcases this with rfl|rfl|rfl|rfl <;> rfl
      | succ k =>
        rw [List.getElem?_append_right (by simp [patternBits]; omega)]
        have e1 : 4 * (k+1) + j - (patternBits (if i < bound then lutA (d i) else lutB (d i))).length = 4 * k + j := by
            simp [patternBits]; omega
        rw [e1, hb k j (by simpa using hk) hj]
        rw [show i + 1 + k = i + (k+1) by omega]

/-- The loop answers the index of the first character that is no digit. -/
theorem mapDigits_err (lutA lutB lo bound) : ∀ (cs : List Char8) (i n : Nat) (c), cs[n]? = some c → hexval lo c =
    none → (∀ k c', k < n → cs[k]? = some c' → (hexval lo c').isSome = true) →
   mapDigits lutA lutB lo bound i cs = .error (i+n) := by
  intro cs; induction cs with
  | nil => intro i n c h; simp at h
  | cons a cs ih =>
    intro i n c h hn hk
    cases n with
    | zero => simp at h; subst h; simp [mapDigits, hn]
    | succ n =>
      have ha := hk 0 a (by omega) rfl
      obtain ⟨d, hd⟩ := Option.isSome_iff_exists.mp ha
      have := ih (i+1) n c
          (by simpa using h) hn (by intro k c' hk' hc; exact hk (k+1) c' (by omega) (by simpa using hc))
      simp only [mapDigits, hd, this]
      congr 1; omega

/-- The loop answers four bits per character. -/
theorem mapDigits_length (lutA lutB lo bound) : ∀ (cs : List Char8) (i : Nat) bs, mapDigits lutA lutB lo bound i cs =
    .ok bs → bs.length = 4 * cs.length := by
  intro cs; induction cs with
  | nil => intro i bs h; cases h; rfl
  | cons c cs ih =>
    intro i bs h
    unfold mapDigits at h
    split at h
    · cases h
    · split at h
      · cases h
      · rename_i e
        cases h
        simp [patternBits, ih _ _ e]; omega

/-- A character of the message. -/
theorem msgList_get {α : Type} (b : Block α) (P : Params α) (n k : Nat) (h : k < n) :
    (b.msgList P n)[k]? = some (b.msgAt P k) := by
  simp [Block.msgList, h]

/-- The length of the message. -/
@[simp] theorem msgList_length {α : Type} (b : Block α) (P : Params α) (n : Nat) : (b.msgList P n).length = n := by
  simp [Block.msgList]

/-- `a` to `f` are no digits where `HEX_LOWER_OK` is false (41_symbol_mapper.md R123). -/
theorem hexval_false_of_isLowerHex {c : Char8} (h : isLowerHex c = true) : hexval false c = none := by
  simp only [isLowerHex, decide_eq_true_eq] at h
  simp only [hexval]
  rw [if_neg (by omega), if_neg (by omega), if_neg (by simp)]

/-- On every other character `HEX_LOWER_OK` has no say. -/
theorem hexval_of_not_isLowerHex {c : Char8} (lo : Bool) (h : isLowerHex c = false) : hexval lo c = hexval false c := by
  simp only [isLowerHex, decide_eq_false_iff_not] at h
  simp only [hexval]
  rw [if_neg (c := lo = true ∧ _) (fun h' => h h'.2), if_neg (c := false = true ∧ _) (fun h' => h h'.2)]

/-- When a message has no meaning to `MAP`. -/
theorem caseUnfixed_iff (o : Option Bool) (l : List Char8) :
    caseUnfixed o l = true ↔ o = none ∧ ∃ c ∈ l, isLowerHex c = true := by
  simp [caseUnfixed]

end Sys2Proof.Machine
end

