-- ==== Sys2Proof/Laws/Prologue.lean ====
section
/-!
SUPPORT. What the prologue of 40_control.md R100 and the sequencing of `RUN` can do, said once, and each command of the
machine as the command under its parameters.
-/
namespace Sys2Proof.Machine

variable {α : Type} {i : Instr} {body : Block α → BlockResult α} {b : Block α}

theorem prologue_halted (h : b.err ≠ 0) : prologue i body b = .next b := if_pos h

theorem prologue_missing (h : b.err = 0) (hm : missingFlags i b ≠ 0) :
    prologue i body b = .next (raise .sequenceError ((missingFlags i b).setWidth 32) (raiseClears i) b) := by
  rw [prologue, if_neg (not_not.mpr h), if_pos hm, raiseFor]

theorem prologue_ready (h : b.err = 0) (hm : missingFlags i b = 0) : prologue i body b = body b := by
  rw [prologue, if_neg (not_not.mpr h), if_neg (not_not.mpr hm)]

/-- Everything the prologue can do: ignore, raise `SequenceError`, or execute the command's own rule. -/
theorem prologue_cases (i : Instr) (body : Block α → BlockResult α) (b : Block α) :
    (b.err ≠ 0 ∧ prologue i body b = .next b) ∨
    (b.err = 0 ∧ missingFlags i b ≠ 0 ∧
      prologue i body b = .next (raise .sequenceError ((missingFlags i b).setWidth 32) (raiseClears i) b)) ∨
    (b.err = 0 ∧ missingFlags i b = 0 ∧ prologue i body b = body b) := by
  by_cases h : b.err = 0
  · by_cases hm : missingFlags i b = 0
    · exact .inr (.inr ⟨h, hm, prologue_ready h hm⟩)
    · exact .inr (.inl ⟨h, hm, prologue_missing h hm⟩)
  · exact .inl ⟨h, prologue_halted h⟩

@[simp] theorem andThen_next (b : Block α) (f : Block α → BlockResult α) : andThen (.next b) f = f b := rfl

/-- A chain that answers a next state ran through one. -/
theorem andThen_eq_next {o : BlockResult α} {f : Block α → BlockResult α} {t : Block α} (h : andThen o f = .next t) :
    ∃ b, o = .next b ∧ f b = .next t := by
  cases o with
  | next b => exact ⟨b, rfl, h⟩
  | fault r => cases h
  | refused r => cases h

/-- Every command of the machine is the command under the machine's parameters. -/
theorem exec_eq (i : Instr) (s : State) : exec i s = onBlock (commandUnder Config.params i) s := by cases i <;> rfl

/-- The three chirps as one command with an operand. -/
theorem commandUnder_chirp (P : Params α) (sel : ChirpSel) (b : Block α) :
    commandUnder P sel.instr b = chirpCommand P sel b := by
  cases sel <;> rfl

/-- A raise that clears no flag changes `ERR` and `ERRINFO` alone. -/
theorem raise_no_flags (e : BlockError) (n : U32) (b : Block α) :
    raise e n 0 b = { b with err := e.code, errInfo := n } := by
  have h : clearMask 0 b.status = b.status := by
    exact BitVec.and_allOnes
  cases b
  simp_all [raise, Block.forgetBuffers, Block.clearFlags, anyFlag]

/-- Every error has a code other than 0 (60_exceptions.md R250). -/
theorem code_ne_zero (e : BlockError) : e.code ≠ 0 := by cases e <;> decide

end Sys2Proof.Machine
end

