-- ==== Sys2Proof/Laws/Renderer.lean ====
section
/-!
SUPPORT. The range of the quantizer over exact numbers, and what the checks of `REND` passed say.
-/
namespace Sys2Proof.Machine

variable {α : Type}

/-- `toI16` in range. -/
theorem toI16_some {n : Int} (h1 : -32768 ≤ n) (h2 : n ≤ 32767) : toI16 n = some (BitVec.ofInt 16 n) := if_pos ⟨h1, h2⟩

/-- The value of a sample. -/
theorem toInt_ofInt_sample {n : Int} (h1 : -32768 ≤ n) (h2 : n ≤ 32767) : (BitVec.ofInt 16 n).toInt = n := by
  rw [BitVec.toInt_ofInt]; apply Int.bmod_eq_of_le <;> omega

/-- A signal whose samples are in range is quantized sample by sample. -/
theorem quantizeAll_some {N : NUM α} {volume peak : α} : ∀ (l : List α),
    (∀ x ∈ l, -32768 ≤ quantized N volume peak x ∧ quantized N volume peak x ≤ 32767) →
    quantizeAll N volume peak l = some (l.map (fun x => BitVec.ofInt 16 (quantized N volume peak x))) := by
  intro l; induction l with
  | nil => intro _; rfl
  | cons x l ih =>
    intro h
    have := h x (by simp)
    rw [quantizeAll, toI16_some this.1 this.2, ih (fun y hy => h y (List.mem_cons_of_mem _ hy))]
    rfl

/-- As many samples as asked for. -/
@[simp] theorem asmList_length (b : Block α) (P : Params α) (n : Nat) : (b.asmList P n).length = n := by
  simp [Block.asmList]

/-- What is known where every check of `REND` passes (45_renderer_quantizer.md R221, R222, R225). -/
theorem rendFails_none {P : Params α} {b : Block α} {asm : List α} (h : rendFails P b asm = none) :
    1 ≤ b.repeatCount.toInt ∧ P.num.le P.num.zero b.volume = true ∧ P.num.le b.volume P.num.one = true ∧
    P.num.le P.num.zero b.interval = true ∧
    totalLength b.repeatCount.toNat asm.length (gapSamples P.num b.interval b.fs.toNat) ≤ P.outmax ∧
    P.num.isZero (peakOf P.num asm) = false := by
  simp only [rendFails] at h
  split_ifs at h
  simp_all

/-! ### Over exact numbers -/

section

variable {K : Type} [Field K] [LinearOrder K] [FloorRing K] {pi : K} {sin cos : K → K}

/-- No sample is above the peak in magnitude. -/
theorem abs_le_peakOf {l : List K} {x : K} (h : x ∈ l) : |x| ≤ peakOf (exactNum pi sin cos) l :=
  le_maxNum (List.mem_map_of_mem (f := fun v => |v|) h)

variable [IsStrictOrderedRing K]

/-- A peak is never negative. -/
theorem peakOf_nonneg (l : List K) : 0 ≤ peakOf (exactNum pi sin cos) l := by
  unfold peakOf
  cases l with
  | nil => exact le_refl _
  | cons a l => exact le_trans (abs_nonneg a) (le_maxNum (v := |a|) (by simp))

/-- A quantized sample is in range (45_renderer_quantizer.md R228). -/
theorem quantized_range {volume peak x : K} (h0 : 0 ≤ volume) (h1 : volume ≤ 1) (hp : 0 < peak) (hx : |x| ≤ peak) :
    -32767 ≤ quantized (exactNum pi sin cos) volume peak x ∧
    quantized (exactNum pi sin cos) volume peak x ≤ 32767 := by
  have : |x * volume / peak| ≤ 1 := by
    rw [abs_div, abs_mul, abs_of_nonneg h0, abs_of_pos hp, div_le_one hp]
    nlinarith [abs_nonneg x]
  rw [abs_le] at this
  apply roundHalfEven_bounds <;> simp <;> linarith

end

end Sys2Proof.Machine
end

