-- ==== Sys2Proof/Laws/State.lean ====
section
/-!
SUPPORT. What each update of the block does to each field, one lemma per field per update, so that no proof unfolds a
record update, and what a step of the machine makes of a block's outcome.
-/
namespace Sys2Proof.Machine

variable {α : Type}

/-! ### Clearing flags -/

@[simp] theorem clearFlags_status (b : Block α) (f : Flags) : (b.clearFlags f).status = clearMask f b.status := rfl
@[simp] theorem clearFlags_err (b : Block α) (f : Flags) : (b.clearFlags f).err = b.err := rfl
@[simp] theorem clearFlags_errInfo (b : Block α) (f : Flags) : (b.clearFlags f).errInfo = b.errInfo := rfl
@[simp] theorem clearFlags_mode (b : Block α) (f : Flags) : (b.clearFlags f).mode = b.mode := rfl
@[simp] theorem clearFlags_fc (b : Block α) (f : Flags) : (b.clearFlags f).fc = b.fc := rfl
@[simp] theorem clearFlags_bw (b : Block α) (f : Flags) : (b.clearFlags f).bw = b.bw := rfl
@[simp] theorem clearFlags_tsym (b : Block α) (f : Flags) : (b.clearFlags f).tsym = b.tsym := rfl
@[simp] theorem clearFlags_fs (b : Block α) (f : Flags) : (b.clearFlags f).fs = b.fs := rfl
@[simp] theorem clearFlags_ovsamp (b : Block α) (f : Flags) : (b.clearFlags f).ovsamp = b.ovsamp := rfl
@[simp] theorem clearFlags_interval (b : Block α) (f : Flags) : (b.clearFlags f).interval = b.interval := rfl
@[simp] theorem clearFlags_repeatCount (b : Block α) (f : Flags) : (b.clearFlags f).repeatCount = b.repeatCount := rfl
@[simp] theorem clearFlags_volume (b : Block α) (f : Flags) : (b.clearFlags f).volume = b.volume := rfl
@[simp] theorem clearFlags_msgLen (b : Block α) (f : Flags) : (b.clearFlags f).msgLen = b.msgLen := rfl
@[simp] theorem clearFlags_bitLen (b : Block α) (f : Flags) : (b.clearFlags f).bitLen = b.bitLen := rfl
@[simp] theorem clearFlags_codedLen (b : Block α) (f : Flags) : (b.clearFlags f).codedLen = b.codedLen := rfl
@[simp] theorem clearFlags_parCnt (b : Block α) (f : Flags) : (b.clearFlags f).parCnt = b.parCnt := rfl
@[simp] theorem clearFlags_asmLen (b : Block α) (f : Flags) : (b.clearFlags f).asmLen = b.asmLen := rfl
@[simp] theorem clearFlags_gap (b : Block α) (f : Flags) : (b.clearFlags f).gap = b.gap := rfl
@[simp] theorem clearFlags_outLen (b : Block α) (f : Flags) : (b.clearFlags f).outLen = b.outLen := rfl
@[simp] theorem clearFlags_msg (b : Block α) (f : Flags) : (b.clearFlags f).msg = b.msg := rfl
@[simp] theorem clearFlags_bits (b : Block α) (f : Flags) : (b.clearFlags f).bits = b.bits := rfl
@[simp] theorem clearFlags_coded (b : Block α) (f : Flags) : (b.clearFlags f).coded = b.coded := rfl
@[simp] theorem clearFlags_sync (b : Block α) (f : Flags) : (b.clearFlags f).sync = b.sync := rfl
@[simp] theorem clearFlags_up (b : Block α) (f : Flags) : (b.clearFlags f).up = b.up := rfl
@[simp] theorem clearFlags_down (b : Block α) (f : Flags) : (b.clearFlags f).down = b.down := rfl
@[simp] theorem clearFlags_asm (b : Block α) (f : Flags) : (b.clearFlags f).asm = b.asm := rfl
@[simp] theorem clearFlags_out (b : Block α) (f : Flags) : (b.clearFlags f).out = b.out := rfl

/-! ### Completion of a command -/

@[simp] theorem completed_status (b : Block α) (i : Instr) :
    (b.completed i).status = completedStatus i b.status := rfl
@[simp] theorem completed_err (b : Block α) (i : Instr) : (b.completed i).err = b.err := rfl
@[simp] theorem completed_errInfo (b : Block α) (i : Instr) : (b.completed i).errInfo = b.errInfo := rfl
@[simp] theorem completed_mode (b : Block α) (i : Instr) : (b.completed i).mode = b.mode := rfl
@[simp] theorem completed_fc (b : Block α) (i : Instr) : (b.completed i).fc = b.fc := rfl
@[simp] theorem completed_bw (b : Block α) (i : Instr) : (b.completed i).bw = b.bw := rfl
@[simp] theorem completed_tsym (b : Block α) (i : Instr) : (b.completed i).tsym = b.tsym := rfl
@[simp] theorem completed_fs (b : Block α) (i : Instr) : (b.completed i).fs = b.fs := rfl
@[simp] theorem completed_ovsamp (b : Block α) (i : Instr) : (b.completed i).ovsamp = b.ovsamp := rfl
@[simp] theorem completed_interval (b : Block α) (i : Instr) : (b.completed i).interval = b.interval := rfl
@[simp] theorem completed_repeatCount (b : Block α) (i : Instr) : (b.completed i).repeatCount = b.repeatCount := rfl
@[simp] theorem completed_volume (b : Block α) (i : Instr) : (b.completed i).volume = b.volume := rfl
@[simp] theorem completed_msgLen (b : Block α) (i : Instr) : (b.completed i).msgLen = b.msgLen := rfl
@[simp] theorem completed_bitLen (b : Block α) (i : Instr) : (b.completed i).bitLen = b.bitLen := rfl
@[simp] theorem completed_codedLen (b : Block α) (i : Instr) : (b.completed i).codedLen = b.codedLen := rfl
@[simp] theorem completed_parCnt (b : Block α) (i : Instr) : (b.completed i).parCnt = b.parCnt := rfl
@[simp] theorem completed_asmLen (b : Block α) (i : Instr) : (b.completed i).asmLen = b.asmLen := rfl
@[simp] theorem completed_gap (b : Block α) (i : Instr) : (b.completed i).gap = b.gap := rfl
@[simp] theorem completed_outLen (b : Block α) (i : Instr) : (b.completed i).outLen = b.outLen := rfl
@[simp] theorem completed_msg (b : Block α) (i : Instr) : (b.completed i).msg = b.msg := rfl
@[simp] theorem completed_bits (b : Block α) (i : Instr) : (b.completed i).bits = b.bits := rfl
@[simp] theorem completed_coded (b : Block α) (i : Instr) : (b.completed i).coded = b.coded := rfl
@[simp] theorem completed_sync (b : Block α) (i : Instr) : (b.completed i).sync = b.sync := rfl
@[simp] theorem completed_up (b : Block α) (i : Instr) : (b.completed i).up = b.up := rfl
@[simp] theorem completed_down (b : Block α) (i : Instr) : (b.completed i).down = b.down := rfl
@[simp] theorem completed_asm (b : Block α) (i : Instr) : (b.completed i).asm = b.asm := rfl
@[simp] theorem completed_out (b : Block α) (i : Instr) : (b.completed i).out = b.out := rfl

/-! ### Raising an error -/

@[simp] theorem raise_status (e : BlockError) (n : U32) (f : Flags) (b : Block α) :
    (raise e n f b).status = clearMask f b.status := rfl
@[simp] theorem raise_err (e : BlockError) (n : U32) (f : Flags) (b : Block α) : (raise e n f b).err = e.code := rfl
@[simp] theorem raise_errInfo (e : BlockError) (n : U32) (f : Flags) (b : Block α) :
    (raise e n f b).errInfo = n := rfl
@[simp] theorem raise_mode (e : BlockError) (n : U32) (f : Flags) (b : Block α) : (raise e n f b).mode = b.mode := rfl
@[simp] theorem raise_fc (e : BlockError) (n : U32) (f : Flags) (b : Block α) : (raise e n f b).fc = b.fc := rfl
@[simp] theorem raise_bw (e : BlockError) (n : U32) (f : Flags) (b : Block α) : (raise e n f b).bw = b.bw := rfl
@[simp] theorem raise_tsym (e : BlockError) (n : U32) (f : Flags) (b : Block α) : (raise e n f b).tsym = b.tsym := rfl
@[simp] theorem raise_fs (e : BlockError) (n : U32) (f : Flags) (b : Block α) : (raise e n f b).fs = b.fs := rfl
@[simp] theorem raise_ovsamp (e : BlockError) (n : U32) (f : Flags) (b : Block α) :
    (raise e n f b).ovsamp = b.ovsamp := rfl
@[simp] theorem raise_interval (e : BlockError) (n : U32) (f : Flags) (b : Block α) :
    (raise e n f b).interval = b.interval := rfl
@[simp] theorem raise_repeatCount (e : BlockError) (n : U32) (f : Flags) (b : Block α) :
    (raise e n f b).repeatCount = b.repeatCount := rfl
@[simp] theorem raise_volume (e : BlockError) (n : U32) (f : Flags) (b : Block α) :
    (raise e n f b).volume = b.volume := rfl
@[simp] theorem raise_msgLen (e : BlockError) (n : U32) (f : Flags) (b : Block α) :
    (raise e n f b).msgLen = b.msgLen := rfl
@[simp] theorem raise_bitLen (e : BlockError) (n : U32) (f : Flags) (b : Block α) :
    (raise e n f b).bitLen = b.bitLen := rfl
@[simp] theorem raise_codedLen (e : BlockError) (n : U32) (f : Flags) (b : Block α) :
    (raise e n f b).codedLen = b.codedLen := rfl
@[simp] theorem raise_parCnt (e : BlockError) (n : U32) (f : Flags) (b : Block α) :
    (raise e n f b).parCnt = b.parCnt := rfl
@[simp] theorem raise_asmLen (e : BlockError) (n : U32) (f : Flags) (b : Block α) :
    (raise e n f b).asmLen = b.asmLen := rfl
@[simp] theorem raise_gap (e : BlockError) (n : U32) (f : Flags) (b : Block α) : (raise e n f b).gap = b.gap := rfl
@[simp] theorem raise_outLen (e : BlockError) (n : U32) (f : Flags) (b : Block α) :
    (raise e n f b).outLen = b.outLen := rfl
@[simp] theorem raise_msg (e : BlockError) (n : U32) (f : Flags) (b : Block α) : (raise e n f b).msg = b.msg := rfl
@[simp] theorem raise_bits (e : BlockError) (n : U32) (f : Flags) (b : Block α) :
    (raise e n f b).bits = if anyFlag f vBits then b.bits.forget else b.bits := rfl
@[simp] theorem raise_coded (e : BlockError) (n : U32) (f : Flags) (b : Block α) :
    (raise e n f b).coded = if anyFlag f vCoded then [] else b.coded := rfl
@[simp] theorem raise_sync (e : BlockError) (n : U32) (f : Flags) (b : Block α) :
    (raise e n f b).sync = if anyFlag f vSync then [] else b.sync := rfl
@[simp] theorem raise_up (e : BlockError) (n : U32) (f : Flags) (b : Block α) :
    (raise e n f b).up = if anyFlag f vUp then [] else b.up := rfl
@[simp] theorem raise_down (e : BlockError) (n : U32) (f : Flags) (b : Block α) :
    (raise e n f b).down = if anyFlag f vDown then [] else b.down := rfl
@[simp] theorem raise_asm (e : BlockError) (n : U32) (f : Flags) (b : Block α) :
    (raise e n f b).asm = if anyFlag f vAsm then [] else b.asm := rfl
@[simp] theorem raise_out (e : BlockError) (n : U32) (f : Flags) (b : Block α) :
    (raise e n f b).out = if anyFlag f vOut then [] else b.out := rfl

/-! ### Clearing an error -/

@[simp] theorem clearError_status (b : Block α) : (clearError b).status = b.status := rfl
@[simp] theorem clearError_err (b : Block α) : (clearError b).err = 0 := rfl
@[simp] theorem clearError_errInfo (b : Block α) : (clearError b).errInfo = 0 := rfl
@[simp] theorem clearError_mode (b : Block α) : (clearError b).mode = b.mode := rfl
@[simp] theorem clearError_fc (b : Block α) : (clearError b).fc = b.fc := rfl
@[simp] theorem clearError_bw (b : Block α) : (clearError b).bw = b.bw := rfl
@[simp] theorem clearError_tsym (b : Block α) : (clearError b).tsym = b.tsym := rfl
@[simp] theorem clearError_fs (b : Block α) : (clearError b).fs = b.fs := rfl
@[simp] theorem clearError_ovsamp (b : Block α) : (clearError b).ovsamp = b.ovsamp := rfl
@[simp] theorem clearError_interval (b : Block α) : (clearError b).interval = b.interval := rfl
@[simp] theorem clearError_repeatCount (b : Block α) : (clearError b).repeatCount = b.repeatCount := rfl
@[simp] theorem clearError_volume (b : Block α) : (clearError b).volume = b.volume := rfl
@[simp] theorem clearError_msgLen (b : Block α) : (clearError b).msgLen = b.msgLen := rfl
@[simp] theorem clearError_bitLen (b : Block α) : (clearError b).bitLen = b.bitLen := rfl
@[simp] theorem clearError_codedLen (b : Block α) : (clearError b).codedLen = b.codedLen := rfl
@[simp] theorem clearError_parCnt (b : Block α) : (clearError b).parCnt = b.parCnt := rfl
@[simp] theorem clearError_asmLen (b : Block α) : (clearError b).asmLen = b.asmLen := rfl
@[simp] theorem clearError_gap (b : Block α) : (clearError b).gap = b.gap := rfl
@[simp] theorem clearError_outLen (b : Block α) : (clearError b).outLen = b.outLen := rfl
@[simp] theorem clearError_msg (b : Block α) : (clearError b).msg = b.msg := rfl
@[simp] theorem clearError_bits (b : Block α) : (clearError b).bits = b.bits := rfl
@[simp] theorem clearError_coded (b : Block α) : (clearError b).coded = b.coded := rfl
@[simp] theorem clearError_sync (b : Block α) : (clearError b).sync = b.sync := rfl
@[simp] theorem clearError_up (b : Block α) : (clearError b).up = b.up := rfl
@[simp] theorem clearError_down (b : Block α) : (clearError b).down = b.down := rfl
@[simp] theorem clearError_asm (b : Block α) : (clearError b).asm = b.asm := rfl
@[simp] theorem clearError_out (b : Block α) : (clearError b).out = b.out := rfl

/-! ### Storing a chirp -/

@[simp] theorem storeChirp_status (b : Block α) (sel : ChirpSel) (l : List α) :
    (b.storeChirp sel l).status = b.status := by
  cases sel <;> rfl
@[simp] theorem storeChirp_err (b : Block α) (sel : ChirpSel) (l : List α) :
    (b.storeChirp sel l).err = b.err := by
  cases sel <;> rfl
@[simp] theorem storeChirp_errInfo (b : Block α) (sel : ChirpSel) (l : List α) :
    (b.storeChirp sel l).errInfo = b.errInfo := by
  cases sel <;> rfl
@[simp] theorem storeChirp_mode (b : Block α) (sel : ChirpSel) (l : List α) :
    (b.storeChirp sel l).mode = b.mode := by
  cases sel <;> rfl
@[simp] theorem storeChirp_fc (b : Block α) (sel : ChirpSel) (l : List α) :
    (b.storeChirp sel l).fc = b.fc := by
  cases sel <;> rfl
@[simp] theorem storeChirp_bw (b : Block α) (sel : ChirpSel) (l : List α) :
    (b.storeChirp sel l).bw = b.bw := by
  cases sel <;> rfl
@[simp] theorem storeChirp_tsym (b : Block α) (sel : ChirpSel) (l : List α) :
    (b.storeChirp sel l).tsym = b.tsym := by
  cases sel <;> rfl
@[simp] theorem storeChirp_fs (b : Block α) (sel : ChirpSel) (l : List α) :
    (b.storeChirp sel l).fs = b.fs := by
  cases sel <;> rfl
@[simp] theorem storeChirp_ovsamp (b : Block α) (sel : ChirpSel) (l : List α) :
    (b.storeChirp sel l).ovsamp = b.ovsamp := by
  cases sel <;> rfl
@[simp] theorem storeChirp_interval (b : Block α) (sel : ChirpSel) (l : List α) :
    (b.storeChirp sel l).interval = b.interval := by
  cases sel <;> rfl
@[simp] theorem storeChirp_repeatCount (b : Block α) (sel : ChirpSel) (l : List α) :
    (b.storeChirp sel l).repeatCount = b.repeatCount := by
  cases sel <;> rfl
@[simp] theorem storeChirp_volume (b : Block α) (sel : ChirpSel) (l : List α) :
    (b.storeChirp sel l).volume = b.volume := by
  cases sel <;> rfl
@[simp] theorem storeChirp_msgLen (b : Block α) (sel : ChirpSel) (l : List α) :
    (b.storeChirp sel l).msgLen = b.msgLen := by
  cases sel <;> rfl
@[simp] theorem storeChirp_bitLen (b : Block α) (sel : ChirpSel) (l : List α) :
    (b.storeChirp sel l).bitLen = b.bitLen := by
  cases sel <;> rfl
@[simp] theorem storeChirp_codedLen (b : Block α) (sel : ChirpSel) (l : List α) :
    (b.storeChirp sel l).codedLen = b.codedLen := by
  cases sel <;> rfl
@[simp] theorem storeChirp_parCnt (b : Block α) (sel : ChirpSel) (l : List α) :
    (b.storeChirp sel l).parCnt = b.parCnt := by
  cases sel <;> rfl
@[simp] theorem storeChirp_asmLen (b : Block α) (sel : ChirpSel) (l : List α) :
    (b.storeChirp sel l).asmLen = b.asmLen := by
  cases sel <;> rfl
@[simp] theorem storeChirp_gap (b : Block α) (sel : ChirpSel) (l : List α) :
    (b.storeChirp sel l).gap = b.gap := by
  cases sel <;> rfl
@[simp] theorem storeChirp_outLen (b : Block α) (sel : ChirpSel) (l : List α) :
    (b.storeChirp sel l).outLen = b.outLen := by
  cases sel <;> rfl
@[simp] theorem storeChirp_msg (b : Block α) (sel : ChirpSel) (l : List α) :
    (b.storeChirp sel l).msg = b.msg := by
  cases sel <;> rfl
@[simp] theorem storeChirp_bits (b : Block α) (sel : ChirpSel) (l : List α) :
    (b.storeChirp sel l).bits = b.bits := by
  cases sel <;> rfl
@[simp] theorem storeChirp_coded (b : Block α) (sel : ChirpSel) (l : List α) :
    (b.storeChirp sel l).coded = b.coded := by
  cases sel <;> rfl
@[simp] theorem storeChirp_asm (b : Block α) (sel : ChirpSel) (l : List α) :
    (b.storeChirp sel l).asm = b.asm := by
  cases sel <;> rfl
@[simp] theorem storeChirp_out (b : Block α) (sel : ChirpSel) (l : List α) :
    (b.storeChirp sel l).out = b.out := by
  cases sel <;> rfl

/-! ### A step of the machine -/

@[simp] theorem takeMove_toBlock (s : State) (r : List (HostMove NumVal)) (c : Bool) :
    (s.takeMove r c).toBlock = s.toBlock := rfl
@[simp] theorem takeMove_pending (s : State) (r : List (HostMove NumVal)) (c : Bool) : (s.takeMove r c).pending = r := rfl
@[simp] theorem takeMove_rdata (s : State) (r : List (HostMove NumVal)) (c : Bool) :
    (s.takeMove r c).rdata = s.rdata := rfl
@[simp] theorem takeMove_epoch (s : State) (r : List (HostMove NumVal)) (c : Bool) :
    (s.takeMove r c).epoch = if c then s.epoch + 1 else s.epoch := rfl

/-- A block's next state is the machine's. -/
theorem onBlock_next {f : Block NumVal → BlockResult NumVal} {s : State} {b : Block NumVal}
    (h : f s.toBlock = .next b) : onBlock f s = .next { s with toBlock := b } := by
  rw [onBlock, h]

/-- A block's refusal is the machine's. -/
theorem onBlock_refused {f : Block NumVal → BlockResult NumVal} {s : State} {r : Refusal}
    (h : f s.toBlock = .refused r) : onBlock f s = .refused r := by
  rw [onBlock, h]

/-- Everything a next state of the machine can be where only the block acts. -/
theorem onBlock_eq_next {f : Block NumVal → BlockResult NumVal} {s t : State} (h : onBlock f s = .next t) :
    ∃ b, f s.toBlock = .next b ∧ t = { s with toBlock := b } := by
  unfold onBlock at h
  split at h
  · cases h; exact ⟨_, ‹_›, rfl⟩
  · cases h
  · cases h

/-! ### Length registers -/

/-- A length that fits its register. -/
theorem lengthReg_toNat (P : Params α) {n : Nat} (h : n < 2 ^ 32) : (lengthReg P n).toNat = n := by
  rw [lengthReg, if_pos h, BitVec.toNat_ofNat, Nat.mod_eq_of_lt h]

/-- A length that fits is stored by its pattern. -/
theorem lengthReg_of_lt (P : Params α) {n : Nat} (h : n < 2 ^ 32) : lengthReg P n = BitVec.ofNat 32 n := if_pos h

/-- Whatever the length, what its register holds is at most a bound on the length. -/
theorem lengthReg_le (P : Params α) {n m : Nat} (h : n ≤ m) : (lengthReg P n).toNat ≤ m := by
  by_cases hn : n < 2 ^ 32
  · rwa [lengthReg_toNat P hn]
  · have := (lengthReg P n).isLt
    omega

end Sys2Proof.Machine
end

