-- ==== Sys2Proof/Laws/Exec.lean ====
section
/-!
SUPPORT. Everything a command, a host write and a step can do, said once; the provers cite these and do not unfold.
-/
namespace Sys2Proof.Machine

variable {α : Type}

/-! ### A command under any parameters -/

/-- What is known where every check of `INIT` passes (40_control.md R102). -/
theorem initFails_none {P : Params α} {b : Block α} (h : initFails P b = none) :
    b.mode = 0 ∧ P.num.lt P.num.zero b.fc = true ∧ P.num.lt P.num.zero b.bw = true ∧ 1 ≤ b.tsym.toNat ∧
    b.tsym.toNat ≤ P.tmax ∧ 1 ≤ b.fs.toNat ∧ b.ovsamp.toNat < b.tsym.toNat := by
  unfold initFails at h
  split_ifs at h
  simp_all; omega

/-- A produced buffer read at its own length. -/
theorem elemsOr_of_length {free : Nat → α} {n : Nat} {l : List α} (h : l.length = n) : elemsOr free n l = l := by
  subst h; exact elemsOr_full _ _

/-- A command that may execute does what its own rule says. -/
theorem commandUnder_own (P : Params α) (i : Instr) (b : Block α) (h : b.err = 0 ∨ i = .clrErr)
    (hm : missingFlags i b = 0) : commandUnder P i b = ownRule P i b := by
  rcases h with h | h
  · cases i <;> first | exact prologue_ready h hm | rfl
  · subst h; rfl

/-- While an error is recorded a command other than `CLRERR` changes nothing. -/
theorem commandUnder_halted (P : Params α) (i : Instr) (b : Block α) (h : b.err ≠ 0) (hi : i ≠ .clrErr) :
    commandUnder P i b = .next b := by
  cases i <;> first | exact prologue_halted h | exact absurd rfl hi

/-- Everything a command can do (40_control.md R100). -/
theorem commandUnder_cases (P : Params α) (i : Instr) (b : Block α) :
    (b.err ≠ 0 ∧ i ≠ .clrErr ∧ commandUnder P i b = .next b) ∨
    (b.err = 0 ∧ i ≠ .clrErr ∧ missingFlags i b ≠ 0 ∧ commandUnder P i b =
      .next (raise .sequenceError ((missingFlags i b).setWidth 32) (raiseClears i) b)) ∨
    ((b.err = 0 ∨ i = .clrErr) ∧ missingFlags i b = 0 ∧ commandUnder P i b = ownRule P i b) := by
  by_cases hi : i = .clrErr
  · subst hi; right; right; refine ⟨.inr rfl, ?_, rfl⟩; simp [missingFlags, needFlags]
  · by_cases he : b.err = 0
    · by_cases hm : missingFlags i b = 0
      · right; right; exact ⟨.inl he, hm, commandUnder_own P i b (.inl he) hm⟩
      · right; left; refine ⟨he, hi, hm, ?_⟩
        cases i <;> first | exact prologue_missing he hm | exact absurd rfl hi
    · left; exact ⟨he, hi, commandUnder_halted P i b he hi⟩

/-- Everything `MAP`'s own rule can do (41_symbol_mapper.md R123 to R125). -/
theorem mapBody_cases (P : Params α) (b : Block α) :
    ((b.msgLen.toNat < 1 ∨ P.nmax < b.msgLen.toNat) ∧ mapBody P b =
      raiseFor .map .invalidMessage (0x80000000#32 ||| (b.msgLen &&& 0x7FFFFFFF#32)) b) ∨
    (mapRefuses P b ∧ mapBody P b = .refused .lowerCaseUnfixed) ∨
    (1 ≤ b.msgLen.toNat ∧ b.msgLen.toNat ≤ P.nmax ∧ ¬ mapRefuses P b ∧
      ((∃ k, b.mapped P = .error k ∧ mapBody P b = raiseFor .map .invalidMessage (BitVec.ofNat 32 k) b) ∨
      ∃ bs, b.mapped P = .ok bs ∧ bs.length = 4 * b.msgLen.toNat ∧ mapBody P b =
        .next ({ b with bits := b.bits.writeAll bs, bitLen := lengthReg P (4 * b.msgLen.toNat) }.completed .map))) := by
  unfold mapBody
  split
  · exact .inl ⟨‹_›, rfl⟩
  · have h : 1 ≤ b.msgLen.toNat ∧ b.msgLen.toNat ≤ P.nmax := by omega
    right
    split
    · exact .inl ⟨⟨h.1, h.2, ‹_›⟩, rfl⟩
    · refine .inr ⟨h.1, h.2, fun hr => ‹¬_› hr.2.2, ?_⟩
      cases hm : b.mapped P with
      | error k => exact .inl ⟨k, rfl, rfl⟩
      | ok bs =>
        refine .inr ⟨bs, rfl, ?_, rfl⟩
        have := mapDigits_length _ _ _ _ _ _ _ hm
        simpa using this

/-- `RUN` through the commands it issues (40_control.md R106). -/
theorem runBody_eq (P : Params α) (b : Block α) : runBody P b = andThen (andThen (andThen (andThen (andThen (andThen
    (andThen (commandUnder P .init b) (commandUnder P .map)) (commandUnder P .fec)) (commandUnder P .chirpSync))
    (commandUnder P .chirpUp)) (commandUnder P .chirpDown)) (commandUnder P .asm)) (commandUnder P .rend) := rfl

/-- What every command but `RUN` keeps, `RUN` keeps. -/
theorem commandUnder_keeps {P : Params α} (Q : Block α → Prop)
    (hQ : ∀ i b t, i ≠ .run → Q b → commandUnder P i b = .next t → Q t) (i : Instr) (b t : Block α) (h : Q b)
    (he : commandUnder P i b = .next t) : Q t := by
  by_cases hi : i = .run
  · subst hi
    change prologue .run (runBody P) b = .next t at he
    rcases prologue_cases .run (runBody P) b with ⟨_, e⟩ | ⟨_, hm, e⟩ | ⟨_, _, e⟩
    · rw [e] at he; cases he; exact h
    · exact absurd (by simp [missingFlags, needFlags]) hm
    · rw [e, runBody_eq] at he
      obtain ⟨s7, he, h8⟩ := andThen_eq_next he
      obtain ⟨s6, he, h7⟩ := andThen_eq_next he
      obtain ⟨s5, he, h6⟩ := andThen_eq_next he
      obtain ⟨s4, he, h5⟩ := andThen_eq_next he
      obtain ⟨s3, he, h4⟩ := andThen_eq_next he
      obtain ⟨s2, he, h3⟩ := andThen_eq_next he
      obtain ⟨s1, he, h2⟩ := andThen_eq_next he
      have p1 := hQ _ _ _ (by decide) h he
      have p2 := hQ _ _ _ (by decide) p1 h2
      have p3 := hQ _ _ _ (by decide) p2 h3
      have p4 := hQ _ _ _ (by decide) p3 h4
      have p5 := hQ _ _ _ (by decide) p4 h5
      have p6 := hQ _ _ _ (by decide) p5 h6
      have p7 := hQ _ _ _ (by decide) p6 h7
      exact hQ _ _ _ (by decide) p7 h8
  · exact hQ i b t hi h he

/-! ### A command of the machine -/

/-- A command that may execute does what its own rule says. -/
theorem exec_own (i : Instr) (s : State) (h : s.err = 0 ∨ i = .clrErr) (hm : missingFlags i s.toBlock = 0) :
    exec i s = onBlock (ownRule Config.params i) s := by
  rw [exec_eq, onBlock, onBlock, commandUnder_own Config.params i s.toBlock h hm]

/-- While an error is recorded a command other than `CLRERR` changes nothing. -/
theorem exec_halted (i : Instr) (s : State) (h : s.err ≠ 0) (hi : i ≠ .clrErr) : exec i s = .next s := by
  rw [exec_eq]; exact onBlock_next (commandUnder_halted Config.params i s.toBlock h hi)

/-- A next state of a command of the machine, through the block. -/
theorem exec_eq_next {i : Instr} {s t : State} (h : exec i s = .next t) :
    ∃ b, commandUnder Config.params i s.toBlock = .next b ∧ t = { s with toBlock := b } :=
  onBlock_eq_next (by rwa [exec_eq] at h)

/-! ### Host writes -/

/-- What a host value taken as an integer leads to. -/
theorem withInt_next {σ : Type} {N : NUM α} {v : HostVal α} {f : Int → Host.Outcome σ Fault Refusal} {t : σ}
    (h : withInt N v f = .next t) : ∃ x, v.toInt N = some x ∧ f x = .next t := by
  unfold withInt at h; split at h
  · exact ⟨_, ‹_›, h⟩
  · cases h

/-- What a host value taken as a `Num` leads to. -/
theorem withNum_next {σ : Type} {N : NUM α} {v : HostVal α} {f : α → Host.Outcome σ Fault Refusal} {t : σ}
    (h : withNum N v f = .next t) : N.finite (v.toNum N) = true ∧ f (v.toNum N) = .next t := by
  unfold withNum at h; split at h
  · exact ⟨‹_›, h⟩
  · cases h

/-- Everything a write of a register other than `CMD` can do (10_state.md R34). -/
theorem storeReg_cases {P : Params α} {n : Nat} {v : HostVal α} {b t : Block α} (h : storeReg P n v b = .next t) :
    t = b ∨
    (∃ x y z u o w, t = ({ b with mode := x, fc := y, bw := z, tsym := u, fs := o, ovsamp := w } :
      Block α).clearFlags paramWriteClears) ∨
    (∃ x y z, t = ({ b with interval := x, repeatCount := y, volume := z } : Block α).clearFlags renderWriteClears) ∨
    (∃ x, t = ({ b with msgLen := x } : Block α).clearFlags messageWriteClears) ∨ ∃ x, t = writeBitLen P x b := by
  unfold storeReg at h
  split at h
  · obtain ⟨x, hx, h⟩ := withInt_next h; cases h
    exact .inr (.inl ⟨_, b.fc, b.bw, b.tsym, b.fs, b.ovsamp, rfl⟩)
  · obtain ⟨hx, h⟩ := withNum_next h; cases h
    exact .inr (.inl ⟨b.mode, _, b.bw, b.tsym, b.fs, b.ovsamp, rfl⟩)
  · obtain ⟨hx, h⟩ := withNum_next h; cases h
    exact .inr (.inl ⟨b.mode, b.fc, _, b.tsym, b.fs, b.ovsamp, rfl⟩)
  · obtain ⟨x, hx, h⟩ := withInt_next h; cases h
    exact .inr (.inl ⟨b.mode, b.fc, b.bw, _, b.fs, b.ovsamp, rfl⟩)
  · obtain ⟨x, hx, h⟩ := withInt_next h; cases h
    exact .inr (.inl ⟨b.mode, b.fc, b.bw, b.tsym, _, b.ovsamp, rfl⟩)
  · obtain ⟨x, hx, h⟩ := withInt_next h; cases h
    exact .inr (.inl ⟨b.mode, b.fc, b.bw, b.tsym, b.fs, _, rfl⟩)
  · obtain ⟨hx, h⟩ := withNum_next h; cases h
    exact .inr (.inr (.inl ⟨_, b.repeatCount, b.volume, rfl⟩))
  · obtain ⟨x, hx, h⟩ := withInt_next h; cases h
    exact .inr (.inr (.inl ⟨b.interval, _, b.volume, rfl⟩))
  · obtain ⟨hx, h⟩ := withNum_next h; cases h
    exact .inr (.inr (.inl ⟨b.interval, b.repeatCount, _, rfl⟩))
  · obtain ⟨x, hx, h⟩ := withInt_next h; cases h
    exact .inr (.inr (.inr (.inl ⟨_, rfl⟩)))
  · obtain ⟨x, hx, h⟩ := withInt_next h; cases h
    exact .inr (.inr (.inr (.inr ⟨_, rfl⟩)))
  all_goals (cases h; exact .inl rfl)

/-- Everything a buffer write can do (20_memory.md R65). -/
theorem storeMem_cases {P : Params α} {sp k : Nat} {v : HostVal α} {b t : Block α} (h : storeMem P sp k v b = .next t) :
    t = b ∨ (∃ x, k < P.nmax ∧ t = ({ b with msg := b.msg.write k x } : Block α).clearFlags messageWriteClears) ∨
    (∃ x, k < P.mmax ∧ t = ({ b with bits := b.bits.write k x } : Block α).clearFlags messageWriteClears) := by
  unfold storeMem at h
  split at h
  · obtain ⟨x, hx, h⟩ := withInt_next h
    split at h
    · cases h; exact .inr (.inl ⟨_, ‹_›, rfl⟩)
    · cases h; exact .inl rfl
  · obtain ⟨x, hx, h⟩ := withInt_next h
    split at h
    · cases h; exact .inr (.inr ⟨_, ‹_›, rfl⟩)
    · cases h; exact .inl rfl
  all_goals (cases h; exact .inl rfl)

/-- Everything a register write of the machine can do (20_memory.md R66). -/
theorem regWrite_cases {n : Nat} {v : HostVal NumVal} {s t : State} (h : regWrite n v s = .next t) :
    (n = 0 ∧ ∃ x, v.toInt Config.num = some x ∧ issue (BitVec.ofInt 16 x) s = .next t) ∨
    (n ≠ 0 ∧ ∃ b, storeReg Config.params n v s.toBlock = .next b ∧ t = { s with toBlock := b }) := by
  unfold regWrite at h
  split at h
  · rename_i hn; obtain ⟨x, hx, h⟩ := withInt_next h
    refine .inl ⟨?_, x, hx, h⟩
    unfold RegName.ofNumber at hn; split at hn <;> first | rfl | cases hn
  · rename_i hn
    exact .inr ⟨by rintro rfl; exact hn rfl, onBlock_eq_next h⟩

/-- Everything an issued word can do (40_control.md R100). -/
theorem issue_cases {w : CmdWord} {s t : State} (h : issue w s = .next t) : (∃ i, exec i s = .next t) ∨ t = s ∨
    t = { s with err := 7, errInfo := w.setWidth 32 } := by
  unfold issue at h
  split at h
  · exact .inl ⟨_, h⟩
  · obtain ⟨b, hb, rfl⟩ := onBlock_eq_next h
    unfold illegalWord at hb
    split at hb
    · cases hb; exact .inr (.inl rfl)
    · cases hb; right; right; rw [raise_no_flags]; rfl

/-- A step with a move is that move. -/
theorem step_of_pending {s : State} {m rest} (h : s.pending = m :: rest) : step s = perform m (s.takeMove rest
    (isChange m)) := by
  show advance s = _; unfold advance; rw [h]

end Sys2Proof.Machine
end

