-- ==== Sys2Proof/Laws/Fec.lean ====
section
/-!
SUPPORT. The lengths of the encoder's sequences, what each parity step changes, and how XOR over a list moves.
-/
namespace Sys2Proof.Machine

/-- XOR of a list with a first bit. -/
theorem xorAll_cons (a : Bool) (l) : xorAll (a :: l) = (a ^^ xorAll l) := rfl

/-- XOR of two lists. -/
theorem xorAll_append (a b : List Bool) : xorAll (a ++ b) = (xorAll a ^^ xorAll b) := by
  induction a with
  | nil => simp [xorAll]
  | cons x a ih => rw [List.cons_append, xorAll_cons, xorAll_cons, ih, Bool.xor_assoc]

/-- Bits left out of an XOR are zeros in it. -/
theorem xorAll_map_if {α} (l : List α) (p : α → Bool) (f : α → Bool) : xorAll (l.map
    (fun t => if p t then f t else false)) = xorAll ((l.filter p).map f) := by
  induction l with
  | nil => rfl
  | cons a l ih =>
    simp only [xorAll, List.map_cons, List.foldr_cons] at *
    rw [ih]
    by_cases h : p a
    · simp [h]
    · simp [h]

/-- Two XORs that differ at one place. -/
theorem xorAll_flip {α} [DecidableEq α] (f g : α → Bool) (a : α) : ∀ (l : List α), l.Nodup → a ∈ l → (∀ x ∈ l, x ≠ a →
    f x = g x) →
    (xorAll (l.map f)) = ((f a ^^ g a) ^^ xorAll (l.map g)) := by
  intro l; induction l with
  | nil => intro _ h; cases h
  | cons x l ih =>
    intro hn hm he
    rw [List.map_cons, List.map_cons, xorAll_cons, xorAll_cons]
    by_cases hx : x = a
    · subst hx
      have : l.map f = l.map g := List.map_congr_left (fun y hy => he y (List.mem_cons_of_mem _ hy)
          (by rintro rfl; exact (List.nodup_cons.mp hn).1 hy))
      rw [this]; cases f x <;> cases g x <;> cases xorAll (l.map g) <;> rfl
    · rw [ih (List.nodup_cons.mp hn).2
          (by
          rcases List.mem_cons.mp hm with h | h; exact absurd h.symm hx; exact h) (fun y hy hne => he y
          (List.mem_cons_of_mem _ hy) hne)]
      rw [he x (by simp) hx]
      cases f a <;> cases g a <;> cases g x <;> cases xorAll (l.map g) <;> rfl

/-- One bit taken out of an XOR. -/
theorem xorAll_filter_ne {α} [DecidableEq α] (g : α → Bool) (a : α) (l : List α) (hn : l.Nodup) (hm : a ∈ l) :
   xorAll (l.map g) = (g a ^^ xorAll ((l.filter (fun t => t ≠ a)).map g)) := by
  rw [← xorAll_map_if]
  rw [xorAll_flip g (fun t => if decide (t ≠ a) = true then g t else false) a l hn hm (by intro x _ hx; simp [hx])]
  simp

/-- A position is covered where its bit is 1 (42_fec_encoder.md R143). -/
theorem and_two_pow_eq_iff (j i : Nat) : j &&& 2 ^ i = 2 ^ i ↔ j.testBit i = true := by
  rw [Nat.and_two_pow]
  cases h : j.testBit i
  · simp; exact (pow_pos (by omega : 0 < 2) i).ne
  · simp

/-- The coverage XOR over the covered positions alone. -/
theorem coverageXor_eq (res : List Bool) (i : Nat) : coverageXor res i = xorAll (((List.range res.length).filter
    (fun t => (t + 1) &&& 2 ^ i = 2 ^ i)).map (fun t => res.getD t false)) := by
  rw [← xorAll_map_if, coverageXor]; simp

/-- The walk fills every position. -/
@[simp] theorem insertBits_length : ∀ n p d, (insertBits n p d).length = n := by
  intro n; induction n with
  | zero => intros; rfl
  | succ n ih => intro p d; unfold insertBits; split <;> simp [ih]

/-- A parity changes no length. -/
@[simp] theorem setParity_length (res i) : (setParity res i).length = res.length := by simp [setParity]

/-- Parities change no length. -/
theorem foldl_setParity_length (l : List Nat) : ∀ res, (l.foldl setParity res).length = res.length := by
  induction l with
  | nil => intro; rfl
  | cons a l ih => intro res; simp [ih]

/-- Parities change no length. -/
@[simp] theorem setParities_length (r res) : (setParities r res).length = res.length := by
    simp [setParities, foldl_setParity_length]

/-- The length of the Hamming part. -/
@[simp] theorem hammingBits_length (data) : (hammingBits data).length = data.length + rmin data.length := by
  simp [hammingBits, setParities, foldl_setParity_length]

/-- The CodedSequence is the Hamming part and the two chunk parities. -/
theorem fecEncode_eq (data) : fecEncode data = hammingBits data ++ [strideXor (hammingBits data) 4] ++ [strideXor
    (hammingBits data ++ [strideXor (hammingBits data) 4]) 8] := rfl

/-- The length of the CodedSequence (42_fec_encoder.md R146). -/
@[simp] theorem fecEncode_length (data) : (fecEncode data).length = data.length + rmin data.length + 2 := by
  simp [fecEncode_eq]

/-- The Hamming part stands first. -/
theorem fecEncode_getD {data : List Bool} {t : Nat} (h : t < data.length + rmin data.length) :
    (fecEncode data).getD t false = (hammingBits data).getD t false := by
  rw [fecEncode_eq, List.append_assoc, List.getD_append _ _ _ _ (by simpa using h)]

/-- A parity changes its own position alone. -/
theorem setParity_getD (res : List Bool) (i t : Nat) (h : t ≠ 2 ^ i - 1) : (setParity res i).getD t false =
    res.getD t false := by
  simp [setParity, List.getD, Ne.symm h]

/-- One parity more. -/
theorem setParities_succ (r res) : setParities (r+1) res = setParity (setParities r res) r := by
  simp [setParities, List.range_succ]

/-- Parities change powers of two alone. -/
theorem setParities_getD_nonpow (r : Nat) (res : List Bool) (t : Nat) (h : ∀ i, i < r → t + 1 ≠ 2 ^ i) :
    (setParities r res).getD t false = res.getD t false := by
  induction r with
  | zero => rfl
  | succ r ih =>
    rw [setParities_succ, setParity_getD, ih]
    · intro i hi; exact h i (by omega)
    · have := h r (by omega)
      have : 1 ≤ 2 ^ r := Nat.one_le_two_pow
      omega

/-- The value a parity gets. -/
theorem setParities_self (r : Nat) (res : List Bool) (i : Nat) (hi : i < r) (hl : 2 ^ i - 1 < res.length) :
   (setParities r res).getD (2 ^ i - 1) false = coverageXor (setParities i res) i := by
  induction r with
  | zero => omega
  | succ r ih =>
    rw [setParities_succ]
    by_cases h : i = r
    · subst h
      simp [setParity, List.getD, hl]
    · rw [setParity_getD _ _ _ (by
        intro hh
        have : 2 ^ i < 2 ^ r := Nat.pow_lt_pow_right (by omega) (by omega)
        have : 1 ≤ 2 ^ i := Nat.one_le_two_pow
        omega), ih (by omega)]

/-- `isPowerOfTwo` says what its name says. -/
theorem isPowerOfTwo_iff (p : Nat) (hp : 1 ≤ p) : isPowerOfTwo p = true ↔ ∃ i, p = 2 ^ i := by
  simp only [isPowerOfTwo, beq_iff_eq]
  constructor
  · intro h; exact ⟨_, h.symm⟩
  · rintro ⟨i, rfl⟩; rw [Nat.log2_two_pow]

/-- The walk leaves a placeholder 0 at a power of two. -/
theorem insertBits_getD_pow : ∀ n p d t, t < n → isPowerOfTwo (p + t) = true → (insertBits n p d).getD t false =
    false := by
  intro n; induction n with
  | zero => intros; rfl
  | succ n ih =>
    intro p d t ht hp
    unfold insertBits
    cases t with
    | zero => rw [if_pos (by simpa using hp)]; rfl
    | succ t =>
      have := fun d => ih (p+1) d t (by omega) (by rw [show p + 1 + t = p + (t+1) by omega]; exact hp)
      split <;> simpa using this _

end Sys2Proof.Machine
end

