-- ==== Sys2Proof/Laws/Flags.lean ====
section
/-!
SUPPORT. The flag masks bit by bit: what clearing, completing and needing a flag say about the flags that are 1.
-/
namespace Sys2Proof.Machine

/-- A flag inside a mask that is all 1. -/
theorem hasFlags_of_submask {st f m : Flags} (h : st &&& f = f) (hm : f &&& m = m) : hasFlags st m = true := by
  simp only [hasFlags, beq_iff_eq]
  rw [← hm, ← BitVec.and_assoc, h]

/-- No needed flag is missing where the mask is all 1. -/
theorem missingFlags_eq_zero {α : Type} {i : Instr} {s : Block α} {m : Flags} (hn : needFlags i = m) (h : s.status &&& m = m) : missingFlags i s = 0 := by
  rw [missingFlags, hn]
  apply BitVec.eq_of_getLsbD_eq; intro k hk
  have := congrArg (fun v => v.getLsbD k) h
  simp at this ⊢; intro a; simp [hk, this a]

/-- Where no needed flag is missing, the mask is all 1. -/
theorem status_of_missingFlags {α : Type} {i : Instr} {s : Block α} {m : Flags} (hn : needFlags i = m) (h : missingFlags i s = 0) : s.status &&& m = m := by
  rw [missingFlags, hn] at h
  apply BitVec.eq_of_getLsbD_eq; intro k hk
  have := congrArg (fun v => v.getLsbD k) h
  simp [hk] at this ⊢; exact this

/-- A command that may execute has each flag it needs. -/
theorem hasFlags_of_ready {α : Type} {i : Instr} {s : Block α} {m f : Flags} (hn : needFlags i = m) (h : missingFlags i s = 0) (hm : m &&& f = f) :
    hasFlags s.status f = true := hasFlags_of_submask (status_of_missingFlags hn h) hm

/-- A flag that is 1 after flags were cleared was 1 before. -/
theorem hasFlags_of_clearMask {st m v : Flags} (h : hasFlags (clearMask m st) v = true) : hasFlags st v = true := by
  simp only [hasFlags, beq_iff_eq, clearMask] at *
  apply BitVec.eq_of_getLsbD_eq; intro i hi
  have := congrArg (fun x => x.getLsbD i) h
  simp at this ⊢
  grind

/-- A flag that is 1 after flags were cleared is not among them. -/
theorem anyFlag_of_clearMask {m : Flags} {st v : Flags} (h : hasFlags (clearMask m st) v = true) : anyFlag m v =
    false := by
  simp only [hasFlags, beq_iff_eq, clearMask] at h
  have : m &&& v = 0#8 := by
    apply BitVec.eq_of_getLsbD_eq; intro i hi
    have := congrArg (fun x => x.getLsbD i) h
    simp at this ⊢
    grind
  simp [anyFlag, this]

/-- No cleared flag is 1. -/
theorem not_hasFlags_cleared {m st v : Flags} (hv : m &&& v = v) (h3 : v ≠ 0) (h : hasFlags (clearMask m st) v =
    true) : False := by
  apply h3
  simp only [hasFlags, beq_iff_eq, clearMask] at *
  apply BitVec.eq_of_getLsbD_eq; intro k hi
  have := congrArg (fun x => x.getLsbD k) h
  have h4 := congrArg (fun x => x.getLsbD k) hv
  simp [hi] at this h4 ⊢
  grind

/-- A flag that is 1 after a completion, and that the command does not set, was 1 before. -/
theorem hasFlags_of_completed {i : Instr} {st v : Flags} (hv : completionSets i &&& v = 0) (h : hasFlags
    (completedStatus i st) v = true) : hasFlags st v = true := by
  simp only [hasFlags, beq_iff_eq, completedStatus, clearMask] at *
  apply BitVec.eq_of_getLsbD_eq; intro k hi
  have := congrArg (fun x => x.getLsbD k) h
  have h2 := congrArg (fun x => x.getLsbD k) hv
  simp [hi] at this h2 ⊢
  grind

/-- A flag the completion clears is 0 after it. -/
theorem not_hasFlags_completed {i : Instr} {st v : Flags} (hv : completionClears i &&& v = v) (h2 :
    completionSets i &&& v = 0) (h3 : v ≠ 0)  : hasFlags (completedStatus i st) v = false := by
  rw [← Bool.not_eq_true]
  intro h
  apply h3
  simp only [hasFlags, beq_iff_eq, completedStatus, clearMask] at *
  apply BitVec.eq_of_getLsbD_eq; intro k hi
  have := congrArg (fun x => x.getLsbD k) h
  have h2 := congrArg (fun x => x.getLsbD k) h2
  have h4 := congrArg (fun x => x.getLsbD k) hv
  simp [hi] at this h2 h4 ⊢
  grind

end Sys2Proof.Machine
end

