-- ==== Sys2Proof/Laws/PerInstr.lean ====
section
/-!
SUPPORT. Per-instruction statements about the commands as syntax: the fields of a command's word are those its format
asks for, so that the word is legal (30_encoding.md R81, R82).
-/
namespace Sys2Proof.Laws.WordFormat

/-- The command's word has the command's opcode and operand in its two fields,
    and passes every check of its format. -/
def Statement (i : Instr) : Prop :=
  i.wellFormed = true ∧ wordOp (encode i) = opOf i ∧ wordArg (encode i) = argOf i ∧ wordWellFormed (encode i) = true ∧
  (formatOf i = .c0 → wordArg (encode i) = 0#8) ∧
  (formatOf i = .c1 → wordOp (encode i) = 4#8 ∧ (wordArg (encode i)).toNat < 3)

theorem nop : Statement .nop := by unfold Statement; decide
theorem init : Statement .init := by unfold Statement; decide
theorem map : Statement .map := by unfold Statement; decide
theorem fec : Statement .fec := by unfold Statement; decide
theorem chirpSync : Statement .chirpSync := by unfold Statement; decide
theorem chirpUp : Statement .chirpUp := by unfold Statement; decide
theorem chirpDown : Statement .chirpDown := by unfold Statement; decide
theorem asm : Statement .asm := by unfold Statement; decide
theorem rend : Statement .rend := by unfold Statement; decide
theorem run : Statement .run := by unfold Statement; decide
theorem clrErr : Statement .clrErr := by unfold Statement; decide

end Sys2Proof.Laws.WordFormat
end

