-- ==== Sys2Proof/Machine/Script.lean ====
section
/-!
DEFINITION. The host-script lines and the pseudo-instructions (30_encoding.md R86, R87), as the host moves they stand
for.
-/
namespace Sys2Proof.Machine

/-- A line of a host script (30_encoding.md R86). -/
inductive ScriptLine (α : Type) where
  | wr (r : RegName) (v : HostVal α)
  | rd (r : RegName)
  | wrb (sp : Space) (k : Nat) (v : HostVal α)
  | rdb (sp : Space) (k : Nat)
  | command (i : Instr)
  | cmdWord (w : Nat)
  deriving DecidableEq, Repr

/-- The host move of a line (30_encoding.md R86). -/
def ScriptLine.move {α : Type} : ScriptLine α → HostMove α
  | .wr r v => .regWrite r.number v
  | .rd r => .regRead r.number
  | .wrb sp k v => .memWrite sp.number k v
  | .rdb sp k => .memRead sp.number k
  | .command i => .regWrite 0 (.int ((encode i).toNat : Int))
  | .cmdWord w => .regWrite 0 (.int (w : Int))

/-- `CHIRPS` (30_encoding.md R87). -/
def scriptChirps {α : Type} : List (ScriptLine α) := [.command .chirpSync, .command .chirpUp, .command .chirpDown]

/-- Elements written one by one from index `k` on. -/
def scriptElements {α : Type} (sp : Space) : (k : Nat) → List Int → List (ScriptLine α)
  | _, [] => []
  | k, v :: vs => .wrb sp k (.int v) :: scriptElements sp (k + 1) vs

/-- `SETMSG`, of the characters' codes (30_encoding.md R87). -/
def scriptSetMsg {α : Type} (codes : List Char8) : List (ScriptLine α) :=
  scriptElements .msg 0 (codes.map (fun c => (c.toNat : Int))) ++ [.wr .msgLen (.int codes.length)]

/-- `SETBITS`: the length is written last (30_encoding.md R87). -/
def scriptSetBits {α : Type} (bits : List Bool) : List (ScriptLine α) :=
  scriptElements .bits 0 (bits.map (fun b => if b then 1 else 0)) ++ [.wr .bitLen (.int bits.length)]

/-- `EXPORT`, where the host has read `outLen` from `OUTLEN` (30_encoding.md R87). -/
def scriptExport {α : Type} (outLen : Nat) : List (ScriptLine α) :=
  [.rd .status, .rd .fs, .rd .outLen] ++ (List.range outLen).map (fun k => .rdb .out k)

end Sys2Proof.Machine
end

