-- ==== Sys2Proof/Tests/Slice0.lean ====
section
/-!
SUPPORT. The model's own tests: words written out from 30_encoding.md, worked examples of the spec, and for every
statement with hypotheses a state and operands that meet them.
-/
namespace Sys2Proof.Tests

open Sys2Proof.Machine

/-- The answer is a next state, and it passes the check. -/
def nextPasses (o : Result) (p : State → Bool) : Bool :=
  match o with
  | .next t => p t
  | .fault _ => false
  | .refused _ => false

/-- A number domain whose sine is a bound of its enclosure wherever it is not exact: a concrete plain-data one. -/
def testNum : NUM NumVal := Numerics.toNum ⟨0, fun _ => 0⟩

/-- The parameters of 95_test_vectors.md V3, with the test tables, over the domain above. `hex` and `normAbs` stand for
`HEX_LOWER_OK` and `CHIRP_NORM_ABS`. -/
def testParams (hex : Option Bool) (normAbs : Bool) : Params NumVal where
  num := testNum
  hann := symmetricHann testNum
  lutA d := d
  lutB d := 15#4 - d
  nmax := 8
  tmax := 1024
  outmax := 567680
  hexLowerOk := hex
  chirpNormAbs := normAbs
  free := Config.free

/-- Parameters may be given, and the constraints of 00_scope.md R9 hold of these. -/
theorem test_params_valid (hex : Option Bool) (normAbs : Bool) : (testParams hex normAbs).Valid :=
  ⟨toNum_lawful _, show 5 ≤ 8 by decide, le_refl 1024, le_refl 567680, show 567680 < 2 ^ 32 by decide⟩

/-- `CHIRP_NORM_ABS` has the default `false` (00_scope.md R9). -/
theorem test_normAbs_default (N : NUM NumVal) (H : Nat → Nat → NumVal) (lut : BitVec 4 → Pattern) :
    ({ num := N, hann := H, lutA := lut, lutB := lut, nmax := 5, tmax := 1024, outmax := 567680, hexLowerOk := none
       free := Config.free } : Params NumVal).chirpNormAbs = false := rfl

/-- The reference instantiation is the real numbers (00_scope.md R15). -/
theorem test_reference : NUM.reference.pi = Real.pi ∧ NUM.reference.sin = Real.sin ∧ NUM.reference.cos = Real.cos ∧
    NUM.reference.round (1 / 2) = 0 := by
  refine ⟨rfl, rfl, rfl, ?_⟩
  have h : ⌊(1 / 2 : ℝ)⌋ = 0 := by rw [Int.floor_eq_iff]; norm_num
  show roundHalfEven (1 / 2 : ℝ) = 0
  simp only [roundHalfEven, h]
  norm_num

/-! ### Words (30_encoding.md R80 to R85) -/

/-- `op` 1, `arg` 0 (R84). -/
theorem test_decode_init : decodeWord 0b0000000100000000#16 = some .init := by decide

/-- `op` 2, `arg` 0 (R84). -/
theorem test_decode_map : decodeWord 0b0000001000000000#16 = some .map := by decide

/-- `op` 3, `arg` 0 (R84). -/
theorem test_decode_fec : decodeWord 0b0000001100000000#16 = some .fec := by decide

/-- `op` 4, six zero bits, `sel` 00, 01, 10 (R82 to R84). -/
theorem test_decode_chirps :
    decodeWord 0b0000010000000000#16 = some .chirpSync ∧ decodeWord 0b0000010000000001#16 = some .chirpUp ∧
    decodeWord 0b0000010000000010#16 = some .chirpDown := by decide

/-- `op` 5, 6, `arg` 0 (R84). -/
theorem test_decode_asm_rend :
    decodeWord 0b0000010100000000#16 = some .asm ∧ decodeWord 0b0000011000000000#16 = some .rend := by decide

/-- `op` 0, 7, 8, `arg` 0 (R84). -/
theorem test_decode_control :
    decodeWord 0b0000000000000000#16 = some .nop ∧ decodeWord 0b0000011100000000#16 = some .run ∧
    decodeWord 0b0000100000000000#16 = some .clrErr := by decide

/-- Smoke: `op` 9 and `op` 255 are no opcodes (R85). -/
theorem test_illformed_op :
    opAssigned 0x0900#16 = false ∧ wordWellFormed 0x0900#16 = false ∧
    decode 0x0900#16 = .error (.unassignedOpcode 9#8) ∧ decode 0xFF00#16 = .error (.unassignedOpcode 0xFF#8) := by
  decide

/-- Smoke: a C0 word with an operand (R81, R85). -/
theorem test_illformed_arg :
    argLegal 0x0101#16 = false ∧ wordWellFormed 0x0101#16 = false ∧ decode 0x0101#16 = .error (.operandNotZero 1#8) := by
  decide

/-- Smoke: a C1 word with a bit of `arg[7:2]` set (R82, R85). -/
theorem test_illformed_high_arg :
    highArgLegal 0x0404#16 = false ∧ wordWellFormed 0x0404#16 = false ∧
    decode 0x0404#16 = .error (.noSuchChirp 4#8) := by decide

/-- Smoke: a C1 word with `sel` 3 (R83, R85). -/
theorem test_illformed_sel :
    selLegal 0x0403#16 = false ∧ wordWellFormed 0x0403#16 = false ∧ decode 0x0403#16 = .error (.noSuchChirp 3#8) := by
  decide

/-- The host's numbering of a one-word row. -/
theorem test_table_word : decodeTableWord 16 0x0402 = some .chirpDown ∧ decodeTableWord 16 0x0403 = none := by decide

/-- After reset, a placed `INIT` word is the next command, and it executes (40_control.md R102, example). -/
theorem test_placed_init :
    nextPasses (step (State.reset.withFetchWord 16 0x0100)) (fun t => t.status == 0x01#8 && t.err == 0) = true := by
  decide +kernel

/-! ### Worked examples of the spec -/

/-- 40_control.md R102, example: `FS = 0` raises with `ERR = 2`, `ERRINFO = 8`. -/
theorem test_init_fs_zero :
    nextPasses (exec .init { State.reset with fs := 0 }) (fun t => t.err == 2 && t.errInfo == 8) = true := by
  decide +kernel

/-- 40_control.md R105, example. -/
theorem test_clrErr : exec .clrErr { State.reset with err := 1, errInfo := 2 } = .next State.reset := rfl

/-- 41_symbol_mapper.md R122: `1100` is `[1,1,0,0]`, and `11` is `[0,0,1,1]`. -/
theorem test_literalBits : literalBits 1100 = [1, 1, 0, 0] ∧ literalBits 11 = [0, 0, 1, 1] := by decide

/-- 41_symbol_mapper.md R124, worked example with the test tables of 95_test_vectors.md. -/
theorem test_map_example :
    mapMessage (fun d => d) (fun d => 15#4 - d) false [0x31#8, 0x35#8, 0x39#8, 0x37#8, 0x33#8] =
      .ok ([0, 0, 0, 1, 0, 1, 0, 1, 1, 0, 0, 1, 1, 0, 0, 0, 1, 1, 0, 0].map (· == 1)) := by decide

/-- 41_symbol_mapper.md R125: the first bad digit's index. -/
theorem test_map_bad_digit :
    mapMessage (fun d => d) (fun d => d) true [0x31#8, 0x35#8, 0x47#8, 0x37#8, 0x47#8] = .error 2 := by decide

/-- Vectors M11 and M12 of 95_test_vectors.md: `1597f` where `HEX_LOWER_OK` is false and where it is true. -/
theorem test_map_lower_case :
    let msg := [0x31#8, 0x35#8, 0x39#8, 0x37#8, 0x66#8]
    mapMessage (fun d => d) (fun d => 15#4 - d) false msg = .error 4 ∧
    mapMessage (fun d => d) (fun d => 15#4 - d) true msg =
      .ok ([0, 0, 0, 1, 0, 1, 0, 1, 1, 0, 0, 1, 1, 0, 0, 0, 0, 0, 0, 0].map (· == 1)) := by decide

/-- 42_fec_encoder.md R147, worked example. -/
theorem test_fec_example :
    fecEncode [true, false, true, true] = [0, 1, 1, 0, 0, 1, 1, 0, 0].map (· == 1) := by decide

/-- 42_fec_encoder.md R150 (4): all-one data of 20 bits. -/
theorem test_fec_ones :
    fecEncode (List.replicate 20 true) =
      [0, 1, 1, 1, 1, 1, 1, 1, 1, 1, 1, 1, 1, 1, 1, 1, 1, 1, 1, 1, 1, 1, 1, 1, 1, 0, 1].map (· == 1) := by
  decide +kernel

/-- 42_fec_encoder.md R145: at `m = 19` the chunk-8 parity covers the chunk-4 one; vector F24 of 95_test_vectors.md. -/
theorem test_fec_chunk8 :
    fecEncode (true :: List.replicate 18 false) =
      [1, 1, 1, 0, 0, 0, 0, 0, 0, 0, 0, 0, 0, 0, 0, 0, 0, 0, 0, 0, 0, 0, 0, 0, 1, 0].map (· == 1) := by decide +kernel

/-- 45_renderer_quantizer.md R230 (4), 00_scope.md R17: ties go to the even integer. -/
theorem test_gap_ties :
    gapSamples testNum (625 / 2) 8 = 2 ∧ gapSamples testNum (875 / 2) 8 = 4 ∧ gapSamples testNum 500 48000 = 24000 := by
  decide +kernel

/-- 44_signal_assembler.md R203: the scenario of the document. -/
theorem test_asmLength : asmLength 1024 0 27 = 32768 ∧ asmLength 4 3 9 = 32 := by decide

/-- 44_signal_assembler.md R202: overlapping chirps are added. -/
theorem test_assemble_overlap :
    assemble testNum 2 1 [true, false] (List.replicate 8 5) [1, 2] [3, 4] = [0, 0, 5, 5, 5, 5, 5, 5, 5, 5, 1, 5, 4] := by
  decide +kernel

/-- 45_renderer_quantizer.md R227, worked example. -/
theorem test_rend_example :
    (renderSignal testNum 2 2 1 [0, 1 / 2, -1, 1 / 4]).map (fun l => l.map BitVec.toInt) =
      some [0, 16384, -32767, 8192, 0, 0, 0, 16384, -32767, 8192, 0, 0] := by decide +kernel

/-- 45_renderer_quantizer.md R230 (5), (6): `REPEAT` is checked before `VOLUME`. -/
theorem test_rend_order :
    let P := testParams none false
    rendFails P { Block.reset P with repeatCount := 0, volume := 3 / 2 } [1] = some (.invalidRepeat, 0) ∧
      rendFails P { Block.reset P with volume := 3 / 2 } [1] = some (.invalidVolume, 0) := by decide +kernel

/-- 43_chirp_synthesizer.md R173: with `FS = 8`, `FC = 3`, `BW = 4` an up-chirp of two samples is `[0, 1]` (R183 (2)),
since its one increment is a quarter turn. -/
theorem test_chirp_two : synthesize testNum (symmetricHann testNum) false true 2 3 4 8 = some [0, 1] := by decide +kernel

/-- 43_chirp_synthesizer.md R183 (1): a chirp of one sample has no amplitude. -/
theorem test_chirp_one : synthesize testNum (symmetricHann testNum) false true 1 3 4 8 = none := by decide +kernel

/-- 43_chirp_synthesizer.md R179: where every sample but the first and the last is -1, the signed maximum is 0 and the
largest absolute value is 1. -/
theorem test_norm_abs :
    synthesize testNum (symmetricHann testNum) false true 4 9 8 8 = none ∧
    synthesize testNum (symmetricHann testNum) true true 4 9 8 8 = some [0, -1, -1, 0] := by decide +kernel

/-- 10_state.md R35: `MAP` keeps `V.CFG` and the chirp flags. -/
theorem test_map_flags : completedStatus .map 0xFD#8 = 0x3B#8 := by decide

/-- 40_control.md R100: `REND` from reset raises `SequenceError` with the mask of the missing flags. -/
theorem test_rend_missing :
    nextPasses (exec .rend State.reset) (fun t => t.err == 8 && t.errInfo == 0x41#32) = true := by decide

/-- 20_memory.md R68: a read-only register keeps its value. -/
theorem test_readonly : regWrite 1 (.int 255) State.reset = .next State.reset := rfl

/-- 20_memory.md R66: `REPEAT` is read as a signed number. -/
theorem test_repeat_signed : regRead 11 { State.reset with repeatCount := 0xFFFFFFFF } = .int (-1) := by decide +kernel

/-! ### Witnesses of the statements' hypotheses -/

/-- Contents of a message. -/
def msgBuffer (m : List Char8) : Buffer Char8 := ({ gen := 0, cells := [] } : Buffer Char8).writeAll m

/-- A configured block whose message is the characters `m`. -/
def msgBlock {α : Type} (P : Params α) (m : List Char8) : Block α :=
  { Block.reset P with status := 0x01#8, msg := msgBuffer m, msgLen := BitVec.ofNat 32 m.length }

/-- The same as a state of the machine. -/
def msgState (m : List Char8) : State := { State.reset with toBlock := msgBlock Config.params m }

/-- A message of `n` times the digit 1. -/
def ones (n : Nat) : List Char8 := List.replicate n 0x31#8

theorem ones_msgAt {α : Type} (P : Params α) {n k : Nat} (h : k < n) : (msgBlock P (ones n)).msgAt P k = 0x31#8 := by
  show ((msgBuffer (ones n)).read k).getD _ = _
  rw [msgBuffer, ones, read_writeAll, List.length_replicate, if_pos h, List.getElem?_replicate_of_lt h]; rfl

theorem ones_msgLen {α : Type} (P : Params α) {n : Nat} (h : n < 2 ^ 32) : (msgBlock P (ones n)).msgLen.toNat = n := by
  show (BitVec.ofNat 32 (ones n).length).toNat = n
  rw [ones, List.length_replicate, BitVec.toNat_ofNat, Nat.mod_eq_of_lt h]

/-- A state with a recorded error and one move to make. -/
def haltedState (m : HostMove NumVal) : State := { State.reset with err := 2, errInfo := 5, pending := [m] }

/-- `OpcodeMapDecodes`: a word outside the map. -/
theorem witness_OpcodeMapDecodes : (0x0403#16 : CmdWord) ∉ [0x0000#16, 0x0100#16, 0x0200#16, 0x0300#16, 0x0400#16,
    0x0401#16, 0x0402#16, 0x0500#16, 0x0600#16, 0x0700#16, 0x0800#16] := by decide

/-- `DecodeInvertsEncode`: a word that decodes. -/
theorem witness_DecodeInvertsEncode : decodeWord 0x0402#16 = some .chirpDown := by decide

/-- The first and the last unassigned opcode, an operand of `NOP`, and the first chirp there is none of. -/
theorem witness_IllegalWordRaises :
    9 ≤ ((0x0900#16 : CmdWord).extractLsb' 8 8).toNat ∧ 9 ≤ ((0xFFFF#16 : CmdWord).extractLsb' 8 8).toNat ∧
    (((0x0001#16 : CmdWord).extractLsb' 8 8).toNat ≠ 4 ∧ ((0x0001#16 : CmdWord).extractLsb' 0 8).toNat ≠ 0) ∧
    (((0x0403#16 : CmdWord).extractLsb' 8 8).toNat = 4 ∧ 3 ≤ ((0x0403#16 : CmdWord).extractLsb' 0 8).toNat) ∧
    State.reset.err = 0 ∧ ({ State.reset with err := 8 } : State).err ≠ 0 := by decide

/-- A command that completes, and one that raises. -/
theorem witness_CommandFlagTable :
    State.reset.err = 0 ∧ nextPasses (exec .nop State.reset) (fun t => t.err == 0) = true ∧
    nextPasses (exec .rend State.reset) (fun t => t.err != 0) = true := by decide

theorem witness_StepExecutesTheIssuedCommand :
    (State.reset.withFetchWord 16 0x0100).pending = .regWrite 0 (.int 0x0100) :: [] ∧
    (HostVal.int 0x0100).toInt Config.num = some 0x0100 ∧ decodeWord (BitVec.ofInt 16 0x0100) = some .init := by decide

theorem witness_IdleStepChangesNothing : State.reset.pending = [] := rfl

/-- One word and state for each of the four ways of the prologue, and `CLRERR` while an error is recorded. -/
theorem witness_CommonPrologue :
    (({ State.reset with err := 1 } : State).err ≠ 0 ∧ (0x0100#16 : CmdWord) ≠ 0x0800#16) ∧
    (State.reset.err = 0 ∧ decodeWord 0x0403#16 = none) ∧
    (State.reset.err = 0 ∧ decodeWord 0x0600#16 = some .rend ∧ needFlags .rend &&& ~~~State.reset.status ≠ 0#8) ∧
    (State.reset.err = 0 ∧ decodeWord 0x0100#16 = some .init ∧ needFlags .init &&& ~~~State.reset.status = 0#8) ∧
    (decodeWord 0x0800#16 = some .clrErr ∧ needFlags .clrErr &&& ~~~State.reset.status = 0#8) := by decide

theorem witness_RaiseEffect :
    raiseClears .init &&& 0x02#8 = 0#8 ∧ raiseClears .init &&& 0x04#8 = 0#8 ∧ raiseClears .map &&& 0x08#8 = 0#8 ∧
    raiseClears .map &&& 0x10#8 = 0#8 ∧ raiseClears .map &&& 0x20#8 = 0#8 ∧ raiseClears .rend &&& 0x40#8 = 0#8 ∧
    raiseClears .nop &&& 0x80#8 = 0#8 := by decide

/-- A command other than `CLRERR`, and a register write, while an error is recorded. -/
theorem witness_ErrorStaysUntilCleared :
    ((haltedState (.regWrite 0 (.int 0x0700))).err ≠ 0 ∧ (HostVal.int 0x0700).toInt Config.num = some 0x0700 ∧
      BitVec.ofInt 16 0x0700 ≠ 0x0800#16 ∧ ∃ t, step (haltedState (.regWrite 0 (.int 0x0700))) = .next t) ∧
    ((haltedState (.regWrite 7 (.int 4))).err ≠ 0 ∧ ∃ t, step (haltedState (.regWrite 7 (.int 4))) = .next t) := by
  refine ⟨⟨by decide, by decide, by decide, _, rfl⟩, by decide, _, rfl⟩

theorem witness_ClrErrClearsTheError :
    State.reset.err = 0 ∧ State.reset.errInfo = 0 ∧ ({ State.reset with err := 8 } : State).err ≠ 0 ∧
    Instr.nop ≠ .clrErr := by decide

/-- The least parameters, and the largest `TSYM` that the register holds and `TMAX` allows, with the largest `OVSAMP`. -/
theorem witness_InitCompletes :
    ∀ t, t = min tmax (2 ^ 32 - 1) → ∀ s : State,
      s = { State.reset with tsym := 1, fs := 1 } ∨
      s = { State.reset with tsym := BitVec.ofNat 32 t, ovsamp := BitVec.ofNat 32 (t - 1) } →
      s.err = 0 ∧ s.mode = 0 ∧ 0 < s.fc ∧ 0 < s.bw ∧ 1 ≤ s.tsym.toNat ∧ s.tsym.toNat ≤ tmax ∧ 1 ≤ s.fs.toNat ∧
      s.ovsamp.toNat < s.tsym.toNat := by
  have h1 := le_tmax
  intro t ht
  have e1 : (BitVec.ofNat 32 t).toNat = t := by rw [BitVec.toNat_ofNat, Nat.mod_eq_of_lt (by omega)]
  have e2 : (BitVec.ofNat 32 (t - 1)).toNat = t - 1 := by rw [BitVec.toNat_ofNat, Nat.mod_eq_of_lt (by omega)]
  have f : (0 : NumVal) < State.reset.fc ∧ (0 : NumVal) < State.reset.bw := by decide +kernel
  rintro s (rfl | rfl)
  · exact ⟨rfl, rfl, f.1, f.2, le_refl 1, show 1 ≤ tmax by omega, le_refl 1, Nat.zero_lt_one⟩
  · refine ⟨rfl, rfl, f.1, f.2, ?_, ?_, show 1 ≤ 48000 by omega, ?_⟩
    · show 1 ≤ (BitVec.ofNat 32 t).toNat; omega
    · show (BitVec.ofNat 32 t).toNat ≤ tmax; omega
    · show (BitVec.ofNat 32 (t - 1)).toNat < (BitVec.ofNat 32 t).toNat; omega

/-- One value for each check of `INIT` that can fail. -/
theorem witness_InitChecksInOrder :
    let P := testParams none false
    let b := Block.reset P
    b.err = 0 ∧ initFails P { b with mode := 1 } = some .mode ∧ initFails P { b with fc := 0 } = some .fc ∧
      initFails P { b with bw := -1 } = some .bw ∧ initFails P { b with tsym := 0 } = some .tsym ∧
      initFails P { b with tsym := 1025 } = some .tsym ∧ initFails P { b with fs := 0 } = some .fs ∧
      initFails P { b with ovsamp := 1024 } = some .ovsamp ∧ initFails P b = none := by decide +kernel

/-- The boundary characters of each clause. -/
theorem witness_HexDigitValues :
    (0x30 ≤ (0x30#8).toNat ∧ (0x39#8).toNat ≤ 0x39) ∧ (0x41 ≤ (0x41#8).toNat ∧ (0x46#8).toNat ≤ 0x46) ∧
    (0x61 ≤ (0x61#8).toNat ∧ (0x66#8).toNat ≤ 0x66) ∧ ((0x2F#8).toNat < 0x30) ∧
    (0x39 < (0x3A#8).toNat ∧ (0x40#8).toNat < 0x41) ∧ (0x46 < (0x47#8).toNat ∧ (0x60#8).toNat < 0x61) ∧
    0x66 < (0x67#8).toNat := by decide

/-- The shortest message and the longest, with `HEX_LOWER_OK` not fixed and fixed, and one with a lower-case digit. -/
theorem witness_MapCompletes :
    (∀ n, n = 1 ∨ n = min nmax (2 ^ 32 - 1) →
      let s := msgState (ones n)
      s.err = 0 ∧ s.status &&& 0x01#8 = 0x01#8 ∧ 1 ≤ s.msgLen.toNat ∧ s.msgLen.toNat ≤ nmax ∧
        ∀ k, k < s.msgLen.toNat →
          hexval false (s.msgAt Config.params k) = some ((fun _ => 1#4 : Nat → BitVec 4) k)) ∧
    (Config.params.hexLowerOk = none ∧ (testParams (some true) false).hexLowerOk = some true) ∧
    (let P := testParams (some true) false
      let s := msgBlock P [0x66#8]
      s.err = 0 ∧ s.status &&& 0x01#8 = 0x01#8 ∧ 1 ≤ s.msgLen.toNat ∧ s.msgLen.toNat ≤ P.nmax ∧
        hexval true (s.msgAt P 0) = some 15#4) := by
  have h5 := five_le_nmax
  refine ⟨?_, ⟨rfl, rfl⟩, by decide⟩
  intro n hn
  have hl : (msgState (ones n)).msgLen.toNat = n := ones_msgLen Config.params (by omega)
  refine ⟨rfl, show 0x01#8 &&& 0x01#8 = 0x01#8 by decide, by rw [hl]; omega, by rw [hl]; omega, ?_⟩
  intro k hk
  rw [hl] at hk
  show hexval false ((msgBlock Config.params (ones n)).msgAt Config.params k) = _
  rw [ones_msgAt Config.params hk]; rfl

/-- A message of no characters, one too long, one with a lower-case digit where `HEX_LOWER_OK` is not fixed, and a bad
digit at the first and at the last index, with `HEX_LOWER_OK` either way and not fixed. -/
theorem witness_MapRejectsBadMessages :
    let P := testParams none false
    (∀ m ∈ [[], ones 9, [0x31#8, 0x61#8], [0x47#8], [0x31#8, 0x60#8]],
      (msgBlock P m).err = 0 ∧ (msgBlock P m).status &&& 0x01#8 = 0x01#8) ∧
    (msgBlock P []).msgLen.toNat < 1 ∧ P.nmax < (msgBlock P (ones 9)).msgLen.toNat ∧
    (P.hexLowerOk = none ∧ 1 < (msgBlock P [0x31#8, 0x61#8]).msgLen.toNat ∧
      ((msgBlock P [0x31#8, 0x61#8]).msgAt P 1).toNat = 0x61) ∧
    (hexval false ((msgBlock P [0x47#8]).msgAt P 0) = none ∧
      ¬ (0x61 ≤ ((msgBlock P [0x47#8]).msgAt P 0).toNat ∧ ((msgBlock P [0x47#8]).msgAt P 0).toNat ≤ 0x66)) ∧
    ∀ ok, (testParams (some ok) false).hexLowerOk = some ok ∧
      hexval ok ((msgBlock P [0x31#8, 0x60#8]).msgAt P 1) = none ∧
      ∀ k, k < 1 → (hexval ok ((msgBlock P [0x31#8, 0x60#8]).msgAt P k)).isSome = true := by
  refine ⟨by decide, by decide, by decide, by decide, by decide, ?_⟩
  intro ok
  refine ⟨rfl, by revert ok; decide, ?_⟩
  intro k hk
  obtain rfl : k = 0 := by omega
  revert ok; decide

/-- Two blocks with the same message and different volumes, under parameters that differ in `CHIRP_NORM_ABS`. -/
theorem witness_MapDependsOnTheMessageAlone :
    let P₁ := testParams (some true) false
    let P₂ := testParams (some true) true
    let s₁ := msgBlock P₁ [0x31#8]
    let s₂ := { msgBlock P₂ [0x31#8] with volume := 1 }
    Ready .map s₁ ∧ Ready .map s₂ ∧ s₁.msgLen = s₂.msgLen ∧
      (∀ k, k < s₁.msgLen.toNat → s₁.msgAt P₁ k = s₂.msgAt P₂ k) ∧ ∃ t, mapCommand P₁ s₁ = .next t ∧ t.err = 0 := by
  refine ⟨⟨rfl, by decide⟩, ⟨rfl, by decide⟩, rfl, ?_, _, rfl, rfl⟩
  intro k hk
  obtain rfl : k = 0 := by have : k < 1 := hk; omega
  rfl

/-- `MAP` of `1597f` on the machine, where `HEX_LOWER_OK` is not fixed (41_symbol_mapper.md R123,
93_implementation_defined.md U7). -/
theorem test_map_refuses_lower_case :
    exec .map (msgState [0x31#8, 0x35#8, 0x39#8, 0x37#8, 0x66#8]) = .refused .lowerCaseUnfixed := by
  have h5 := five_le_nmax
  rw [exec_own .map _ (.inl rfl) (by decide)]
  refine onBlock_refused ?_
  show mapBody Config.params (msgBlock Config.params [0x31#8, 0x35#8, 0x39#8, 0x37#8, 0x66#8]) = _
  rw [mapBody, if_neg, if_pos]
  · decide
  · show ¬ (5 < 1 ∨ nmax < 5); omega

/-- Where it is fixed, `MAP` of `1597f` raises or completes: vectors M11 and M12 of 95_test_vectors.md. -/
theorem test_map_lower_case_fixed :
    let m := [0x31#8, 0x35#8, 0x39#8, 0x37#8, 0x66#8]
    let err := fun ok : Bool =>
      match mapCommand (testParams (some ok) false) (msgBlock (testParams (some ok) false) m) with
      | .next t => some (t.err, t.errInfo, t.bitLen)
      | _ => none
    err false = some (1, 4, 0) ∧ err true = some (0, 0, 20) := by decide

/-- No bits, and as many as `BITS` holds. -/
theorem witness_FecLengths :
    ∀ n, n = 0 ∨ n = min Config.params.mmax (2 ^ 32 - 1) →
      let s : State := { State.reset with status := 0x03#8, bitLen := BitVec.ofNat 32 n }
      s.err = 0 ∧ s.status &&& 0x03#8 = 0x03#8 ∧ s.bitLen.toNat ≤ Config.params.mmax := by
  intro n hn
  refine ⟨rfl, by simp, ?_⟩
  show (BitVec.ofNat 32 n).toNat ≤ Config.params.mmax
  rw [BitVec.toNat_ofNat]
  exact le_trans (Nat.mod_le _ _) (by omega)

theorem witness_FecCompletes :
    ({ State.reset with status := 0x03#8 } : State).err = 0 ∧
    ({ State.reset with status := 0x03#8 } : State).status &&& 0x03#8 = 0x03#8 := ⟨rfl, rfl⟩

theorem witness_RminIsTheLeast : 0 < rmin 1 ∧ 2 ≤ rmin 1 ∧ 2 ^ (2 - 1) - (2 - 1) ≤ 1 ∧ 1 ≤ 2 ^ 2 - 2 - 1 := by decide

theorem witness_FecParitiesAreEven : 0 < rmin [true].length ∧ 1 < rmin [true].length := by decide

theorem witness_FecFlipBreaksTwoChecks :
    1 ≤ 3 ∧ 3 ≤ [true].length + rmin [true].length ∧ isPowerOfTwo 3 = false := by decide

theorem witness_PhaseClosedForm : (0 : Nat) < 1 ∧ (1023 : Nat) < 1024 := by decide

/-- The first and last places of each part of the window of 8 samples, and the window of one sample. -/
theorem witness_TukeyWindowShape :
    let h := fun d : Nat => ((d + 1) / 2 + 1) / 2
    1 ≤ 8 ∧ (0 < h 8 ∧ 1 < h 8) ∧ (h 8 ≤ 2 ∧ 2 < 8 - h 8 ∧ h 8 ≤ 5 ∧ 5 < 8 - h 8) ∧ (1 ≤ 1 ∧ 0 < h 1) := by decide

/-- What the statement asks of pi and the cosine holds of the real numbers and of every plain-data number domain. -/
theorem witness_HannWindow :
    (0 < Real.pi ∧ Real.cos 0 = 1 ∧ Real.cos (Real.pi / 2) = 0 ∧ Real.cos Real.pi = -1 ∧
      Real.cos (2 * Real.pi / 3) = -(1 / 2) ∧
      ∀ x, 0 ≤ x → x ≤ Real.pi → Real.cos (2 * Real.pi - x) = Real.cos x) ∧
    (∀ F : Numerics, 0 < F.pi ∧ F.cos 0 = 1 ∧ F.cos (F.pi / 2) = 0 ∧ F.cos F.pi = -1 ∧
      F.cos (2 * F.pi / 3) = -(1 / 2) ∧ ∀ x, 0 ≤ x → x ≤ F.pi → F.cos (2 * F.pi - x) = F.cos x) ∧
    (2 ≤ 2 ∧ 0 < 2 ∧ 1 < 2) ∧ 1 ≤ 1 := by
  refine ⟨⟨Real.pi_pos, Real.cos_zero, Real.cos_pi_div_two, Real.cos_pi, ?_, fun x _ _ => Real.cos_two_pi_sub x⟩,
    fun F => ⟨pi_pos F, cos_zero F, ?_, cos_half F, cos_third F, fun x h0 h1 => cos_reflect h0 h1⟩, by decide⟩
  · rw [show 2 * Real.pi / 3 = Real.pi - Real.pi / 3 by ring, Real.cos_pi_sub, Real.cos_pi_div_three]
  · rw [Numerics.cos, show F.pi / 2 + F.pi / 2 = F.pi by ring, sin_half]

theorem witness_TaperLengths : (2 : Nat) ≤ 2 := by decide

theorem witness_ChirpSinesFollowThePhase : (0 : Nat) < 1 ∧ testNum.sin testNum.zero = testNum.zero :=
  ⟨by decide, sin_zero _⟩

/-- A chirp of two samples, and one of four, with either divisor; and a Hann window that ends in 0. -/
theorem witness_ChirpHasUnitPeak :
    testNum = exactNum testNum.pi testNum.sin testNum.cos ∧ testNum.sin 0 = 0 ∧
    (∀ absolute, synthesize testNum (symmetricHann testNum) absolute true 2 3 4 8 = some [0, 1]) ∧
    (∀ absolute, ∃ l, synthesize testNum (symmetricHann testNum) absolute true 4 5 8 8 = some l) ∧ 3 ≤ 4 ∧
    ∀ di, 2 ≤ di → symmetricHann testNum di (di - 1) = 0 := by
  refine ⟨rfl, sin_zero _, ?_, fun a => Option.isSome_iff_exists.mp (by revert a; decide +kernel), by decide, ?_⟩
  · intro a; revert a; decide +kernel
  · intro di h
    have hd : ((di - 1 : Nat) : NumVal) ≠ 0 := by exact_mod_cast (by omega : di - 1 ≠ 0)
    rw [symmetricHann_of_two_le h]
    show 1 / 2 - 1 / 2 * Numerics.cos _ (2 * Numerics.pi _ * ((di - 1 : Nat) : NumVal) / ((di - 1 : Nat) : NumVal)) = 0
    rw [mul_div_assoc, div_self hd, mul_one, cos_turn]; norm_num

/-! The chirps below are worked out for the block's own number domain, whatever its free values: their phases are
whole quarter turns. -/

/-- The samples of a chirp before they are scaled, over a plain-data number domain. -/
def sines (F : Numerics) (isUp : Bool) (d : Nat) (fc bw : NumVal) (fe : Nat) : List NumVal :=
  windowed F.toNum (symmetricHann F.toNum) isUp d fc bw fe

/-- A phase increment over a plain-data number domain. -/
def increment (F : Numerics) (isUp : Bool) (d : Nat) (fc bw : NumVal) (fe i : Nat) : NumVal :=
  (if isUp then 1 else -1) * (2 * F.pi * bw / fe) / d * (i + 1 / 2 * (1 - d)) + 2 * F.pi * fc / fe

theorem sines_get (F : Numerics) (isUp : Bool) (d : Nat) (fc bw : NumVal) (fe k : Nat) (h : k < d) :
    (sines F isUp d fc bw fe)[k]? = some (F.sin (((List.range k).map (increment F isUp d fc bw fe)).foldl (· + ·) 0) *
      tukey F.toNum (symmetricHann F.toNum) d k) := by
  have hp : ∀ n i p k, k < n → (phases F.toNum (phaseInc F.toNum isUp d fc bw fe) n i p)[k]? =
      some (((List.range k).map (fun j => increment F isUp d fc bw fe (i + j))).foldl (· + ·) p) := by
    intro n
    induction n with
    | zero => intro i p k h; omega
    | succ n ih =>
      intro i p k h
      cases k with
      | zero => rfl
      | succ k =>
        rw [phases, List.getElem?_cons_succ, ih _ _ _ (by omega), List.range_succ_eq_map, List.map_cons, List.foldl_cons,
          List.map_map]
        have : (fun j => increment F isUp d fc bw fe (i + 1 + j)) =
            (fun j => increment F isUp d fc bw fe (i + j)) ∘ Nat.succ := by
          funext j; simp only [Function.comp]; congr 1; omega
        rw [this]; rfl
  refine windowed_get _ _ _ _ _ _ _ _ _ ?_
  rw [chirpSines, List.getElem?_map]
  have := hp d 0 0 k h
  simp only [Nat.zero_add] at this
  exact congrArg (Option.map F.sin) this

/-- A chirp with a positive sample has a divisor other than 0, whichever divisor it is. -/
theorem divisor_ne {F : Numerics} {isUp : Bool} {d fe k : Nat} {fc bw x : NumVal}
    (h : (sines F isUp d fc bw fe)[k]? = some x) (hx : 0 < x) (absolute : Bool) :
    chirpDivisor F.toNum absolute (sines F isUp d fc bw fe) ≠ 0 :=
  (lt_of_lt_of_le hx (le_chirpDivisor (List.mem_of_getElem? h))).ne'

theorem tukey_flat (F : Numerics) :
    tukey F.toNum (symmetricHann F.toNum) 2 1 = 1 ∧ tukey F.toNum (symmetricHann F.toNum) 4 1 = 1 ∧
    tukey F.toNum (symmetricHann F.toNum) 8 2 = 1 := by
  have hl : ∀ d, hannLength F.toNum d = (d + 1) / 2 := fun d => hannLength_exact (K := NumVal) d
  have he : ∀ d, edgeLength F.toNum d = ((d + 1) / 2 + 1) / 2 := fun d => by
    rw [← hl d]; exact edgeLength_exact (K := NumVal) d
  refine ⟨?_, ?_, ?_⟩ <;> simp [tukey, hl, he, symmetricHann] <;> rfl

/-- Any chirp of two samples whose increment is a quarter turn has a positive sample. -/
theorem two_quarter {F : Numerics} {isUp : Bool} {fc bw : NumVal} {fe : Nat}
    (h : increment F isUp 2 fc bw fe 0 = F.pi / 2) (absolute : Bool) :
    chirpDivisor F.toNum absolute (sines F isUp 2 fc bw fe) ≠ 0 := by
  refine divisor_ne (k := 1) (sines_get F isUp 2 fc bw fe 1 (by omega)) ?_ absolute
  simp [List.range_succ, h, sin_quarter, (tukey_flat F).1]

/-- `TSYM = 2`, `FS = 8`, `BW = 4` with `FC = 3` for `UP` and `FC = 1` for `DOWN`; `TSYM = 1`, `FS = 8`, `BW = 8`,
`FC = 5` for `SYNC`; whichever the divisor. -/
theorem witness_ChirpsComplete : ∀ (F : Numerics) (absolute : Bool),
    chirpDivisor F.toNum absolute (sines F true (4 * 1) 5 8 8) ≠ 0 ∧
    chirpDivisor F.toNum absolute (sines F true 2 3 4 8) ≠ 0 ∧
    chirpDivisor F.toNum absolute (sines F false 2 1 4 8) ≠ 0 := by
  intro F a
  refine ⟨divisor_ne (k := 1) (sines_get F true 4 5 8 8 1 (by omega)) ?_ a, two_quarter ?_ a, two_quarter ?_ a⟩
  · have e : increment F true 4 5 8 8 0 = F.pi / 2 := by simp [increment]; ring
    simp [List.range_succ, e, sin_quarter, (tukey_flat F).2.1]
  · simp [increment]; ring
  · simp [increment]; ring

/-- `TSYM = 1` for `UP` and `DOWN`, and for `SYNC` with `FS = 8`, `FC = 6`, `BW = 16`, where every phase is a whole
half turn; with either divisor. With `FC = 9`, `BW = 8` the signed maximum alone is 0. -/
theorem witness_ChirpsOfNoAmplitudeRaise :
    (∀ absolute : Bool, ∀ c ∈ [(true, 4 * 1), (true, 1), (false, 1)],
      testNum.isZero (chirpDivisor testNum absolute (windowed testNum (symmetricHann testNum) c.1 c.2 6 16 8)) = true) ∧
    testNum.isZero (chirpDivisor testNum false (windowed testNum (symmetricHann testNum) true (4 * 1) 9 8 8)) = true ∧
    (testParams none true).chirpNormAbs = true ∧ (testParams none false).chirpNormAbs = false := by decide +kernel

theorem witness_OneSampleChirpsRaise :
    let s : State := { State.reset with status := 0x01#8, tsym := 1 }
    s.err = 0 ∧ s.status &&& 0x01#8 = 0x01#8 ∧ s.tsym = 1 := ⟨rfl, rfl, rfl⟩

/-! A sound state in which every command but `REND` has completed: `FS = 12`, `FC = 2`, `BW = 4`, `TSYM = 2`. -/

/-- What is free in the machine's number domain. -/
def machineNumerics : Numerics := { piRaw := Config.piRaw, sinRaw := Config.sinRaw }

/-- The divisor of one of its chirps, whatever `CHIRP_NORM_ABS` is. -/
def soundDivisor (isUp : Bool) (d : Nat) : NumVal :=
  chirpDivisor Config.num Config.chirpNormAbs (sines machineNumerics isUp d 2 4 12)

/-- One of its chirps. -/
def soundChirp (isUp : Bool) (d : Nat) : List NumVal :=
  (sines machineNumerics isUp d 2 4 12).map (fun v => v / soundDivisor isUp d)

/-- The parameters, with a short rendering. -/
def soundParams : State :=
  { State.reset with fs := 12, fc := 2, bw := 4, tsym := 2, repeatCount := 1, interval := 0, volume := 1 }

def soundState : State :=
  { soundParams with
    status := 0x7F#8, coded := fecEncode [], codedLen := 2, parCnt := 2, sync := soundChirp true 8,
    up := soundChirp true 2, down := soundChirp false 2, asmLen := 14
    asm := assemble Config.num 2 0 (fecEncode []) (soundChirp true 8) (soundChirp true 2) (soundChirp false 2) }

theorem sound_amplitudes : soundDivisor true 8 ≠ 0 ∧ soundDivisor true 2 ≠ 0 ∧ soundDivisor false 2 ≠ 0 := by
  unfold soundDivisor
  have hn : Config.num = machineNumerics.toNum := rfl
  rw [hn]
  generalize machineNumerics = F
  generalize Config.chirpNormAbs = a
  refine ⟨divisor_ne (k := 2) (sines_get F true 8 2 4 12 2 (by omega)) ?_ a,
    divisor_ne (k := 1) (sines_get F true 2 2 4 12 1 (by omega)) ?_ a, two_quarter ?_ a⟩
  · have e : increment F true 8 2 4 12 0 + increment F true 8 2 4 12 1 = F.pi / 6 := by simp [increment]; ring
    simp [List.range_succ, e, sin_twelfth, (tukey_flat F).2.2]
  · have e : increment F true 2 2 4 12 0 = F.pi / 6 := by simp [increment]; ring
    simp [List.range_succ, e, sin_twelfth, (tukey_flat F).1]
  · simp [increment]; ring

theorem sound_chirp (isUp : Bool) (d : Nat) (h : soundDivisor isUp d ≠ 0) :
    synthesize Config.num (symmetricHann Config.num) Config.chirpNormAbs isUp d 2 4 12 = some (soundChirp isUp d) :=
  synthesize_some (decide_eq_false h)

theorem sound_lengths :
    (soundChirp true 8).length = 8 ∧ (soundChirp true 2).length = 2 ∧ (soundChirp false 2).length = 2 := by
  simp [soundChirp, sines]

theorem reset_msg_wf : State.reset.msg.wf nmax = true := by
  have := five_le_nmax
  simp [State.reset, Block.reset, Buffer.wf, risingFrom, cellsBelow]
  omega

theorem sound_wellFormed : soundState.WellFormed :=
  ⟨reset_msg_wf, rfl, Nat.zero_le _, by unfold FlagsLegal; decide, Nat.zero_le _, fun _ => rfl⟩

theorem sound_coherent : soundState.Coherent where
  cfg _ := by
    have h : 1024 ≤ Config.params.tmax := le_tmax
    have h1 : ¬ (soundState.tsym.toNat < 1 ∨ Config.params.tmax < soundState.tsym.toNat) := by
      have : soundState.tsym.toNat = 2 := rfl
      omega
    show initFails Config.params soundState.toBlock = none
    unfold initFails
    rw [if_neg (by decide), if_neg (by decide +kernel), if_neg (by decide +kernel), if_neg h1, if_neg (by decide),
      if_neg (by decide)]
  coded _ := ⟨rfl, rfl, rfl⟩
  sync _ := sound_chirp true 8 sound_amplitudes.1
  up _ := sound_chirp true 2 sound_amplitudes.2.1
  down _ := sound_chirp false 2 sound_amplitudes.2.2
  asm _ := by
    obtain ⟨l1, l2, l3⟩ := sound_lengths
    have e1 : soundState.toBlock.syncList Config.params 8 = soundChirp true 8 := elemsOr_of_length l1
    have e2 : soundState.toBlock.upList Config.params 2 = soundChirp true 2 := elemsOr_of_length l2
    have e3 : soundState.toBlock.downList Config.params 2 = soundChirp false 2 := elemsOr_of_length l3
    refine ⟨?_, rfl⟩
    show assemble Config.num 2 0 (fecEncode []) (soundChirp true 8) (soundChirp true 2) (soundChirp false 2) =
      assemble Config.num 2 0 (fecEncode []) (soundState.toBlock.syncList Config.params 8)
        (soundState.toBlock.upList Config.params 2) (soundState.toBlock.downList Config.params 2)
    rw [e1, e2, e3]
  out h := absurd h (by decide)

theorem witness_AsmLength :
    soundState.WellFormed ∧ soundState.Coherent ∧ soundState.err = 0 ∧ soundState.status &&& 0x3D#8 = 0x3D#8 ∧
    soundState.coded.length < 2 ^ 32 :=
  ⟨sound_wellFormed, sound_coherent, rfl, rfl, by decide⟩

theorem witness_AsmCompletes : soundState.err = 0 ∧ soundState.status &&& 0x3D#8 = 0x3D#8 := ⟨rfl, rfl⟩

/-- A sound state with a signal, and one in which `REND` raises another error. -/
theorem witness_DegenerateSignalUnreachable :
    (soundState.WellFormed ∧ soundState.Coherent ∧ soundState.err = 0 ∧ soundState.status &&& 0x41#8 = 0x41#8 ∧
      soundState.asm.length < 2 ^ 32) ∧
    (let s : State := { soundState with repeatCount := 0 }; s.WellFormed ∧ s.Coherent ∧
      ∃ t, exec .rend s = .next t) := by
  have c := sound_coherent
  have w := sound_wellFormed
  have hl : soundState.asm.length = 14 := by
    show (assemble _ _ _ _ _ _ _).length = 14
    simp [assemble]; decide
  refine ⟨⟨w, c, rfl, rfl, by omega⟩, ⟨w.msg, w.bits, w.bitLen, w.flags, w.errCode, w.errInfo⟩,
    ⟨c.cfg, c.coded, c.sync, c.up, c.down, c.asm, fun h => absurd h (by decide)⟩, ?_⟩
  rw [exec_own .rend _ (.inl rfl) (by decide)]
  refine ⟨_, onBlock_next (f := ownRule Config.params .rend)
    (b := raise .invalidRepeat 0 0x80#8 { soundState.toBlock with repeatCount := 0 }) ?_⟩
  show rendBody Config.params { soundState.toBlock with repeatCount := 0 } = _
  unfold rendBody
  simp only [rendFails]
  rw [if_pos (by decide)]
  rfl

/-- Two chirps with and without overlap; the first and the last sample. -/
theorem witness_AssembledSamples :
    (0 < 2 ∧ 1 < 2) ∧ (List.replicate 8 (1 : NumVal)).length = 4 * 2 ∧
    ([1, 1] : List NumVal).length = 2 ∧ 0 < asmLength 2 1 2 ∧ 12 < asmLength 2 1 2 ∧ 13 < asmLength 2 0 2 := by decide

theorem witness_AssembleWithoutOverlap :
    testNum.Lawful ∧ NUM.reference.Lawful ∧ (List.replicate 8 (1 : NumVal)).length = 4 * 2 ∧
    ([1, 1] : List NumVal).length = 2 ∧ ∀ v : NumVal, testNum.finite v = true :=
  ⟨toNum_lawful _, exactNum_lawful Real.sin_zero, by decide, by decide, fun _ => rfl⟩

/-- A state with a signal of the samples `l`. -/
def rendState (l : List NumVal) (volume interval : NumVal) (count : U32) : State :=
  { State.reset with
    status := 0x41#8, asm := l, asmLen := BitVec.ofNat 32 l.length, volume := volume, interval := interval
    repeatCount := count }

/-- The bounds of the volume, with and without a gap. -/
theorem witness_RendCompletes :
    ∀ v i : NumVal, (v = 0 ∨ v = 1) → (i = 0 ∨ i = 1) →
      let s := rendState [1, -1] v i 1
      s.err = 0 ∧ s.status &&& 0x41#8 = 0x41#8 ∧ 1 ≤ s.repeatCount.toInt ∧ 0 ≤ s.volume ∧ s.volume ≤ 1 ∧
      0 ≤ s.interval ∧
      s.repeatCount.toNat *
        (s.asmLen.toNat + (roundHalfEven ((s.interval / 1000) * (s.fs.toNat : NumVal))).toNat) ≤ outmax ∧
      maxNum Config.num ((s.asmList Config.params s.asmLen.toNat).map (fun v => |v|)) ≠ 0 := by
  have h := le_outmax
  have g0 : 1 * (2 + (roundHalfEven (((0 : NumVal) / 1000) * ((48000 : Nat) : NumVal))).toNat) = 2 := by decide +kernel
  have g1 : 1 * (2 + (roundHalfEven (((1 : NumVal) / 1000) * ((48000 : Nat) : NumVal))).toNat) = 50 := by decide +kernel
  have hp : maxNum Config.num (([1, -1] : List NumVal).map (fun v => |v|)) ≠ 0 := by decide +kernel
  rintro v i (rfl | rfl) (rfl | rfl)
  · exact ⟨rfl, rfl, by decide, by decide +kernel, by decide +kernel, by decide +kernel, le_trans g0.le (by omega), hp⟩
  · exact ⟨rfl, rfl, by decide, by decide +kernel, by decide +kernel, by decide +kernel, le_trans g1.le (by omega), hp⟩
  · exact ⟨rfl, rfl, by decide, by decide +kernel, by decide +kernel, by decide +kernel, le_trans g0.le (by omega), hp⟩
  · exact ⟨rfl, rfl, by decide, by decide +kernel, by decide +kernel, by decide +kernel, le_trans g1.le (by omega), hp⟩

/-- One state for each check of `REND` that can fail. -/
theorem witness_RendChecksInOrder :
    (rendState [1] 1 0 0).repeatCount.toInt < 1 ∧ (rendState [1] 1 0 0xFFFFFFFF).repeatCount.toInt < 1 ∧
    ¬ (0 ≤ (rendState [1] (3 / 2) 0 1).volume ∧ (rendState [1] (3 / 2) 0 1).volume ≤ 1) ∧
    ¬ (0 ≤ (rendState [1] (-1) 0 1).volume ∧ (rendState [1] (-1) 0 1).volume ≤ 1) ∧
    ¬ (0 ≤ (rendState [1] 1 (-1) 1).interval) ∧
    outmax < (2 : U32).toNat * (({ rendState [1] 1 0 2 with asmLen := 0xFFFFFFFF } : State).asmLen.toNat +
      (roundHalfEven (((0 : NumVal) / 1000) * ((48000 : Nat) : NumVal))).toNat) ∧
    (1 * ((rendState [0] 1 0 1).asmLen.toNat +
      (roundHalfEven (((0 : NumVal) / 1000) * ((48000 : Nat) : NumVal))).toNat) ≤ outmax ∧
      maxNum Config.num (((rendState [0] 1 0 1).asmList Config.params 1).map (fun v => |v|)) = 0) := by
  have h := le_outmax
  have h' := outmax_lt
  have g : (roundHalfEven (((0 : NumVal) / 1000) * ((48000 : Nat) : NumVal))).toNat = 0 := by decide +kernel
  refine ⟨by decide, by decide, by decide +kernel, by decide +kernel, by decide +kernel, ?_, ?_, by decide +kernel⟩
  · rw [g]
    show outmax < 2 * (4294967295 + 0)
    omega
  · rw [g]
    show 1 * (1 + 0) ≤ outmax
    omega

theorem witness_RenderedRange :
    (0 : NumVal) ≤ 0 ∧ (0 : NumVal) ≤ 1 ∧ (1 : NumVal) ≤ 1 ∧
    maxNum testNum (([1, -1] : List NumVal).map (fun v => |v|)) ≠ 0 ∧
    |(-1 : NumVal)| = maxNum testNum (([1, -1] : List NumVal).map (fun v => |v|)) := by decide +kernel

theorem witness_CeilAndToI16 :
    (-32768 : Int) ≤ -32768 ∧ (32767 : Int) ≤ 32767 ∧ (-32769 : Int) < -32768 ∧ (32767 : Int) < 32768 := by decide

/-- The state sequence of a run whose first command raises. -/
def failedStates : Nat → State
  | 0 => { State.reset with mode := 1 }
  | _ + 1 =>
    { State.reset with toBlock := raise .invalidParameter 4 0xF9#8 { Block.reset Config.params with mode := 1 } }

/-- Stopped by the first command, and led through all eight. -/
theorem witness_RunStopsAtTheFirstError :
    (failedStates 0).err = 0 ∧ (failedStates 1).err ≠ 0 ∧ exec .init (failedStates 0) = .next (failedStates 1) ∧
    ∀ (j : Nat) (i : Instr), i ≠ .clrErr → exec i (failedStates (j + 1)) = .next (failedStates (j + 1 + 1)) := by
  refine ⟨rfl, by decide, rfl, ?_⟩
  intro j i hi
  exact exec_halted i _ (by show (failedStates 1).err ≠ 0; decide) hi

theorem witness_RunCompletes :
    let s := soundParams
    s.err = 0 ∧ s.mode = 0 ∧ 0 < s.fc ∧ 0 < s.bw ∧ 1 ≤ s.tsym.toNat ∧ s.tsym.toNat ≤ tmax ∧ 1 ≤ s.fs.toNat ∧
    s.ovsamp.toNat < s.tsym.toNat ∧ 1 ≤ s.msgLen.toNat ∧ s.msgLen.toNat ≤ nmax ∧
    (∀ k, k < s.msgLen.toNat → hexval false (s.msgAt Config.params k) =
      some (([1#4, 5#4, 9#4, 7#4, 3#4] : List (BitVec 4)).getD k 0#4)) ∧
    (∀ c ∈ [(true, 4 * 2), (true, 2), (false, 2)], chirpDivisor Config.num Config.chirpNormAbs
      (windowed Config.num (symmetricHann Config.num) c.1 c.2 s.fc s.bw s.fs.toNat) ≠ 0) ∧
    1 ≤ s.repeatCount.toInt ∧ 0 ≤ s.volume ∧ s.volume ≤ 1 ∧ 0 ≤ s.interval ∧
    asmLength 2 0 (20 + rmin 20 + 2) < 2 ^ 32 ∧
    1 * (asmLength 2 0 (20 + rmin 20 + 2) + gapSamples Config.num s.interval s.fs.toNat) ≤ outmax := by
  have h1 := le_tmax
  have h2 := five_le_nmax
  have h3 := le_outmax
  have g : 1 * (asmLength 2 0 (20 + rmin 20 + 2) + gapSamples Config.num soundParams.interval soundParams.fs.toNat) =
      64 := by decide +kernel
  refine ⟨rfl, rfl, by decide +kernel, by decide +kernel, by decide, ?_, by decide, by decide, by decide, ?_, ?_, ?_,
    by decide, by decide +kernel, by decide +kernel, by decide +kernel, by decide +kernel, ?_⟩
  · show 2 ≤ tmax; omega
  · show 5 ≤ nmax; omega
  · intro k hk
    have hk5 : k < 5 := hk
    have : k = 0 ∨ k = 1 ∨ k = 2 ∨ k = 3 ∨ k = 4 := by omega
    rcases this with rfl | rfl | rfl | rfl | rfl <;> rfl
  · intro c hc
    simp only [List.mem_cons, List.not_mem_nil, or_false] at hc
    rcases hc with rfl | rfl | rfl
    · exact sound_amplitudes.1
    · exact sound_amplitudes.2.1
    · exact sound_amplitudes.2.2
  · rw [g]; omega

/-- A command that answers under exact numbers, and `MAP` of a message that is refused. -/
theorem witness_EveryCommandAnswers :
    let P := testParams none false
    P.num = exactNum testNum.pi testNum.sin testNum.cos ∧ (∃ t, commandUnder P .map (msgBlock P (ones 1)) = .next t) ∧
    mapRefuses P (msgBlock P [0x66#8]) ∧
    commandUnder P .map (msgBlock P [0x66#8]) = .refused .lowerCaseUnfixed :=
  ⟨rfl, ⟨_, rfl⟩, ⟨by decide, by decide, by decide⟩, rfl⟩

theorem witness_ReadsHaveNoEffect :
    ({ State.reset with pending := [.regRead 1] } : State).pending = .regRead 1 :: [] ∧
    ({ State.reset with pending := [.memRead 4 0] } : State).pending = .memRead 4 0 :: [] := ⟨rfl, rfl⟩

/-- The first and the last element of each buffer of a state in which every flag is 1. -/
theorem witness_ReadsReturnTheContents :
    let s : State := { State.reset with
      status := 0xFF#8, tsym := 1, bitLen := 2, coded := [true, false], codedLen := 2, sync := [0, 1, 2, 3], up := [5]
      down := [6], asm := [7, 8], asmLen := 2, out := [0#16, 0xFFFF#16], outLen := 2 }
    (0 < s.msgLen.toNat ∧ 0 < nmax) ∧ (4 < s.msgLen.toNat ∧ 4 < nmax) ∧ 15 < 16 ∧
    (s.status &&& 0x02#8 = 0x02#8 ∧ 1 < s.bitLen.toNat) ∧
    (s.status &&& 0x04#8 = 0x04#8 ∧ 1 < s.codedLen.toNat ∧ s.coded[1]? = some false) ∧
    (s.status &&& 0x08#8 = 0x08#8 ∧ 3 < 4 * s.tsym.toNat ∧ s.sync[3]? = some 3) ∧
    (s.status &&& 0x10#8 = 0x10#8 ∧ 0 < s.tsym.toNat ∧ s.up[0]? = some 5) ∧
    (s.status &&& 0x20#8 = 0x20#8 ∧ 0 < s.tsym.toNat ∧ s.down[0]? = some 6) ∧
    (s.status &&& 0x40#8 = 0x40#8 ∧ 1 < s.asmLen.toNat ∧ s.asm[1]? = some 8) ∧
    (s.status &&& 0x80#8 = 0x80#8 ∧ 1 < s.outLen.toNat ∧ s.out[1]? = some 0xFFFF#16) := by
  have h := five_le_nmax
  refine ⟨⟨by decide, by omega⟩, ⟨by decide, by omega⟩, ?_⟩
  decide +kernel

/-- The smallest and the largest `BITLEN` that `BITS` can hold, the first that it cannot, the ends of `MSG` and `BITS`,
and number domains in which a value is finite and in which it is not. -/
theorem witness_RegisterWritesInvalidate :
    let P := testParams none false
    (BitVec.ofInt 32 0).toNat ≤ P.mmax ∧ (BitVec.ofInt 32 32).toNat ≤ P.mmax ∧ P.mmax < (BitVec.ofInt 32 33).toNat ∧
    (0 < P.nmax ∧ 7 < P.nmax) ∧ (0 < P.mmax ∧ 31 < P.mmax) ∧ P.num.finite 1 = true ∧
    ({ P with num := { P.num with finite := fun q => decide (q ≠ 1) } } : Params NumVal).num.finite 1 = false := by
  decide +kernel

/-- A write of a value that is not finite is refused, and of one that is, is not (93_implementation_defined.md U16). -/
theorem test_non_finite :
    let P := { testParams none false with num := { testNum with finite := fun q => decide (q ≠ 1) } }
    storeReg P 12 (.num 1) (Block.reset P) = .refused .nonFiniteNum ∧
      ∃ t, storeReg P 12 (.num 2) (Block.reset P) = .next t := by
  refine ⟨rfl, _, rfl⟩

theorem witness_BufferWritesStoreOneElement :
    0 < nmax ∧ nmax - 1 < nmax ∧ 0 < Config.params.mmax ∧ Config.params.mmax - 1 < Config.params.mmax := by
  have h := five_le_nmax
  have : Config.params.mmax = 4 * nmax := rfl
  omega

theorem witness_OtherWritesAreIgnored :
    1 ∈ [1, 2, 3, 15, 16, 17, 18, 19] ∧ 20 ≤ 20 ∧ (0 ≠ 1 ∧ 0 ≠ 4) ∧ (10 ≠ 1 ∧ 10 ≠ 4) ∧ nmax ≤ nmax ∧
    Config.params.mmax ≤ Config.params.mmax :=
  ⟨by decide, le_refl _, by decide, by decide, le_refl _, le_refl _⟩

theorem witness_HostCannotWriteResults :
    let s : State := { State.reset with pending := [.regWrite 14 (.int 4)] }
    s.pending = .regWrite 14 (.int 4) :: [] ∧ (HostMove.regWrite 14 (.int 4) : HostMove NumVal) ≠ .reset ∧
    (∀ v, (HostMove.regWrite 14 (.int 4) : HostMove NumVal) ≠ .regWrite 0 v) ∧ ∃ t, step s = .next t := by
  refine ⟨rfl, by decide, ?_, _, rfl⟩
  intro v h
  cases h

theorem witness_ResetGivesTheResetValues :
    ({ soundState with pending := [.reset] } : State).pending = .reset :: [] := rfl

theorem witness_StepKeepsWellFormed : soundState.WellFormed ∧ step soundState = .next soundState :=
  ⟨sound_wellFormed, rfl⟩

/-- A sound state and a step that changes it: the host writes `VOLUME`. -/
theorem witness_StepKeepsCoherent :
    let s : State := { soundState with pending := [.regWrite 12 (.num 0)] }
    s.WellFormed ∧ s.Coherent ∧ ∃ t, step s = .next t ∧ t ≠ s := by
  have c := sound_coherent
  have w := sound_wellFormed
  refine ⟨⟨w.msg, w.bits, w.bitLen, w.flags, w.errCode, w.errInfo⟩, ⟨c.cfg, c.coded, c.sync, c.up, c.down, c.asm, c.out⟩,
    _, rfl, ?_⟩
  intro h
  have : ([] : List (HostMove NumVal)) = [.regWrite 12 (.num 0)] := congrArg State.pending h
  cases this

end Sys2Proof.Tests
end

section
/-!
PROOFS. Rounding to nearest, ceilings and the range of an `i16` over exact numbers, and the laws of the number domains
(00_scope.md R9, R15 to R18).
-/
namespace Sys2Proof.Machine

/-! ### Rounding -/

section

variable {K : Type} [Field K] [LinearOrder K] [FloorRing K] [IsStrictOrderedRing K]

/-- An integer other than `round v` is one or more away from it, and `round v` is at most one half away from `v`
(00_scope.md R17). -/
theorem roundHalfEven_nearest (v : K) (n : Int) : |(roundHalfEven v : K) - v| ≤ |(n : K) - v| := by
  obtain ⟨above, below⟩ := roundHalfEven_near v
  have near : |(roundHalfEven v : K) - v| ≤ 1 / 2 := abs_le.mpr ⟨by linarith, above⟩
  rcases lt_trichotomy n (roundHalfEven v) with h | rfl | h
  · have gap : (n : K) + 1 ≤ roundHalfEven v := by exact_mod_cast h
    exact near.trans (le_abs.mpr (.inr (by linarith)))
  · exact le_rfl
  · have gap : (roundHalfEven v : K) + 1 ≤ n := by exact_mod_cast h
    exact near.trans (le_abs.mpr (.inl (by linarith)))

/-- Halfway between two integers `round` answers the even one (00_scope.md R17). -/
theorem roundHalfEven_add_half (n : Int) : roundHalfEven ((n : K) + 1 / 2) = if n % 2 = 0 then n else n + 1 := by
  have floor_eq : ⌊(n : K) + 1 / 2⌋ = n := by rw [Int.floor_eq_iff]; constructor <;> linarith
  simp only [roundHalfEven, floor_eq, add_sub_cancel_left, lt_irrefl, if_false]

/-- What `round` answers at a tie is even (00_scope.md R17). -/
theorem roundHalfEven_add_half_even (n : Int) : roundHalfEven ((n : K) + 1 / 2) % 2 = 0 := by
  rw [roundHalfEven_add_half]
  split <;> omega

end

/-- Settles O45: nearest, because `round` is at most one half away; the ties and the rule's examples by the value at an
integer plus one half. -/
theorem roundHalfToEven : Obligations.RoundHalfToEven := by
  intro K _ _ _ _ pi sin cos
  refine ⟨roundHalfEven_nearest, roundHalfEven_add_half_even, ?_, ?_, ?_⟩
  · rw [exactNum_round, show (5 / 2 : K) = (2 : Int) + 1 / 2 by norm_num, roundHalfEven_add_half]
    decide
  · rw [exactNum_round, show (7 / 2 : K) = (3 : Int) + 1 / 2 by norm_num, roundHalfEven_add_half]
    decide
  · rw [exactNum_round, show (-32767 / 2 : K) = (-16384 : Int) + 1 / 2 by norm_num, roundHalfEven_add_half]
    decide

/-! ### The number domains -/

/-- The machine's parameters meet the constraints of 00_scope.md R9. -/
theorem config_params_valid : Config.params.Valid where
  num := toNum_lawful _
  nmax := five_le_nmax
  tmax := le_tmax
  outmax_ge := le_outmax
  outmax_lt := outmax_lt

/-- Settles O1: both number domains are exact, and both sines are 0 at 0. -/
theorem numberDomainsObeyTheLaws : Obligations.NumberDomainsObeyTheLaws :=
  ⟨config_params_valid, exactNum_lawful Real.sin_zero⟩

/-! ### Ceilings and samples -/

/-- `toI16` has no value outside the range of an `i16` (00_scope.md R18). -/
theorem toI16_none {n : Int} (h : n < -32768 ∨ 32767 < n) : toI16 n = none :=
  if_neg (by omega)

/-- Settles O46: the ceiling is the library's, and `toI16` in and out of range is `toI16_some` and `toI16_none`. -/
theorem ceilAndToI16 : Obligations.CeilAndToI16 := by
  refine ⟨?ceil, ?inRange, fun n h => toI16_none h⟩
  case ceil =>
    intro K _ _ _ _ pi sin cos v
    exact ⟨Int.le_ceil v, fun n h => Int.ceil_le.mpr h⟩
  case inRange => exact fun n lo hi => ⟨_, toI16_some lo hi, toInt_ofInt_sample lo hi⟩

end Sys2Proof.Machine
end

section
/-!
PROOFS. What a command that answers has done, said once, and what a step can make of the block: the invariants below
and the flag table follow from these (40_control.md R100, 20_memory.md R74).
-/
namespace Sys2Proof.Machine

variable {α : Type} {P : Params α} {b t : Block α} {i : Instr}

/-! ### A command's completion -/

/-- The command `i`, other than `RUN`, completes on `b` and leaves the given block: what its own rule stores, and what
the rule has checked by then. -/
inductive Completes (P : Params α) (b : Block α) : Instr → Block α → Prop
  | nop : Completes P b .nop b
  | init (checks : initFails P b = none) : Completes P b .init (b.completed .init)
  | map (bs : List Bool) (bounded : b.msgLen.toNat ≤ P.nmax) (made : b.mapped P = .ok bs)
      (size : bs.length = 4 * b.msgLen.toNat) :
      Completes P b .map
        ({ b with bits := b.bits.writeAll bs, bitLen := lengthReg P (4 * b.msgLen.toNat) }.completed .map)
  | fec :
      Completes P b .fec
        ({ b with
          coded := fecEncode (b.bitList P b.bitLen.toNat)
          codedLen := lengthReg P (b.bitLen.toNat + rmin b.bitLen.toNat + 2)
          parCnt := lengthReg P (rmin b.bitLen.toNat + 2) }.completed .fec)
  | chirp (sel : ChirpSel) (l : List α) (made : b.chirp P sel = some l) :
      Completes P b sel.instr ((b.storeChirp sel l).completed sel.instr)
  | asm :
      Completes P b .asm
        ({ b with
          asm := b.assembled P
          asmLen := lengthReg P (asmLength b.tsym.toNat b.ovsamp.toNat b.codedLen.toNat) }.completed .asm)
  | rend (out : List Sample) (checks : rendFails P b (b.asmList P b.asmLen.toNat) = none)
      (made : b.rendered P (b.asmList P b.asmLen.toNat) = some out) :
      Completes P b .rend
        ({ b with
          out := out
          gap := lengthReg P (gapSamples P.num b.interval b.fs.toNat)
          outLen := lengthReg P (totalLength b.repeatCount.toNat (b.asmList P b.asmLen.toNat).length
            (gapSamples P.num b.interval b.fs.toNat)) }.completed .rend)
  | clrErr : Completes P b .clrErr (clearError b)

/-- A chirp that answers has raised or completed (43_chirp_synthesizer.md R181). -/
theorem chirpBody_next {sel : ChirpSel} (h : chirpBody P sel b = .next t) :
    (∃ e n, t = raise e n (raiseClears sel.instr) b) ∨ Completes P b sel.instr t := by
  unfold chirpBody at h
  split at h
  · cases h; exact .inl ⟨_, _, rfl⟩
  · cases h; exact .inr (.chirp sel _ ‹_›)

/-- A `MAP` that answers has raised or completed (41_symbol_mapper.md R123 to R125). -/
theorem mapBody_next (h : mapBody P b = .next t) :
    (∃ e n, t = raise e n (raiseClears .map) b) ∨ Completes P b .map t := by
  rcases mapBody_cases P b with ⟨-, e⟩ | ⟨-, e⟩ | ⟨-, bounded, -, ⟨k, -, e⟩ | ⟨bs, made, size, e⟩⟩ <;>
    (rw [e] at h; cases h)
  · exact .inl ⟨_, _, rfl⟩
  · exact .inl ⟨_, _, rfl⟩
  · exact .inr (.map bs bounded made size)

/-- A `REND` that answers has raised or completed (45_renderer_quantizer.md R227). -/
theorem rendBody_next (h : rendBody P b = .next t) :
    (∃ e n, t = raise e n (raiseClears .rend) b) ∨ Completes P b .rend t := by
  unfold rendBody at h
  dsimp only at h
  split at h
  · cases h; exact .inl ⟨_, _, rfl⟩
  · split at h
    · cases h
    · cases h; exact .inr (.rend _ ‹_› ‹_›)

/-- An `INIT` that answers has raised or completed (40_control.md R102). -/
theorem initBody_next (h : initBody P b = .next t) :
    (∃ e n, t = raise e n (raiseClears .init) b) ∨ Completes P b .init t := by
  unfold initBody at h
  split at h
  · cases h; exact .inl ⟨_, _, rfl⟩
  · cases h; exact .inr (.init ‹_›)

/-- A command's own rule that answers has raised or completed (10_state.md R35). -/
theorem ownRule_next (hi : i ≠ .run) (h : ownRule P i b = .next t) :
    (∃ e n, t = raise e n (raiseClears i) b) ∨ Completes P b i t := by
  cases i with
  | nop => cases h; exact .inr .nop
  | init => exact initBody_next h
  | map => exact mapBody_next h
  | fec => cases h; exact .inr .fec
  | chirpSync => exact chirpBody_next (sel := .sync) h
  | chirpUp => exact chirpBody_next (sel := .up) h
  | chirpDown => exact chirpBody_next (sel := .down) h
  | asm => cases h; exact .inr .asm
  | rend => exact rendBody_next h
  | run => exact absurd rfl hi
  | clrErr => cases h; exact .inr .clrErr

/-- Everything a command other than `RUN` that answers has done: it was ignored, it raised, or it completed with every
flag it needs (40_control.md R100). -/
theorem commandUnder_next (hi : i ≠ .run) (h : commandUnder P i b = .next t) :
    (b.err ≠ 0 ∧ t = b) ∨ (∃ e n, t = raise e n (raiseClears i) b) ∨ (missingFlags i b = 0 ∧ Completes P b i t) := by
  rcases commandUnder_cases P i b with ⟨halted, -, e⟩ | ⟨-, -, -, e⟩ | ⟨-, ready, e⟩ <;> rw [e] at h
  · cases h; exact .inl ⟨halted, rfl⟩
  · cases h; exact .inr (.inl ⟨_, _, rfl⟩)
  · exact .inr ((ownRule_next hi h).imp_right fun done => ⟨ready, done⟩)

/-- A completion sets and clears the flags of 10_state.md R35. -/
theorem Completes.status (h : Completes P b i t) : t.status = completedStatus i b.status := by
  have same : clearMask 0 b.status ||| 0 = b.status := BitVec.or_zero.trans BitVec.and_allOnes
  cases h with
  | nop => exact same.symm
  | clrErr => exact same.symm
  | chirp sel l => rw [completed_status, storeChirp_status]
  | init | map | fec | asm | rend => rfl

/-- A completion records no error. -/
theorem Completes.err (h : Completes P b i t) : t.err = b.err ∨ t.err = 0 := by
  cases h with
  | clrErr => exact .inr rfl
  | chirp sel l => exact .inl (by simp)
  | nop | init | map | fec | asm | rend => exact .inl rfl

/-- `STATUS` after a command other than `RUN` that was issued with no error recorded (10_state.md R35). -/
theorem commandUnder_status (hi : i ≠ .run) (herr : b.err = 0) (h : commandUnder P i b = .next t) :
    (t.err = 0 → t.status = completedStatus i b.status) ∧ (t.err ≠ 0 → t.status = clearMask (raiseClears i) b.status) := by
  rcases commandUnder_next hi h with ⟨halted, -⟩ | ⟨e, n, rfl⟩ | ⟨-, done⟩
  · exact absurd herr halted
  · exact ⟨fun noError => absurd noError (code_ne_zero e), fun _ => rfl⟩
  · have noError : t.err = 0 := done.err.elim (·.trans herr) id
    exact ⟨fun _ => done.status, fun error => absurd noError error⟩

/-- Settles O8: a command that answers has raised or completed, and the masks of either are the table's rows. -/
theorem commandFlagTable : Obligations.CommandFlagTable := by
  intro i s t hi herr h
  obtain ⟨b, hb, rfl⟩ := exec_eq_next h
  have flags := commandUnder_status hi herr hb
  cases i <;> exact flags

/-! ### A step of the machine -/

/-- What the raises, the completions and the host's writes and resets keep, every step keeps (20_memory.md R74). -/
theorem step_keeps {s t : State} (Q : Block NumVal → Prop)
    (command : ∀ i b t, i ≠ .run → Q b → commandUnder Config.params i b = .next t → Q t)
    (illegal : ∀ b n, Q b → Q (raise .illegalCommand n 0 b))
    (reg : ∀ n v b t, Q b → storeReg Config.params n v b = .next t → Q t)
    (mem : ∀ sp k v b t, Q b → storeMem Config.params sp k v b = .next t → Q t)
    (reset : ∀ b, Q (resetBlock Config.params b))
    (h : Q s.toBlock) (hs : step s = .next t) : Q t.toBlock := by
  cases hp : s.pending with
  | nil =>
    have idle : step s = .next s := by show advance s = _; unfold advance; rw [hp]
    rw [idle] at hs; cases hs; exact h
  | cons m rest =>
    rw [step_of_pending hp] at hs
    cases m with
    | regRead n => cases hs; exact h
    | memRead sp k => cases hs; exact h
    | reset => cases hs; exact reset _
    | memWrite sp k v =>
      obtain ⟨b, hb, rfl⟩ := onBlock_eq_next hs
      exact mem sp k v _ b h hb
    | regWrite n v =>
      rcases regWrite_cases hs with ⟨-, x, -, hw⟩ | ⟨-, b, hb, rfl⟩
      · rcases issue_cases hw with ⟨i, hi⟩ | rfl | rfl
        · obtain ⟨b, hb, rfl⟩ := exec_eq_next hi
          exact commandUnder_keeps Q command i _ b h hb
        · exact h
        · have := illegal s.toBlock ((BitVec.ofInt 16 x).setWidth 32) h
          rwa [raise_no_flags] at this
      · exact reg n v _ b h hb

end Sys2Proof.Machine
end

section
/-!
PROOFS. The invariants of the block: canonical buffers, legal flags and agreeing error registers (10_state.md R32 to
R35), and what the valid flags say of their buffers (10_state.md R23, R33).
-/
namespace Sys2Proof.Machine

variable {α : Type} {P : Params α} {b t : Block α} {i : Instr} {st c f v : Flags}

/-! ### Masks of flags -/

/-- A mask is 1 where each of its bits is. -/
theorem hasFlags_iff_getLsbD : hasFlags st f = true ↔ ∀ k, f.getLsbD k = true → st.getLsbD k = true := by
  simp only [hasFlags, beq_iff_eq]
  constructor
  · intro h k hk
    rw [← h, BitVec.getLsbD_and, Bool.and_eq_true] at hk
    exact hk.1
  · intro h
    apply BitVec.eq_of_getLsbD_eq
    intro k _
    rw [BitVec.getLsbD_and, Bool.and_eq_right_iff_imp]
    exact h k

/-- Two masks have no bit in common. -/
theorem and_eq_zero_iff_getLsbD : c &&& f = 0 ↔ ∀ k, f.getLsbD k = true → c.getLsbD k = false := by
  constructor
  · intro h k hk
    have := congrArg (·.getLsbD k) h
    simpa [hk] using this
  · intro h
    apply BitVec.eq_of_getLsbD_eq
    intro k _
    cases hk : f.getLsbD k with
    | false => simp [hk]
    | true => simp [h k hk]

/-- A mask is 1 in an intersection where it is 1 in both. -/
theorem hasFlags_and_iff : hasFlags (st &&& c) f = true ↔ hasFlags st f = true ∧ hasFlags c f = true := by
  simp only [hasFlags_iff_getLsbD, BitVec.getLsbD_and, Bool.and_eq_true, imp_and, forall_and]

/-- Flags that are set play no part in the others. -/
theorem hasFlags_or_of_disjoint (h : c &&& f = 0) : hasFlags (st ||| c) f = true ↔ hasFlags st f = true := by
  rw [and_eq_zero_iff_getLsbD] at h
  simp only [hasFlags_iff_getLsbD, BitVec.getLsbD_or, Bool.or_eq_true]
  exact forall₂_congr fun k hk => by simp [h k hk]

/-- Setting flags clears none. -/
theorem hasFlags_or_left (h : hasFlags st f = true) : hasFlags (st ||| c) f = true := by
  rw [hasFlags_iff_getLsbD] at h ⊢
  intro k hk
  rw [BitVec.getLsbD_or, h k hk, Bool.true_or]

/-- A mask is outside `c` where it has no bit in common with `c`. -/
theorem hasFlags_not_iff : hasFlags (~~~c) f = true ↔ c &&& f = 0 := by
  rw [hasFlags_iff_getLsbD, and_eq_zero_iff_getLsbD]
  refine forall₂_congr fun k hk => ?_
  simp [BitVec.lt_of_getLsbD hk]

/-- Clearing a mask leaves the flags outside it. -/
theorem hasFlags_clearMask_iff : hasFlags (clearMask c st) f = true ↔ hasFlags st f = true ∧ c &&& f = 0 := by
  rw [clearMask, hasFlags_and_iff, hasFlags_not_iff]

/-! ### The legal flag combinations -/

/-- The pairs of `FlagsLegal`: an output's flag, and the flags of what the output is computed from (10_state.md R33,
R35). -/
def flagSources : List (Flags × Flags) :=
  [(vCoded, vBits), (vSync, vCfg), (vUp, vCfg), (vDown, vCfg), (vAsm, vCoded ||| vSync ||| vUp ||| vDown), (vOut, vAsm)]

/-- What is said of every pair, pair by pair. -/
theorem forall_flagSources (Q : Flags × Flags → Prop) : (∀ p ∈ flagSources, Q p) ↔
    Q (vCoded, vBits) ∧ Q (vSync, vCfg) ∧ Q (vUp, vCfg) ∧ Q (vDown, vCfg) ∧
    Q (vAsm, vCoded ||| vSync ||| vUp ||| vDown) ∧ Q (vOut, vAsm) := by
  simp only [flagSources, List.forall_mem_cons, List.not_mem_nil, false_imp_iff, forall_true_iff, and_true]

/-- Legal combinations through the pairs. -/
theorem flagsLegal_iff : FlagsLegal st ↔ ∀ p ∈ flagSources, hasFlags st p.1 = true → hasFlags st p.2 = true := by
  rw [forall_flagSources, FlagsLegal]

/-- A legal combination is legal after the flags `c` are cleared and then the flags `f` set, where an output's flag is
cleared, or is not set afresh and keeps its sources, or is set while the flags `n`, which are 1, hold its sources. -/
theorem FlagsLegal.update {n : Flags} (h : FlagsLegal st) (ready : hasFlags st n = true)
    (side : ∀ p ∈ flagSources, (p.1 ≠ 0 ∧ c &&& p.1 = p.1 ∧ f &&& p.1 = 0) ∨
      (c &&& p.2 = 0 ∧ (f &&& p.1 = 0 ∨ n &&& p.2 = p.2))) :
    FlagsLegal (clearMask c st ||| f) := by
  rw [flagsLegal_iff] at h ⊢
  intro p hp output
  rcases side p hp with ⟨nonzero, cleared, unset⟩ | ⟨kept, unset | needed⟩
  · rw [hasFlags_or_of_disjoint unset] at output
    exact (not_hasFlags_cleared cleared nonzero output).elim
  · rw [hasFlags_or_of_disjoint unset] at output
    exact hasFlags_or_left (hasFlags_clearMask_iff.mpr ⟨h p hp (hasFlags_of_clearMask output), kept⟩)
  · have sources : hasFlags st p.2 = true := hasFlags_of_submask (beq_iff_eq.mp ready) needed
    exact hasFlags_or_left (hasFlags_clearMask_iff.mpr ⟨sources, kept⟩)

/-- A legal combination is legal after a mask is cleared that holds, with an output's sources, the output. -/
theorem FlagsLegal.clearMask (h : FlagsLegal st) (closed : FlagsLegal (~~~c)) : FlagsLegal (clearMask c st) := by
  rw [flagsLegal_iff] at h closed ⊢
  intro p hp output
  obtain ⟨output, outside⟩ := hasFlags_and_iff.mp output
  exact hasFlags_and_iff.mpr ⟨h p hp output, closed p hp outside⟩

/-- A completion keeps the flags legal (10_state.md R35). -/
theorem FlagsLegal.completedStatus (h : FlagsLegal b.status) (ready : missingFlags i b = 0) :
    FlagsLegal (completedStatus i b.status) := by
  refine h.update (n := needFlags i) (beq_iff_eq.mpr (status_of_missingFlags rfl ready)) ?_
  rw [forall_flagSources]
  cases i <;> decide

/-- Every raise clears, with an output's sources, the output (10_state.md R35). -/
theorem flagsLegal_not_raiseClears (i : Instr) : FlagsLegal (~~~raiseClears i) := by
  unfold FlagsLegal
  cases i <;> decide

/-- So does every host write (10_state.md R34). -/
theorem flagsLegal_not_writeClears : FlagsLegal (~~~paramWriteClears) ∧ FlagsLegal (~~~renderWriteClears) ∧
    FlagsLegal (~~~messageWriteClears) := by
  unfold FlagsLegal
  decide

/-- No flag being 1 is legal. -/
theorem flagsLegal_zero : FlagsLegal 0 := by
  unfold FlagsLegal
  decide

/-! ### Well-formed blocks -/

/-- Every error's code is one of the eight (60_exceptions.md R250). -/
theorem code_le_eight (e : BlockError) : e.code.toNat ≤ 8 := by cases e <;> decide

/-- A raise whose mask holds, with an output's sources, the output. -/
theorem Block.WellFormed.raise (h : b.WellFormed P) (e : BlockError) (n : U32) (closed : FlagsLegal (~~~f)) :
    (raise e n f b).WellFormed P where
  msg := h.msg
  bits := by
    rw [raise_bits]
    split
    · exact wf_forget _ _
    · exact h.bits
  bitLen := h.bitLen
  flags := h.flags.clearMask closed
  errCode := code_le_eight e
  errInfo none := absurd none (code_ne_zero e)

/-- A completion with every needed flag 1. -/
theorem Block.WellFormed.completes (h : b.WellFormed P) (ready : missingFlags i b = 0) (done : Completes P b i t) :
    t.WellFormed P := by
  have flags : FlagsLegal t.status := done.status ▸ h.flags.completedStatus ready
  cases done with
  | nop => exact h
  | map bs bounded made size =>
    have small : 4 * b.msgLen.toNat ≤ P.mmax := Nat.mul_le_mul_left 4 bounded
    exact ⟨h.msg, wf_writeAll h.bits (size ▸ small), lengthReg_le P small, flags, h.errCode, h.errInfo⟩
  | chirp sel l => cases sel <;> exact ⟨h.msg, h.bits, h.bitLen, flags, h.errCode, h.errInfo⟩
  | clrErr => exact ⟨h.msg, h.bits, h.bitLen, flags, Nat.zero_le 8, fun _ => rfl⟩
  | init | fec | asm | rend => exact ⟨h.msg, h.bits, h.bitLen, flags, h.errCode, h.errInfo⟩

/-- A command (10_state.md R35). -/
theorem Block.WellFormed.command (hi : i ≠ .run) (h : b.WellFormed P) (ht : commandUnder P i b = .next t) :
    t.WellFormed P := by
  rcases commandUnder_next hi ht with ⟨-, rfl⟩ | ⟨e, n, rfl⟩ | ⟨ready, done⟩
  · exact h
  · exact h.raise e n (flagsLegal_not_raiseClears i)
  · exact h.completes ready done

/-- A host write of `BITLEN` (10_state.md R34). -/
theorem Block.WellFormed.writeBitLen (h : b.WellFormed P) (x : U32) : (writeBitLen P x b).WellFormed P := by
  obtain ⟨-, -, message⟩ := flagsLegal_not_writeClears
  have short : FlagsLegal (clearMask bitLenWriteClears b.status ||| vBits) := by
    refine h.flags.update (n := 0) (beq_iff_eq.mpr BitVec.and_zero) ?_
    rw [forall_flagSources]
    decide
  unfold Machine.writeBitLen
  split
  · exact ⟨h.msg, h.bits, ‹_›, short, h.errCode, h.errInfo⟩
  · exact ⟨h.msg, h.bits, h.bitLen, h.flags.clearMask message, h.errCode, h.errInfo⟩

/-- A host write of a register (10_state.md R34). -/
theorem Block.WellFormed.storeReg {n : Nat} {x : HostVal α} (h : b.WellFormed P) (ht : storeReg P n x b = .next t) :
    t.WellFormed P := by
  obtain ⟨param, render, message⟩ := flagsLegal_not_writeClears
  rcases storeReg_cases ht with rfl | ⟨_, _, _, _, _, _, rfl⟩ | ⟨_, _, _, rfl⟩ | ⟨_, rfl⟩ | ⟨x, rfl⟩
  · exact h
  · exact ⟨h.msg, h.bits, h.bitLen, h.flags.clearMask param, h.errCode, h.errInfo⟩
  · exact ⟨h.msg, h.bits, h.bitLen, h.flags.clearMask render, h.errCode, h.errInfo⟩
  · exact ⟨h.msg, h.bits, h.bitLen, h.flags.clearMask message, h.errCode, h.errInfo⟩
  · exact h.writeBitLen x

/-- A host write of an element of `MSG` or `BITS` (20_memory.md R65). -/
theorem Block.WellFormed.storeMem {sp k : Nat} {x : HostVal α} (h : b.WellFormed P)
    (ht : storeMem P sp k x b = .next t) : t.WellFormed P := by
  obtain ⟨-, -, message⟩ := flagsLegal_not_writeClears
  rcases storeMem_cases ht with rfl | ⟨_, inside, rfl⟩ | ⟨_, inside, rfl⟩
  · exact h
  · exact ⟨wf_write h.msg inside, h.bits, h.bitLen, h.flags.clearMask message, h.errCode, h.errInfo⟩
  · exact ⟨h.msg, wf_write h.bits inside, h.bitLen, h.flags.clearMask message, h.errCode, h.errInfo⟩

/-- The message after reset fits `MSG` (10_state.md R44). -/
theorem block_reset_msg_wf (hP : 5 ≤ P.nmax) : (Block.reset P).msg.wf P.nmax = true := by
  simp [Block.reset, Buffer.wf, risingFrom, cellsBelow]
  omega

/-- The block after reset (10_state.md R44). -/
theorem block_reset_wellFormed (hP : 5 ≤ P.nmax) : (Block.reset P).WellFormed P :=
  ⟨block_reset_msg_wf hP, rfl, Nat.zero_le _, flagsLegal_zero, Nat.zero_le _, fun _ => rfl⟩

/-- The block after a reset move, whose buffers are of new generations (70_reset_and_hazards.md R280). -/
theorem resetBlock_wellFormed (hP : 5 ≤ P.nmax) (b : Block α) : (resetBlock P b).WellFormed P :=
  ⟨block_reset_msg_wf hP, rfl, Nat.zero_le _, flagsLegal_zero, Nat.zero_le _, fun _ => rfl⟩

/-- Settles O58: the message fits the least `MSG`, no bit is stored and no flag is 1. -/
theorem resetIsWellFormed : Obligations.ResetIsWellFormed := block_reset_wellFormed five_le_nmax

/-- Settles O57: each thing a step can make of the block keeps it well formed. -/
theorem stepKeepsWellFormed : Obligations.StepKeepsWellFormed := by
  intro s t h hs
  refine step_keeps (·.WellFormed Config.params) ?command ?illegal ?reg ?mem ?reset h hs
  case command => exact fun i b t hi h ht => h.command hi ht
  case illegal => exact fun b n h => h.raise _ n (flagsLegal_not_raiseClears .nop)
  case reg => exact fun n v b t h ht => h.storeReg ht
  case mem => exact fun sp k v b t h ht => h.storeMem ht
  case reset => exact resetBlock_wellFormed five_le_nmax

end Sys2Proof.Machine
end

section
/-!
PROOFS. What the valid flags say of their buffers (10_state.md R23, R33): a flag that stays 1 says it of the same inputs
and the same buffer, and a flag that is set says it of what its command has just computed.
-/
namespace Sys2Proof.Machine

variable {α : Type} {P : Params α} {b t : Block α} {i : Instr} {st c f v : Flags}

/-! ### Flags after an update -/

/-- What is claimed where a cleared flag is 1 is claimed of nothing. -/
theorem cleared_gone {C : Prop} (h : hasFlags (clearMask c st) v = true) (cleared : c &&& v = v := by decide)
    (nonzero : v ≠ 0 := by decide) : C :=
  (not_hasFlags_cleared cleared nonzero h).elim

/-- What is claimed where a flag is 1 that the completion clears is claimed of nothing. -/
theorem completed_gone {C : Prop} (h : hasFlags (completedStatus i st) v = true)
    (cleared : completionClears i &&& v = v := by decide) (unset : completionSets i &&& v = 0 := by decide)
    (nonzero : v ≠ 0 := by decide) : C :=
  absurd h (by rw [not_hasFlags_completed cleared unset nonzero]; decide)

/-- A flag that is 1 after a completion that does not set it was 1 before. -/
theorem completed_kept (h : hasFlags (completedStatus i st) v = true)
    (unset : completionSets i &&& v = 0 := by decide) : hasFlags st v = true :=
  hasFlags_of_completed unset h

/-- A mask whose complement holds `f` has no flag of `f`. -/
theorem anyFlag_of_hasFlags_not (h : hasFlags (~~~c) f = true) : anyFlag c f = false := by
  simpa [anyFlag] using hasFlags_not_iff.mp h

/-- Where no flag is 1 there is nothing to say. -/
theorem coherent_of_status_zero (h : b.status = 0) : b.Coherent P := by
  constructor <;> (rw [h]; intro one; exact absurd one (by decide))

/-! ### Raises -/

/-- A raise keeps what the flags that stay 1 say: it forgets no buffer of theirs and no source of such a buffer
(60_exceptions.md R261). -/
theorem Block.Coherent.raise (h : b.Coherent P) (e : BlockError) (n : U32) (closed : FlagsLegal (~~~f)) :
    (raise e n f b).Coherent P := by
  obtain ⟨codedSources, -, -, -, asmSources, outSources⟩ := closed
  exact {
    cfg one := h.cfg (hasFlags_of_clearMask one)
    coded one := by
      obtain ⟨before, outside⟩ := hasFlags_and_iff.mp one
      have own := anyFlag_of_hasFlags_not outside
      have bits := anyFlag_of_hasFlags_not (codedSources outside)
      have same : (Machine.raise e n f b).bitList P = b.bitList P := by
        funext m; simp [Block.bitList, Block.bitAt, bits]
      simpa [own, same] using h.coded before
    sync one := by
      obtain ⟨before, outside⟩ := hasFlags_and_iff.mp one
      rw [raise_sync, anyFlag_of_hasFlags_not outside]
      exact h.sync before
    up one := by
      obtain ⟨before, outside⟩ := hasFlags_and_iff.mp one
      rw [raise_up, anyFlag_of_hasFlags_not outside]
      exact h.up before
    down one := by
      obtain ⟨before, outside⟩ := hasFlags_and_iff.mp one
      rw [raise_down, anyFlag_of_hasFlags_not outside]
      exact h.down before
    asm one := by
      obtain ⟨before, outside⟩ := hasFlags_and_iff.mp one
      have own := anyFlag_of_hasFlags_not outside
      have source {v : Flags} (sub : (vCoded ||| vSync ||| vUp ||| vDown) &&& v = v) : anyFlag f v = false :=
        anyFlag_of_hasFlags_not (hasFlags_of_submask (beq_iff_eq.mp (asmSources outside)) sub)
      have same : (Machine.raise e n f b).assembled P = b.assembled P := by
        simp [Block.assembled, Block.codedList, Block.syncList, Block.upList, Block.downList,
          source (v := vCoded) rfl, source (v := vSync) rfl, source (v := vUp) rfl, source (v := vDown) rfl]
      simpa [own, same] using h.asm before
    out one := by
      obtain ⟨before, outside⟩ := hasFlags_and_iff.mp one
      have own := anyFlag_of_hasFlags_not outside
      have asm := anyFlag_of_hasFlags_not (outSources outside)
      have same : (Machine.raise e n f b).asmList P = b.asmList P := by funext m; simp [Block.asmList, asm]
      rw [same, raise_out, own]
      exact h.out before }

/-! ### Completions -/

/-- A chirp that completes (43_chirp_synthesizer.md R181). -/
theorem Block.Coherent.chirp (h : b.Coherent P) {sel : ChirpSel} {l : List α} (made : b.chirp P sel = some l) :
    ((b.storeChirp sel l).completed sel.instr).Coherent P := by
  cases sel with
  | sync =>
    exact ⟨(h.cfg <| completed_kept ·), (h.coded <| completed_kept ·), fun _ => made, (h.up <| completed_kept ·),
      (h.down <| completed_kept ·), (completed_gone ·), (completed_gone ·)⟩
  | up =>
    exact ⟨(h.cfg <| completed_kept ·), (h.coded <| completed_kept ·), (h.sync <| completed_kept ·), fun _ => made,
      (h.down <| completed_kept ·), (completed_gone ·), (completed_gone ·)⟩
  | down =>
    exact ⟨(h.cfg <| completed_kept ·), (h.coded <| completed_kept ·), (h.sync <| completed_kept ·),
      (h.up <| completed_kept ·), fun _ => made, (completed_gone ·), (completed_gone ·)⟩

/-- A completion: the flag it sets says what the command has just computed, the flags that depend on it are cleared, and
the inputs of every other are as before (10_state.md R35). -/
theorem Block.Coherent.completes (h : b.Coherent P) (done : Completes P b i t) : t.Coherent P := by
  cases done with
  | nop => exact h
  | clrErr => exact ⟨h.cfg, h.coded, h.sync, h.up, h.down, h.asm, h.out⟩
  | init checks =>
    exact ⟨fun _ => checks, (h.coded <| completed_kept ·), (h.sync <| completed_kept ·), (h.up <| completed_kept ·),
      (h.down <| completed_kept ·), (h.asm <| completed_kept ·), (h.out <| completed_kept ·)⟩
  | map bs =>
    exact ⟨(h.cfg <| completed_kept ·), (completed_gone ·), (h.sync <| completed_kept ·), (h.up <| completed_kept ·),
      (h.down <| completed_kept ·), (completed_gone ·), (completed_gone ·)⟩
  | fec =>
    exact ⟨(h.cfg <| completed_kept ·), fun _ => ⟨rfl, rfl, rfl⟩, (h.sync <| completed_kept ·),
      (h.up <| completed_kept ·), (h.down <| completed_kept ·), (completed_gone ·), (completed_gone ·)⟩
  | chirp sel l made => exact h.chirp made
  | asm =>
    exact ⟨(h.cfg <| completed_kept ·), (h.coded <| completed_kept ·), (h.sync <| completed_kept ·),
      (h.up <| completed_kept ·), (h.down <| completed_kept ·), fun _ => ⟨rfl, rfl⟩, (completed_gone ·)⟩
  | rend out checks made =>
    obtain ⟨-, -, -, -, fits, -⟩ := rendFails_none checks
    exact ⟨(h.cfg <| completed_kept ·), (h.coded <| completed_kept ·), (h.sync <| completed_kept ·),
      (h.up <| completed_kept ·), (h.down <| completed_kept ·), (h.asm <| completed_kept ·),
      fun _ => ⟨made, rfl, rfl, fits⟩⟩

/-- A command (10_state.md R35). -/
theorem Block.Coherent.command (hi : i ≠ .run) (h : b.Coherent P) (ht : commandUnder P i b = .next t) :
    t.Coherent P := by
  rcases commandUnder_next hi ht with ⟨-, rfl⟩ | ⟨e, n, rfl⟩ | ⟨-, done⟩
  · exact h
  · exact h.raise e n (flagsLegal_not_raiseClears i)
  · exact h.completes done

/-! ### Host writes -/

/-- A host write of a signal parameter clears all that is computed from it, and the bits and their code are not
(10_state.md R34). -/
theorem Block.Coherent.paramWrite (h : b.Coherent P) {mode tsym fs ovsamp : U32} {fc bw : α} :
    (({ b with mode := mode, fc := fc, bw := bw, tsym := tsym, fs := fs, ovsamp := ovsamp } : Block α).clearFlags
      paramWriteClears).Coherent P :=
  ⟨(cleared_gone ·), (h.coded <| hasFlags_of_clearMask ·), (cleared_gone ·), (cleared_gone ·), (cleared_gone ·),
    (cleared_gone ·), (cleared_gone ·)⟩

/-- A host write of a rendering parameter clears `V.OUT`, and nothing else is computed from one (10_state.md R34). -/
theorem Block.Coherent.renderWrite (h : b.Coherent P) {interval volume : α} {count : U32} :
    (({ b with interval := interval, repeatCount := count, volume := volume } : Block α).clearFlags
      renderWriteClears).Coherent P :=
  ⟨(h.cfg <| hasFlags_of_clearMask ·), (h.coded <| hasFlags_of_clearMask ·), (h.sync <| hasFlags_of_clearMask ·),
    (h.up <| hasFlags_of_clearMask ·), (h.down <| hasFlags_of_clearMask ·), (h.asm <| hasFlags_of_clearMask ·),
    (cleared_gone ·)⟩

/-- A host write of the message or of the bits clears all that is computed from them (10_state.md R34). -/
theorem Block.Coherent.messageWrite (h : b.Coherent P) {msgLen : U32} {msg : Buffer Char8} {bits : Buffer Bool} :
    (({ b with msgLen := msgLen, msg := msg, bits := bits } : Block α).clearFlags messageWriteClears).Coherent P :=
  ⟨(h.cfg <| hasFlags_of_clearMask ·), (cleared_gone ·), (h.sync <| hasFlags_of_clearMask ·),
    (h.up <| hasFlags_of_clearMask ·), (h.down <| hasFlags_of_clearMask ·), (cleared_gone ·), (cleared_gone ·)⟩

/-- A host write of `BITLEN`: one that is stored changes the flags as `MAP` does, and one that is not changes flags
alone (10_state.md R34). -/
theorem Block.Coherent.writeBitLen (h : b.Coherent P) (x : U32) : (writeBitLen P x b).Coherent P := by
  unfold Machine.writeBitLen
  split
  · exact ⟨(h.cfg <| completed_kept (i := .map) ·), (completed_gone (i := .map) ·),
      (h.sync <| completed_kept (i := .map) ·), (h.up <| completed_kept (i := .map) ·),
      (h.down <| completed_kept (i := .map) ·), (completed_gone (i := .map) ·), (completed_gone (i := .map) ·)⟩
  · exact h.messageWrite

/-- A host write of a register (10_state.md R34). -/
theorem Block.Coherent.storeReg {n : Nat} {x : HostVal α} (h : b.Coherent P) (ht : storeReg P n x b = .next t) :
    t.Coherent P := by
  rcases storeReg_cases ht with rfl | ⟨_, _, _, _, _, _, rfl⟩ | ⟨_, _, _, rfl⟩ | ⟨_, rfl⟩ | ⟨x, rfl⟩
  · exact h
  · exact h.paramWrite
  · exact h.renderWrite
  · exact h.messageWrite
  · exact h.writeBitLen x

/-- A host write of an element of `MSG` or `BITS` (20_memory.md R65). -/
theorem Block.Coherent.storeMem {sp k : Nat} {x : HostVal α} (h : b.Coherent P)
    (ht : storeMem P sp k x b = .next t) : t.Coherent P := by
  rcases storeMem_cases ht with rfl | ⟨_, -, rfl⟩ | ⟨_, -, rfl⟩
  · exact h
  · exact h.messageWrite
  · exact h.messageWrite

/-- Settles O60: no flag is 1. -/
theorem resetIsCoherent : Obligations.ResetIsCoherent := coherent_of_status_zero rfl

/-- Settles O59: each thing a step can make of the block keeps it coherent. -/
theorem stepKeepsCoherent : Obligations.StepKeepsCoherent := by
  intro s t _ h hs
  refine step_keeps (·.Coherent Config.params) ?command ?illegal ?reg ?mem ?reset h hs
  case command => exact fun i b t hi h ht => h.command hi ht
  case illegal => exact fun b n h => h.raise _ n (flagsLegal_not_raiseClears .nop)
  case reg => exact fun n v b t h ht => h.storeReg ht
  case mem => exact fun sp k v b t h ht => h.storeMem ht
  case reset => exact fun b => coherent_of_status_zero rfl

end Sys2Proof.Machine
end

section
/-!
PROOFS. The host's port: the issue of a command, what a write of each register stores and invalidates, and the writes
that are ignored (10_state.md R21, R22, R34, 20_memory.md R65 to R68).
-/
namespace Sys2Proof.Machine

variable {α : Type} {P : Params α}

/-! ### Commands -/

/-- An integer written to `CMD` is the issue of its low 16 bits (10_state.md R22). -/
theorem regWrite_cmd {v : HostVal NumVal} {x : Int} (h : v.toInt Config.num = some x) (s : State) :
    regWrite 0 v s = issue (BitVec.ofInt 16 x) s := by
  show withInt Config.num v _ = _
  rw [withInt, h]

/-- A legal word issued is its command executed (40_control.md R100). -/
theorem issue_of_decodeWord {w : CmdWord} {i : Instr} (h : decodeWord w = some i) (s : State) :
    issue w s = exec i s := by
  rw [issue, h]

/-- Settles O5: the move is taken, the word issued, and the command executed. -/
theorem stepExecutesTheIssuedCommand : Obligations.StepExecutesTheIssuedCommand := by
  intro s v rest x i pending value word
  calc step s = regWrite 0 v (s.takeMove rest true) := step_of_pending pending
    _ = issue (BitVec.ofInt 16 x) (s.takeMove rest true) := regWrite_cmd value _
    _ = exec i (s.takeMove rest true) := issue_of_decodeWord word _

/-! ### Register and buffer writes -/

/-- A register's number names it alone (10_state.md R21). -/
theorem number_of_regName_ofNumber {n : Nat} {r : RegName} (h : RegName.ofNumber n = some r) : r.number = n := by
  unfold RegName.ofNumber at h
  split at h <;> cases h <;> rfl

/-- A buffer's space number names it alone (10_state.md R32). -/
theorem number_of_space_ofNumber {n : Nat} {sp : Space} (h : Space.ofNumber n = some sp) : sp.number = n := by
  unfold Space.ofNumber at h
  split at h <;> cases h <;> rfl

/-- A write of a register other than `CMD` acts on the block alone (20_memory.md R66). -/
theorem regWrite_of_ne_zero {n : Nat} (h : n ≠ 0) (v : HostVal NumVal) (s : State) :
    regWrite n v s = onBlock (storeReg Config.params n v) s := by
  unfold regWrite
  split
  · exact absurd (number_of_regName_ofNumber ‹_›).symm h
  · rfl

/-- Settles O52: each register's write is its row of 10_state.md R34, once the host's value is taken. -/
theorem registerWritesInvalidate : Obligations.RegisterWritesInvalidate := by
  refine ⟨fun α P s x q => ⟨?finite, ?notFinite, ?integers, ?stored, ?rejected, ?elements⟩, fun s v => ⟨?regs, ?mems⟩⟩
  case finite => exact fun h => ⟨if_pos h, if_pos h, if_pos h, if_pos h⟩
  case notFinite =>
    intro h n hn
    simp only [List.mem_cons, List.not_mem_nil, or_false] at hn
    rcases hn with rfl | rfl | rfl | rfl <;> exact if_neg (Bool.eq_false_iff.mp h)
  case integers => exact ⟨rfl, rfl, rfl, rfl, rfl, rfl⟩
  case stored => exact fun h => congrArg Host.Outcome.next (if_pos h)
  case rejected => exact fun h => congrArg Host.Outcome.next (if_neg (Nat.not_le.mpr h))
  case elements => exact fun k => ⟨fun h => ⟨_, if_pos h, rfl⟩, fun h => ⟨_, if_pos h, rfl⟩⟩
  case regs => exact fun n hn => regWrite_of_ne_zero hn v s
  case mems => exact fun _ _ => rfl

/-- Numbers from 20 on name no register (10_state.md R21). -/
theorem ofNumber_of_twenty_le {n : Nat} (h : 20 ≤ n) : RegName.ofNumber n = none := by
  obtain ⟨k, rfl⟩ := Nat.exists_eq_add_of_le' h
  rfl

/-- A write of a read-only register, or of none, is ignored (10_state.md R21). -/
theorem storeReg_ignored {n : Nat} (h : n ∈ [1, 2, 3, 15, 16, 17, 18, 19] ∨ 20 ≤ n) (v : HostVal α) (b : Block α) :
    storeReg P n v b = .next b := by
  rcases h with readOnly | absent
  · simp only [List.mem_cons, List.not_mem_nil, or_false] at readOnly
    rcases readOnly with rfl | rfl | rfl | rfl | rfl | rfl | rfl | rfl <;> rfl
  · rw [storeReg, ofNumber_of_twenty_le absent]

/-- A write of a space other than `MSG` and `BITS` is ignored (20_memory.md R65, R68). -/
theorem storeMem_ignored {space : Nat} (hm : space ≠ 1) (hb : space ≠ 4) (k : Nat) (v : HostVal α) (b : Block α) :
    storeMem P space k v b = .next b := by
  unfold storeMem
  split
  · exact absurd (number_of_space_ofNumber ‹_›).symm hm
  · exact absurd (number_of_space_ofNumber ‹_›).symm hb
  all_goals rfl

/-- A write of `MSG` beyond its capacity is ignored (20_memory.md R65, R68). -/
theorem storeMem_msg_beyond {k : Nat} (h : P.nmax ≤ k) (x : Int) (b : Block α) :
    storeMem P 1 k (.int x) b = .next b := if_neg (Nat.not_lt.mpr h)

/-- A write of `BITS` beyond its capacity is ignored (20_memory.md R65, R68). -/
theorem storeMem_bits_beyond {k : Nat} (h : P.mmax ≤ k) (x : Int) (b : Block α) :
    storeMem P 4 k (.int x) b = .next b := if_neg (Nat.not_lt.mpr h)

/-- Settles O54: each of these writes leaves the block as it is, and with it the machine. -/
theorem otherWritesAreIgnored : Obligations.OtherWritesAreIgnored := by
  refine fun s v x => ⟨?regs, ?spaces, ?msg, ?bits⟩
  case regs =>
    intro n hn
    rw [regWrite_of_ne_zero (by rintro rfl; revert hn; decide)]
    exact onBlock_next (storeReg_ignored hn v _)
  case spaces => exact fun space k hm hb => onBlock_next (storeMem_ignored hm hb k v _)
  case msg => exact fun k h => onBlock_next (storeMem_msg_beyond h x _)
  case bits => exact fun k h => onBlock_next (storeMem_bits_beyond h x _)

end Sys2Proof.Machine
end

section
/-!
PROOFS. The host's accesses: what a read returns and leaves, the one element a buffer write stores, and the results that
no access touches (20_memory.md R64 to R69, R74).
-/
namespace Sys2Proof.Machine

variable {α : Type} {P : Params α} {b t : Block α} {f : Flags}

/-! ### The element a buffer write stores -/

/-- `MSG` after one of its elements was stored (20_memory.md R65). -/
theorem msgAt_write (b : Block α) (f : Flags) (k j : Nat) (c : Char8) :
    (({ b with msg := b.msg.write k c } : Block α).clearFlags f).msgAt P j = if j = k then c else b.msgAt P j := by
  simp only [Block.msgAt, clearFlags_msg, read_write, Buffer.write_gen]
  split <;> rfl

/-- `BITS` after one of its elements was stored (20_memory.md R65). -/
theorem bitAt_write (b : Block α) (f : Flags) (k j : Nat) (v : Bool) :
    (({ b with bits := b.bits.write k v } : Block α).clearFlags f).bitAt P j = if j = k then v else b.bitAt P j := by
  simp only [Block.bitAt, clearFlags_bits, read_write, Buffer.write_gen]
  split <;> rfl

/-- A write of `MSG` inside its capacity (20_memory.md R65, 10_state.md R34). -/
theorem storeMem_msg {k : Nat} (h : k < P.nmax) (x : Int) (b : Block α) :
    storeMem P 1 k (.int x) b =
      .next (({ b with msg := b.msg.write k (BitVec.ofInt 8 x) } : Block α).clearFlags messageWriteClears) := if_pos h

/-- A write of `BITS` inside its capacity (20_memory.md R65, 10_state.md R34). -/
theorem storeMem_bits {k : Nat} (h : k < P.mmax) (x : Int) (b : Block α) :
    storeMem P 4 k (.int x) b =
      .next (({ b with bits := b.bits.write k ((BitVec.ofInt 1 x).getLsbD 0) } : Block α).clearFlags
        messageWriteClears) := if_pos h

/-- The bit stored of an integer is its parity (20_memory.md R65). -/
theorem lowBit_ofInt (x : Int) : (BitVec.ofInt 1 x).getLsbD 0 = true ↔ x % 2 = 1 := by
  have bit : (BitVec.ofInt 1 x).getLsbD 0 = decide ((BitVec.ofInt 1 x).toNat % 2 = 1) := by
    rw [BitVec.getLsbD, Nat.testBit_zero]
  rw [bit, decide_eq_true_iff, BitVec.toNat_ofInt]
  omega

/-- Settles O53: a write inside the capacity is one stored element, and each element reads as
`msgAt_write` and `bitAt_write` say. -/
theorem bufferWritesStoreOneElement : Obligations.BufferWritesStoreOneElement := by
  refine fun s k x => ⟨fun inside => ?msg, fun inside => ?bits⟩
  case msg =>
    refine ⟨_, onBlock_next (storeMem_msg inside x _), rfl, ?same, fun j other => ?other⟩
    case same => exact (msgAt_write _ _ k k _).trans (if_pos rfl)
    case other => exact (msgAt_write _ _ k j _).trans (if_neg other)
  case bits =>
    refine ⟨_, onBlock_next (storeMem_bits inside x _), rfl, ?same, fun j other => ?other⟩
    case same => exact ((bitAt_write _ _ k k _).trans (if_pos rfl)) ▸ lowBit_ofInt x
    case other => exact (bitAt_write _ _ k j _).trans (if_neg other)

/-! ### What host writes keep -/

/-- `t` has the error registers and the commands' results of `b`, and no flag that `b` has not, but for `V.BITS`
(20_memory.md R74). -/
structure SameResults (b t : Block α) : Prop where
  err : t.err = b.err
  errInfo : t.errInfo = b.errInfo
  codedLen : t.codedLen = b.codedLen
  parCnt : t.parCnt = b.parCnt
  asmLen : t.asmLen = b.asmLen
  gap : t.gap = b.gap
  outLen : t.outLen = b.outLen
  coded : t.coded = b.coded
  sync : t.sync = b.sync
  up : t.up = b.up
  down : t.down = b.down
  asm : t.asm = b.asm
  out : t.out = b.out
  flags : hasFlags (b.status ||| vBits) t.status = true

/-- Every flag of `f` is 1 in `st` where `f` has none outside `st`. -/
theorem hasFlags_iff_and_not {st f : Flags} : hasFlags st f = true ↔ f &&& ~~~st = 0#8 := by
  rw [BitVec.and_comm, ← BitVec.ofNat_eq_ofNat, ← hasFlags_not_iff, BitVec.not_not]

/-- Clearing flags sets none. -/
theorem hasFlags_clearMask {c st f : Flags} (h : hasFlags c st = true) : hasFlags c (clearMask f st) = true := by
  rw [hasFlags_iff_getLsbD] at h ⊢
  intro k one
  rw [clearMask, BitVec.getLsbD_and, Bool.and_eq_true] at one
  exact h k one.1

/-- Flags that are set are inside a mask that holds them. -/
theorem hasFlags_or {c st f : Flags} (h : hasFlags c st = true) (set : hasFlags c f = true) :
    hasFlags c (st ||| f) = true := by
  rw [hasFlags_iff_getLsbD] at *
  intro k one
  rw [BitVec.getLsbD_or, Bool.or_eq_true] at one
  exact one.elim (h k) (set k)

/-- A mask is 1 in itself. -/
theorem hasFlags_self (st : Flags) : hasFlags st st = true := beq_iff_eq.mpr BitVec.and_self

/-- A write that clears flags sets none (10_state.md R34). -/
theorem hasFlags_cleared (f st : Flags) : hasFlags (st ||| vBits) (clearMask f st) = true :=
  hasFlags_clearMask (hasFlags_or_left (hasFlags_self st))

/-- A write that clears flags and sets `V.BITS` sets no other (10_state.md R34). -/
theorem hasFlags_cleared_or_vBits (f st : Flags) : hasFlags (st ||| vBits) (clearMask f st ||| vBits) = true :=
  hasFlags_or (hasFlags_cleared f st) (BitVec.or_comm vBits st ▸ hasFlags_or_left (hasFlags_self vBits))

/-- The inputs are no results: any of them may be written, and flags cleared or `V.BITS` set with it. -/
theorem SameResults.ofInputs {mode tsym fs ovsamp repeatCount msgLen bitLen : U32} {fc bw interval volume : α}
    {msg : Buffer Char8} {bits : Buffer Bool} {st : Flags} (flags : hasFlags (b.status ||| vBits) st = true) :
    SameResults b { b with
      mode := mode, fc := fc, bw := bw, tsym := tsym, fs := fs, ovsamp := ovsamp, interval := interval
      repeatCount := repeatCount, volume := volume, msgLen := msgLen, bitLen := bitLen, msg := msg, bits := bits
      status := st } :=
  ⟨rfl, rfl, rfl, rfl, rfl, rfl, rfl, rfl, rfl, rfl, rfl, rfl, rfl, flags⟩

/-- A block has its own results. -/
theorem SameResults.refl (b : Block α) : SameResults b b := .ofInputs (hasFlags_or_left (hasFlags_self _))

/-- A host write of `BITLEN` sets `V.BITS` at most (10_state.md R34). -/
theorem writeBitLen_sameResults (x : U32) (b : Block α) : SameResults b (writeBitLen P x b) := by
  unfold writeBitLen
  split
  · exact .ofInputs (hasFlags_cleared_or_vBits _ _)
  · exact .ofInputs (hasFlags_cleared _ _)

/-- A host write of a register other than `CMD` (10_state.md R34). -/
theorem storeReg_sameResults {n : Nat} {v : HostVal α} (h : storeReg P n v b = .next t) : SameResults b t := by
  rcases storeReg_cases h with rfl | ⟨_, _, _, _, _, _, rfl⟩ | ⟨_, _, _, rfl⟩ | ⟨_, rfl⟩ | ⟨x, rfl⟩
  · exact .refl _
  · exact .ofInputs (hasFlags_cleared _ _)
  · exact .ofInputs (hasFlags_cleared _ _)
  · exact .ofInputs (hasFlags_cleared _ _)
  · exact writeBitLen_sameResults x b

/-- A host write of a buffer (20_memory.md R65). -/
theorem storeMem_sameResults {space k : Nat} {v : HostVal α} (h : storeMem P space k v b = .next t) :
    SameResults b t := by
  rcases storeMem_cases h with rfl | ⟨_, -, rfl⟩ | ⟨_, -, rfl⟩
  · exact .refl _
  · exact .ofInputs (hasFlags_cleared _ _)
  · exact .ofInputs (hasFlags_cleared _ _)

/-- A host move that is no reset and no write of `CMD` (20_memory.md R74). -/
theorem perform_sameResults {m : HostMove NumVal} {s t : State} (noReset : m ≠ .reset)
    (noCommand : ∀ v, m ≠ .regWrite 0 v) (h : perform m s = .next t) : SameResults s.toBlock t.toBlock := by
  cases m with
  | regRead n => cases h; exact .refl _
  | memRead space k => cases h; exact .refl _
  | reset => exact absurd rfl noReset
  | memWrite space k v =>
    obtain ⟨b, hb, rfl⟩ := onBlock_eq_next h
    exact storeMem_sameResults hb
  | regWrite n v =>
    rcases regWrite_cases h with ⟨rfl, -⟩ | ⟨-, b, hb, rfl⟩
    · exact absurd rfl (noCommand v)
    · exact storeReg_sameResults hb

/-- Settles O55: the step is the host's move, and no such move touches a result. -/
theorem hostCannotWriteResults : Obligations.HostCannotWriteResults := by
  intro s t m rest pending noReset noCommand hs
  rw [step_of_pending pending] at hs
  have same := perform_sameResults noReset noCommand hs
  rw [takeMove_toBlock] at same
  exact ⟨same.err, same.errInfo, same.codedLen, same.parCnt, same.asmLen, same.gap, same.outLen, same.coded,
    same.sync, same.up, same.down, same.asm, same.out, hasFlags_iff_and_not.mp same.flags⟩

/-! ### Reads -/

/-- Settles O50: a read's move is no change, so that neither the block nor `epoch`, all that a read looks at, has
changed when it is repeated. -/
theorem readsHaveNoEffect : Obligations.ReadsHaveNoEffect := by
  refine fun s m rest pending => ⟨?registers, ?buffers⟩
  case registers =>
    rintro n rfl
    exact ⟨step_of_pending pending, rfl⟩
  case buffers =>
    rintro space k rfl
    exact ⟨step_of_pending pending, rfl⟩

/-- A read of a produced `Num` buffer that is valid, below its length (20_memory.md R64). -/
theorem readSamples_valid {epoch len k : Nat} {sp : Space} {l : List α} {v : α} (valid : b.status &&& f = f)
    (below : k < len) (held : l[k]? = some v) : readSamples P epoch sp f len l k b = .num v := by
  rw [readSamples, if_pos ⟨beq_iff_eq.mpr valid, below⟩, List.getD_eq_getElem?_getD, held, Option.getD_some]

/-- A read of `CODED` that is valid, below its length (20_memory.md R64). -/
theorem readSpace_coded_valid {epoch k : Nat} {v : Bool} (valid : b.status &&& vCoded = vCoded)
    (below : k < b.codedLen.toNat) (held : b.coded[k]? = some v) : readSpace P epoch .coded k b = bitVal v := by
  rw [readSpace, if_pos ⟨beq_iff_eq.mpr valid, below⟩, List.getD_eq_getElem?_getD, held, Option.getD_some]

/-- A read of `OUT` that is valid, below its length, is signed (20_memory.md R62, R64). -/
theorem readSpace_out_valid {epoch k : Nat} {v : Sample} (valid : b.status &&& vOut = vOut)
    (below : k < b.outLen.toNat) (held : b.out[k]? = some v) : readSpace P epoch .out k b = .int v.toInt := by
  have inside : k < b.out.length := (List.getElem?_eq_some_iff.mp held).1
  rw [readSpace, if_pos ⟨beq_iff_eq.mpr valid, below, inside⟩, List.getD_eq_getElem?_getD, held, Option.getD_some]

/-- Settles O51: each register is its row of 20_memory.md R66, and each valid element its row of R64. -/
theorem readsReturnTheContents : Obligations.ReadsReturnTheContents := by
  refine fun s => ⟨rfl, ?msg, ?luts, ?bits, ?coded, ?sync, ?up, ?down, ?asm, ?out⟩
  case msg => exact fun k below inside => if_pos ⟨below, inside⟩
  case luts => exact fun k inside => ⟨if_pos inside, if_pos inside⟩
  case bits => exact fun k valid below => if_pos ⟨beq_iff_eq.mpr valid, below⟩
  case coded => exact fun k v => readSpace_coded_valid
  case sync => exact fun k v => readSamples_valid
  case up => exact fun k v => readSamples_valid
  case down => exact fun k v => readSamples_valid
  case asm => exact fun k v => readSamples_valid
  case out => exact fun k v => readSpace_out_valid

end Sys2Proof.Machine
end

section
/-!
PROOFS. The encoding: a legal word is the word of one command, fields and all, and every other word is illegal
(30_encoding.md R80 to R85).
-/
namespace Sys2Proof

variable {w : CmdWord} {i j : Instr} {arg : BitVec 8}

/-! ### The legal words -/

/-- A word is its two fields, `op` over `arg` (30_encoding.md R80). -/
theorem wordOp_append_wordArg (w : CmdWord) : wordOp w ++ wordArg w = w := by
  rw [wordOp, wordArg, BitVec.extractLsb'_append_extractLsb'_eq_extractLsb' (by rfl), BitVec.extractLsb'_eq_self]

/-- The word of a command decodes to it (30_encoding.md R84). -/
@[simp] theorem decodeWord_encode (i : Instr) : decodeWord (encode i) = some i := by cases i <;> rfl

/-- A word of format C0 is its opcode's command and has no operand (30_encoding.md R81). -/
theorem decodeC0_eq_ok (h : decodeC0 j arg = .ok i) : i = j ∧ arg = 0#8 := by
  unfold decodeC0 at h
  split at h <;> cases h
  exact ⟨rfl, ‹_›⟩

/-- A word of format C1 is a chirp, and its operand that chirp's (30_encoding.md R82, R83). -/
theorem decodeC1_eq_ok (h : decodeC1 arg = .ok i) : opOf i = 4#8 ∧ arg = argOf i := by
  unfold decodeC1 at h
  split at h <;> cases h <;> exact ⟨rfl, BitVec.eq_of_toNat_eq ‹_›⟩

/-- A legal word has the fields of its command (30_encoding.md R84). -/
theorem decode_eq_ok (h : decode w = .ok i) : wordOp w = opOf i ∧ wordArg w = argOf i := by
  unfold decode at h
  split at h
  case h_5 op =>
    obtain ⟨chirp, arg⟩ := decodeC1_eq_ok h
    exact ⟨(BitVec.eq_of_toNat_eq op).trans chirp.symm, arg⟩
  case h_10 => cases h
  all_goals
    obtain ⟨rfl, arg⟩ := decodeC0_eq_ok h
    exact ⟨BitVec.eq_of_toNat_eq ‹_›, arg⟩

/-- `decodeWord` answers what `decode` does, without the reason. -/
theorem decodeWord_eq_some : decodeWord w = some i ↔ decode w = .ok i := by
  unfold decodeWord
  split <;> simp [*]

/-- A legal word is the word of its command (30_encoding.md R84). -/
theorem encode_of_decodeWord (h : decodeWord w = some i) : encode i = w := by
  obtain ⟨op, arg⟩ := decode_eq_ok (decodeWord_eq_some.mp h)
  rw [encode, ← op, ← arg, wordOp_append_wordArg]

/-- Settles O3: a legal word has its command's fields, and a word is its fields. -/
theorem decodeInvertsEncode : Obligations.DecodeInvertsEncode := ⟨decodeWord_encode, fun _ _ => encode_of_decodeWord⟩

/-! ### The illegal words -/

/-- A word is illegal when it is no command's word (30_encoding.md R84). -/
theorem decodeWord_eq_none (h : ∀ i, encode i ≠ w) : decodeWord w = none :=
  Option.eq_none_iff_forall_ne_some.mpr fun i legal => h i (encode_of_decodeWord legal)

/-- Settles O2: the eleven words are the commands' words. -/
theorem opcodeMapDecodes : Obligations.OpcodeMapDecodes := by
  refine ⟨⟨decodeWord_encode .nop, decodeWord_encode .init, decodeWord_encode .map, decodeWord_encode .fec,
    decodeWord_encode .chirpSync, decodeWord_encode .chirpUp, decodeWord_encode .chirpDown, decodeWord_encode .asm,
    decodeWord_encode .rend, decodeWord_encode .run, decodeWord_encode .clrErr⟩, fun w absent => ?_⟩
  refine decodeWord_eq_none ?_
  rintro i rfl
  cases i <;> exact absurd (by decide) absent

end Sys2Proof

namespace Sys2Proof.Machine

variable {w : CmdWord} {s : State}

/-- An illegal word issued with no error recorded raises `IllegalCommand` (60_exceptions.md R257). -/
theorem issue_illegal (h : decodeWord w = none) (noError : s.err = 0) :
    issue w s = .next { s with err := 7, errInfo := w.setWidth 32 } := by
  have raised : illegalWord w s.toBlock = .next { s.toBlock with err := 7, errInfo := w.setWidth 32 } := by
    rw [illegalWord, if_neg (not_not.mpr noError), raise_no_flags, BlockError.code]
  rw [issue, h]
  exact onBlock_next raised

/-- An illegal word issued while an error is recorded is ignored (40_control.md R100). -/
theorem issue_illegal_halted (h : decodeWord w = none) (error : s.err ≠ 0) : issue w s = .next s := by
  rw [issue, h]
  exact onBlock_next (if_pos error)

/-- Settles O4: no command's word is of one of the three kinds. -/
theorem illegalWordRaises : Obligations.IllegalWordRaises := by
  intro w s op arg kind
  have illegal : decodeWord w = none := by
    refine decodeWord_eq_none ?_
    rintro i rfl
    cases i <;> exact absurd kind (by decide)
  exact ⟨illegal, issue_illegal illegal, issue_illegal_halted illegal⟩

end Sys2Proof.Machine
end

section
/-!
PROOFS. The common prologue and the control commands `NOP`, `INIT` and `CLRERR` (40_control.md R100 to R105).
-/
namespace Sys2Proof.Machine

variable {α : Type} {P : Params α} {b : Block α} {i : Instr} {w : CmdWord} {s : State}

/-! ### The prologue -/

/-- A command that needs no flag misses none (40_control.md R100). -/
theorem missingFlags_of_needs_nothing (h : needFlags i = 0) : missingFlags i b = 0 := by
  rw [missingFlags, h]
  exact BitVec.zero_and

/-- A command that misses a flag it needs raises `SequenceError` with the missing flags (40_control.md R100). -/
theorem commandUnder_missing (noError : b.err = 0) (missing : missingFlags i b ≠ 0) :
    commandUnder P i b = .next (raise .sequenceError ((missingFlags i b).setWidth 32) (raiseClears i) b) := by
  rcases commandUnder_cases P i b with ⟨error, -, -⟩ | ⟨-, -, -, raised⟩ | ⟨-, none, -⟩
  · exact absurd noError error
  · exact raised
  · exact absurd none missing

/-- A word other than that of `CLRERR` is ignored while an error is recorded, legal or not (40_control.md R100). -/
theorem issue_halted (error : s.err ≠ 0) (other : w ≠ encode .clrErr) : issue w s = .next s := by
  cases word : decodeWord w with
  | none => exact issue_illegal_halted word error
  | some i =>
    rw [issue_of_decodeWord word]
    refine exec_halted i s error ?_
    rintro rfl
    exact other (encode_of_decodeWord word).symm

/-- Settles O7: the four ways are the halted block, the illegal word, the missing flag and the command's own rule. -/
theorem commonPrologue : Obligations.CommonPrologue := by
  refine ⟨by decide, fun w s => ⟨issue_halted, fun noError word => issue_illegal word noError, ?missing, ?own⟩⟩
  case missing =>
    intro i noError word missing
    rw [issue_of_decodeWord word, exec_eq]
    exact onBlock_next (commandUnder_missing noError missing)
  case own =>
    intro i acts word ready
    rw [issue_of_decodeWord word]
    refine exec_own i s (acts.imp_right ?_) ready
    rintro rfl
    exact (Option.some.inj word).symm

/-! ### `NOP` and `CLRERR` -/

/-- `NOP` leaves every block as it is (40_control.md R101). -/
theorem nopCommand_eq (b : Block α) : nopCommand b = .next b := by
  rcases prologue_cases .nop .next b with ⟨-, ignored⟩ | ⟨-, missing, -⟩ | ⟨-, -, own⟩
  · exact ignored
  · exact absurd (missingFlags_of_needs_nothing rfl) missing
  · exact own

/-- Settles O11: the word `0x0000` decodes to `NOP`, which leaves the block as it is. -/
theorem nopChangesNothing : Obligations.NopChangesNothing := by
  refine ⟨by decide, fun s => ?_⟩
  have nop : exec .nop s = .next s := onBlock_next (nopCommand_eq s.toBlock)
  exact ⟨nop, (issue_of_decodeWord (decodeWord_encode .nop) s).trans nop⟩

/-- With no error recorded there is nothing to clear (40_control.md R105). -/
theorem clearError_eq_self (err : b.err = 0) (errInfo : b.errInfo = 0) : clearError b = b := by
  cases b
  cases err
  cases errInfo
  rfl

/-- Settles O12: `CLRERR` has no prologue, and every other command is ignored while an error is recorded. -/
theorem clrErrClearsTheError : Obligations.ClrErrClearsTheError := by
  refine ⟨by decide, fun s => ⟨rfl, fun err errInfo => ?_, fun i error other => exec_halted i s error other⟩⟩
  have same : clrErrCommand s.toBlock = .next s.toBlock := congrArg _ (clearError_eq_self err errInfo)
  exact onBlock_next same

/-! ### `INIT` -/

/-- `INIT` completes by setting `V.CFG` alone (10_state.md R35). -/
theorem completed_init (b : Block α) : b.completed .init = { b with status := b.status ||| 0x01#8 } := by
  have kept : clearMask 0#8 b.status = b.status := BitVec.and_allOnes
  rw [Block.completed, completedStatus, completionClears, kept, completionSets, vCfg]

/-- `INIT` with no error recorded executes its own rule: it needs no flag (40_control.md R102). -/
theorem initCommand_eq (noError : b.err = 0) : initCommand P b = initBody P b :=
  prologue_ready noError (missingFlags_of_needs_nothing rfl)

/-- The values every check of `INIT` accepts (40_control.md R102). -/
theorem initFails_eq_none (mode : b.mode = 0) (fc : P.num.lt P.num.zero b.fc = true)
    (bw : P.num.lt P.num.zero b.bw = true) (tsym : 1 ≤ b.tsym.toNat) (tmax : b.tsym.toNat ≤ P.tmax)
    (fs : 1 ≤ b.fs.toNat) (ovsamp : b.ovsamp.toNat < b.tsym.toNat) : initFails P b = none := by
  rw [initFails, if_neg (not_not.mpr mode), if_neg (not_not.mpr fc), if_neg (not_not.mpr bw), if_neg (by omega),
    if_neg (by omega), if_neg (by omega)]

/-- Settles O13: every check passes. -/
theorem initCompletes : Obligations.InitCompletes := by
  intro s noError mode fc bw tsym tmax fs ovsamp
  have checks : initFails Config.params s.toBlock = none :=
    initFails_eq_none mode (decide_eq_true fc) (decide_eq_true bw) tsym tmax fs ovsamp
  have done : initCommand Config.params s.toBlock = .next { s.toBlock with status := s.status ||| 0x01#8 } := by
    rw [initCommand_eq noError, initBody, checks, completed_init]
  exact onBlock_next done

/-- Settles O14: the checks stand in `initFails` in this order, and each gives its register's number. -/
theorem initChecksInOrder : Obligations.InitChecksInOrder := by
  refine ⟨fun α P s noError => ?_, fun s => rfl⟩
  intro fails
  rw [initCommand_eq noError, initBody, initFails]
  simp only [Bool.not_eq_true, ge_iff_le, gt_iff_lt]
  split_ifs
  case neg => rw [completed_init]
  all_goals rfl

end Sys2Proof.Machine
end

section
/-!
PROOFS. Over exact numbers every command answers, but for the refusal of 41_symbol_mapper.md R123: every sample `REND`
quantizes is in range (40_control.md R107, 45_renderer_quantizer.md R228).
-/
namespace Sys2Proof.Machine

/-! ### Commands that answer over every number domain -/

section

variable {α : Type}

/-- `CHIRP` raises or completes (43_chirp_synthesizer.md R181). -/
theorem chirpBody_answers (P : Params α) (sel : ChirpSel) (b : Block α) :
    ∃ t, chirpBody P sel b = .next t := by
  unfold chirpBody
  split <;> exact ⟨_, rfl⟩

/-- `INIT` raises or completes (40_control.md R102). -/
theorem initBody_answers (P : Params α) (b : Block α) : ∃ t, initBody P b = .next t := by
  unfold initBody
  split <;> exact ⟨_, rfl⟩

/-- `MAP` raises, completes, or is refused on a message that has no meaning to it (41_symbol_mapper.md R123). -/
theorem mapBody_answers (P : Params α) (b : Block α) :
    (∃ t, mapBody P b = .next t) ∨ (mapRefuses P b ∧ mapBody P b = .refused .lowerCaseUnfixed) := by
  rcases mapBody_cases P b with ⟨-, raised⟩ | refused | ⟨-, -, -, ⟨k, -, raised⟩ | ⟨bs, -, -, completed⟩⟩
  · exact .inl ⟨_, raised⟩
  · exact .inr refused
  · exact .inl ⟨_, raised⟩
  · exact .inl ⟨_, completed⟩

/-- A command answers, or does what its own rule says (40_control.md R100). -/
theorem commandUnder_next_or_own (P : Params α) (i : Instr) (b : Block α) :
    (∃ t, commandUnder P i b = .next t) ∨ commandUnder P i b = ownRule P i b := by
  rcases commandUnder_cases P i b with ⟨-, -, ignored⟩ | ⟨-, -, -, raised⟩ | ⟨-, -, own⟩
  · exact .inl ⟨_, ignored⟩
  · exact .inl ⟨_, raised⟩
  · exact .inr own

/-- `MAP` answers, or is refused on a message that has no meaning to it (41_symbol_mapper.md R123). -/
theorem mapCommand_answers (P : Params α) (b : Block α) :
    (∃ t, commandUnder P .map b = .next t) ∨
      (mapRefuses P b ∧ commandUnder P .map b = .refused .lowerCaseUnfixed) := by
  rcases commandUnder_next_or_own P .map b with answers | own
  · exact .inl answers
  · rw [own]
    exact mapBody_answers P b

/-- The length of what is replicated (45_renderer_quantizer.md R222, R223). -/
@[simp] theorem replicateWithGap_length (count gap : Nat) (one : List Sample) :
    (replicateWithGap count gap one).length = totalLength count one.length gap := by
  simp [replicateWithGap, totalLength]

end

/-! ### `REND` over exact numbers -/

section

variable {K : Type} [Field K] [LinearOrder K] [FloorRing K] [IsStrictOrderedRing K] {pi : K} {sin cos : K → K}
  {P : Params K} {b : Block K} {i : Instr}

/-- Where every check of `REND` passes, every sample is in range and the signal is rendered (45_renderer_quantizer.md
R228). -/
theorem rendered_eq_some {asm : List K} (exactNumbers : P.num = exactNum pi sin cos)
    (checks : rendFails P b asm = none) :
    ∃ out, b.rendered P asm = some out ∧
      out.length = totalLength b.repeatCount.toNat asm.length (gapSamples P.num b.interval b.fs.toNat) := by
  obtain ⟨-, nonneg, le_one, -, -, peak⟩ := rendFails_none checks
  rw [exactNumbers] at nonneg le_one peak
  have positive : 0 < peakOf (exactNum pi sin cos) asm :=
    (peakOf_nonneg asm).lt_of_ne (Ne.symm (of_decide_eq_false peak))
  have inRange : ∀ x ∈ asm, -32768 ≤ quantized (exactNum pi sin cos) b.volume (peakOf (exactNum pi sin cos) asm) x ∧
      quantized (exactNum pi sin cos) b.volume (peakOf (exactNum pi sin cos) asm) x ≤ 32767 := by
    intro x hx
    obtain ⟨lo, hi⟩ := quantized_range (pi := pi) (sin := sin) (cos := cos) (of_decide_eq_true nonneg)
      (of_decide_eq_true le_one) positive (abs_le_peakOf hx)
    exact ⟨by omega, hi⟩
  refine ⟨_, by rw [Block.rendered, renderSignal, exactNumbers, quantizeAll_some asm inRange, Option.map_some], ?_⟩
  rw [replicateWithGap_length, List.length_map, exactNumbers]

/-- `REND` raises or completes over exact numbers: no sample is out of range (45_renderer_quantizer.md R228). -/
theorem rendBody_answers (exactNumbers : P.num = exactNum pi sin cos) (b : Block K) : ∃ t, rendBody P b = .next t := by
  unfold rendBody
  dsimp only
  split
  · exact ⟨_, rfl⟩
  · obtain ⟨out, rendered, -⟩ := rendered_eq_some exactNumbers ‹_›
    rw [rendered]
    exact ⟨_, rfl⟩

/-- Over exact numbers every command but `MAP` and `RUN` answers in every state (40_control.md R107). -/
theorem commandUnder_answers (exactNumbers : P.num = exactNum pi sin cos) (notMap : i ≠ .map) (notRun : i ≠ .run)
    (b : Block K) : ∃ t, commandUnder P i b = .next t := by
  refine (commandUnder_next_or_own P i b).elim id fun own => ?_
  rw [own]
  cases i with
  | nop | fec | asm | clrErr => exact ⟨_, rfl⟩
  | init => exact initBody_answers P b
  | map => exact absurd rfl notMap
  | chirpSync => exact chirpBody_answers P .sync b
  | chirpUp => exact chirpBody_answers P .up b
  | chirpDown => exact chirpBody_answers P .down b
  | rend => exact rendBody_answers exactNumbers b
  | run => exact absurd rfl notRun

end

/-! ### `RUN` as its stages, one after another -/

section

variable {α : Type} {P : Params α} {b t : Block α} {i : Instr} {l : List Instr}

/-- The eight stages of `RUN` (40_control.md R106). -/
def pipeline : List Instr := [.init, .map, .fec, .chirpSync, .chirpUp, .chirpDown, .asm, .rend]

/-- Some commands issued one after another, from an outcome on (40_control.md R106). -/
def runStages (P : Params α) (l : List Instr) (o : BlockResult α) : BlockResult α :=
  l.foldl (fun o i => andThen o (commandUnder P i)) o

/-- `RUN` runs the stages of the pipeline (40_control.md R106). -/
theorem runBody_eq_runStages (P : Params α) (b : Block α) : runBody P b = runStages P pipeline (.next b) := rfl

@[simp] theorem runStages_nil (o : BlockResult α) : runStages P [] o = o := rfl

@[simp] theorem runStages_cons_next : runStages P (i :: l) (.next b) = runStages P l (commandUnder P i b) := rfl

/-- Stages in two parts. -/
theorem runStages_append (l m : List Instr) (o : BlockResult α) :
    runStages P (l ++ m) o = runStages P m (runStages P l o) := List.foldl_append

/-- A refusal ends the stages. -/
theorem runStages_refused (r : Refusal) : runStages P l (.refused r) = .refused r := by
  induction l with
  | nil => rfl
  | cons i l ih => exact ih

/-- Stages each of which answers, answer. -/
theorem runStages_answers (each : ∀ i ∈ l, ∀ b, ∃ t, commandUnder P i b = .next t) (b : Block α) :
    ∃ t, runStages P l (.next b) = .next t := by
  induction l generalizing b with
  | nil => exact ⟨b, rfl⟩
  | cons i l ih =>
    obtain ⟨t, ht⟩ := each i List.mem_cons_self b
    rw [runStages_cons_next, ht]
    exact ih (fun j hj => each j (List.mem_cons_of_mem i hj)) t

/-- While an error is recorded the stages change nothing (40_control.md R106). -/
theorem runStages_halted (error : b.err ≠ 0) (stages : .clrErr ∉ l) : runStages P l (.next b) = .next b := by
  induction l with
  | nil => rfl
  | cons i l ih =>
    obtain ⟨first, rest⟩ := List.ne_and_not_mem_of_not_mem_cons stages
    rw [runStages_cons_next, commandUnder_halted P i b error first.symm]
    exact ih rest

/-- `RUN` with no error recorded runs its stages: it needs no flag (40_control.md R106). -/
theorem runCommand_eq (noError : b.err = 0) : runCommand P b = runStages P pipeline (.next b) :=
  prologue_ready noError (missingFlags_of_needs_nothing rfl)

/-! ### Every command answers -/

/-- The message decides whether `MAP` refuses it (41_symbol_mapper.md R123). -/
theorem mapRefuses_of_same_message (msg : t.msg = b.msg) (msgLen : t.msgLen = b.msgLen) (refuses : mapRefuses P t) :
    mapRefuses P b := by
  have same : t.msgAt P = b.msgAt P := by
    funext k
    rw [Block.msgAt, Block.msgAt, msg]
  rwa [mapRefuses, Block.msgList, same, msgLen] at refuses

/-- No command but `RUN`, through others, touches the message (10_state.md R37). -/
theorem commandUnder_keeps_message (hi : i ≠ .run) (h : commandUnder P i b = .next t) :
    t.msg = b.msg ∧ t.msgLen = b.msgLen := by
  rcases commandUnder_next hi h with ⟨-, rfl⟩ | ⟨e, n, rfl⟩ | ⟨-, done⟩
  · exact ⟨rfl, rfl⟩
  · exact ⟨rfl, rfl⟩
  · cases done with
    | chirp sel l => exact ⟨by simp, by simp⟩
    | nop | init | map | fec | asm | rend | clrErr => exact ⟨rfl, rfl⟩

end

section

variable {K : Type} [Field K] [LinearOrder K] [FloorRing K] [IsStrictOrderedRing K] {pi : K} {sin cos : K → K}
  {P : Params K}

/-- Over exact numbers `RUN` answers, or is refused on a message that `MAP` refuses (40_control.md R106, R107). -/
theorem runBody_answers (exactNumbers : P.num = exactNum pi sin cos) (b : Block K) :
    (∃ t, runBody P b = .next t) ∨ (mapRefuses P b ∧ runBody P b = .refused .lowerCaseUnfixed) := by
  obtain ⟨first, init⟩ := commandUnder_answers exactNumbers (i := .init) (by decide) (by decide) b
  rw [runBody_eq_runStages, pipeline, runStages_cons_next, init, runStages_cons_next]
  rcases mapCommand_answers P first with ⟨second, map⟩ | ⟨refuses, map⟩
  · rw [map]
    refine .inl (runStages_answers (fun i stage => ?_) second)
    exact commandUnder_answers exactNumbers (by rintro rfl; exact absurd stage (by decide))
      (by rintro rfl; exact absurd stage (by decide))
  · obtain ⟨msg, msgLen⟩ := commandUnder_keeps_message (by decide) init
    rw [map]
    exact .inr ⟨mapRefuses_of_same_message msg msgLen refuses, runStages_refused _⟩

/-- Every command over exact numbers (40_control.md R107, 41_symbol_mapper.md R123). -/
theorem commandUnder_answers_or_refuses (exactNumbers : P.num = exactNum pi sin cos) (i : Instr) (b : Block K) :
    (∃ t, commandUnder P i b = .next t) ∨
      ((i = .map ∨ i = .run) ∧ mapRefuses P b ∧ commandUnder P i b = .refused .lowerCaseUnfixed) := by
  by_cases map : i = .map
  · subst map
    exact (mapCommand_answers P b).imp_right fun refused => ⟨.inl rfl, refused⟩
  by_cases run : i = .run
  · subst run
    refine (commandUnder_next_or_own P .run b).elim .inl fun own => ?_
    rw [own]
    exact (runBody_answers exactNumbers b).imp_right fun refused => ⟨.inr rfl, refused⟩
  exact .inl (commandUnder_answers exactNumbers map run b)

end

/-- A message `MAP` refuses has a character `a` to `f` (41_symbol_mapper.md R123). -/
theorem exists_lower_of_mapRefuses {α : Type} {P : Params α} {b : Block α} (h : mapRefuses P b) :
    ∃ k, k < b.msgLen.toNat ∧ 0x61 ≤ (b.msgAt P k).toNat ∧ (b.msgAt P k).toNat ≤ 0x66 := by
  obtain ⟨-, -, unfixed⟩ := h
  obtain ⟨-, c, member, lower⟩ := (caseUnfixed_iff _ _).mp unfixed
  obtain ⟨k, inside, rfl⟩ := List.mem_map.mp member
  exact ⟨k, List.mem_range.mp inside, of_decide_eq_true lower⟩

/-- Settles O47: every command answers or refuses under exact numbers, and the machine's are exact. -/
theorem everyCommandAnswers : Obligations.EveryCommandAnswers := by
  refine ⟨?generic, fun i s => ?_⟩
  case generic =>
    intro K _ _ _ _ pi sin cos P i s exactNumbers
    exact commandUnder_answers_or_refuses exactNumbers i s
  rcases commandUnder_answers_or_refuses (P := Config.params) rfl i s.toBlock with ⟨t, answers⟩ | ⟨which, refuses, e⟩
  · exact .inl ⟨_, by rw [exec_eq]; exact onBlock_next answers⟩
  · exact .inr ⟨which, by rw [exec_eq]; exact onBlock_refused e, exists_lower_of_mapRefuses refuses⟩

/-! ### `RUN` stops at the first error -/

/-- The stages up to `k`, executed one from the state another left, are the first stages of `RUN` (40_control.md
R106). -/
theorem runStages_take {s : State} {k : Nat} {states : Nat → State} (start : states 0 = s)
    (each : ∀ j i, j < k → pipeline[j]? = some i → exec i (states j) = .next (states (j + 1))) (inside : k ≤ 8) :
    runStages Config.params (pipeline.take k) (.next s.toBlock) = .next (states k).toBlock ∧
      states k = { s with toBlock := (states k).toBlock } := by
  induction k with
  | zero =>
    subst start
    exact ⟨rfl, rfl⟩
  | succ k ih =>
    obtain ⟨before, same⟩ := ih (fun j i below => each j i (by omega)) (by omega)
    have stage : pipeline[k]? = some pipeline[k] := List.getElem?_eq_getElem (show k < 8 by omega)
    obtain ⟨b, command, after⟩ := exec_eq_next (each k _ k.lt_succ_self stage)
    rw [List.take_add_one, stage, Option.toList_some, runStages_append, before, runStages_cons_next, command, after,
      same]
    exact ⟨rfl, rfl⟩

/-- Settles O48: the stages up to `k` lead to the state after it, and from there the rest change nothing. -/
theorem runStopsAtTheFirstError : Obligations.RunStopsAtTheFirstError := by
  intro s k states stages noError inside start each stops
  obtain ⟨first, same⟩ := runStages_take start (fun j i below => each j i (by omega)) (k := k + 1) (by omega)
  have rest : runStages Config.params (pipeline.drop (k + 1)) (.next (states (k + 1)).toBlock) =
      .next (states (k + 1)).toBlock := by
    rcases stops with error | rfl
    · exact runStages_halted error (fun stage => absurd (List.mem_of_mem_drop stage) (by decide))
    · rfl
  have run : runCommand Config.params s.toBlock = .next (states (k + 1)).toBlock := by
    rw [runCommand_eq noError, ← List.take_append_drop (k + 1) pipeline, runStages_append, first, rest]
  rw [same]
  exact onBlock_next run

end Sys2Proof.Machine
end

section
/-!
PROOFS. `RUN` on acceptable inputs completes the whole pipeline (40_control.md R106): every flag a stage needs is set by
an earlier one, and the synchronization chirp, which has a sample of magnitude 1, stands in the assembled signal.
-/
namespace Sys2Proof.Machine

/-! ### The inputs a completed stage keeps -/

section

variable {α : Type} {P : Params α} {b s t u : Block α} {i : Instr} {k : Nat} {m : Flags}

/-- The block with the registers and buffers that the pipeline computes taken from another, and every input kept
(10_state.md R34, R35). -/
def Block.withResults (inputs results : Block α) : Block α :=
  { inputs with
    status := results.status, bits := results.bits, bitLen := results.bitLen, coded := results.coded
    codedLen := results.codedLen, parCnt := results.parCnt, sync := results.sync, up := results.up
    down := results.down, asm := results.asm, asmLen := results.asmLen, out := results.out, gap := results.gap
    outLen := results.outLen }

/-- A completed command other than `CLRERR` writes results alone (10_state.md R35). -/
theorem Completes.withResults (done : Completes P b i t) (other : i ≠ .clrErr) : b.withResults t = t := by
  cases done with
  | chirp sel l => cases sel <;> rfl
  | clrErr => exact absurd rfl other
  | nop | init | map | fec | asm | rend => rfl

/-- A command that completes is what its own rule answers; of `MAP`, where the message has a meaning. -/
theorem Completes.ownRule (done : Completes P b i t) (meaning : i = .map → 1 ≤ b.msgLen.toNat ∧ ¬ mapRefuses P b) :
    ownRule P i b = .next t := by
  cases done with
  | nop | fec | asm | clrErr => rfl
  | init checks => show initBody P b = _; rw [initBody, checks]
  | chirp sel l made =>
    have own : chirpBody P sel b = .next ((b.storeChirp sel l).completed sel.instr) := by rw [chirpBody, made]
    cases sel <;> exact own
  | rend out checks made =>
    show rendBody P b = _
    unfold rendBody
    dsimp only
    rw [checks, made]
  | map bs bounded made size =>
    obtain ⟨nonempty, meaning⟩ := meaning rfl
    rcases mapBody_cases P b with ⟨outside, -⟩ | ⟨refuses, -⟩ | ⟨-, -, -, ⟨k, bad, -⟩ | ⟨bits, mapped, -, own⟩⟩
    · omega
    · exact absurd refuses meaning
    · rw [made] at bad
      cases bad
    · rw [made] at mapped
      cases mapped
      exact own

/-! ### The stages in a row -/

/-- The flags of the first `k` stages: stage `k` sets flag `k` (10_state.md R23, R35). -/
def stageFlags (k : Nat) : Flags := BitVec.ofNat 8 (2 ^ k - 1)

/-- Every stage needs flags of earlier stages alone, sets its own, and clears flags of later ones (40_control.md R100,
R106; 10_state.md R35). -/
theorem pipeline_flags (stage : pipeline[k]? = some i) :
    stageFlags k &&& needFlags i = needFlags i ∧ completionClears i &&& stageFlags k = 0 ∧
      stageFlags k ||| completionSets i = stageFlags (k + 1) := by
  obtain ⟨inside, rfl⟩ := List.getElem?_eq_some_iff.mp stage
  have all : ∀ j : Fin 8, stageFlags j &&& needFlags (pipeline[j.val]'j.isLt) = needFlags (pipeline[j.val]'j.isLt) ∧
      completionClears (pipeline[j.val]'j.isLt) &&& stageFlags j = 0 ∧
      stageFlags j ||| completionSets (pipeline[j.val]'j.isLt) = stageFlags (j + 1) := by decide
  exact all ⟨k, inside⟩

/-- The first `k` stages of `RUN`, issued on `s`, have all completed and lead to `t`. -/
structure StagesCompleted (P : Params α) (s : Block α) (k : Nat) (t : Block α) : Prop where
  run : runStages P (pipeline.take k) (.next s) = .next t
  noError : t.err = 0
  flags : hasFlags t.status (stageFlags k) = true
  inputs : s.withResults t = t

/-- Before the first stage. -/
theorem StagesCompleted.zero (noError : s.err = 0) : StagesCompleted P s 0 s :=
  ⟨rfl, noError, beq_iff_eq.mpr BitVec.and_zero, rfl⟩

/-- A completion adds the flag it sets to those that are 1, if it clears none of them. -/
theorem Completes.hasFlags (done : Completes P b i t) (flags : hasFlags b.status m = true)
    (kept : completionClears i &&& m = 0) : hasFlags t.status (m ||| completionSets i) = true := by
  have before : Machine.hasFlags t.status m = true := by
    rw [done.status]
    exact hasFlags_or_left (hasFlags_clearMask_iff.mpr ⟨flags, kept⟩)
  have own : Machine.hasFlags t.status (completionSets i) = true := by
    rw [done.status, completedStatus, BitVec.or_comm]
    exact hasFlags_or_left (hasFlags_self _)
  exact hasFlags_or before own

/-- One stage more: it finds every flag it needs (40_control.md R106). -/
theorem StagesCompleted.succ (h : StagesCompleted P s k t) (done : Completes P t i u)
    (meaning : i = .map → 1 ≤ s.msgLen.toNat ∧ ¬ mapRefuses P s) (stage : pipeline[k]? = some i := by rfl) :
    StagesCompleted P s (k + 1) u := by
  obtain ⟨needs, kept, sets⟩ := pipeline_flags stage
  have other : i ≠ .clrErr := by
    rintro rfl
    exact absurd (List.mem_of_getElem? stage) (by decide)
  have ready : missingFlags i t = 0 := hasFlags_iff_and_not.mp (hasFlags_of_submask (beq_iff_eq.mp h.flags) needs)
  have msg : t.msg = s.msg := (congrArg Block.msg h.inputs).symm
  have msgLen : t.msgLen = s.msgLen := (congrArg Block.msgLen h.inputs).symm
  have own : Machine.ownRule P i t = .next u := by
    refine done.ownRule fun map => ?_
    obtain ⟨nonempty, accepted⟩ := meaning map
    exact ⟨msgLen ▸ nonempty, fun refuses => accepted (mapRefuses_of_same_message msg msgLen refuses)⟩
  constructor
  case run =>
    rw [List.take_add_one, stage, Option.toList_some, runStages_append, h.run, runStages_cons_next,
      commandUnder_own P i t (.inl h.noError) ready, own, runStages_nil]
  case noError => exact done.err.elim (·.trans h.noError) id
  case flags => exact sets ▸ done.hasFlags h.flags kept
  case inputs =>
    calc s.withResults u = (s.withResults t).withResults u := rfl
      _ = t.withResults u := by rw [h.inputs]
      _ = u := done.withResults other

/-- After the eighth stage every flag is 1. -/
theorem StagesCompleted.status (h : StagesCompleted P s 8 u) : u.status = 0xFF#8 := by
  have all : u.status &&& BitVec.allOnes 8 = BitVec.allOnes 8 := beq_iff_eq.mp h.flags
  rwa [BitVec.and_allOnes] at all

end

end Sys2Proof.Machine
end

section
/-!
PROOFS. What the stages of `RUN` make of acceptable inputs: the lengths of the rules, and a signal that is not all zero,
because the synchronization chirp stands in it and has a sample of magnitude 1 (40_control.md R106).
-/
namespace Sys2Proof.Machine

/-! ### The synchronization chirp in the assembled signal -/

section

variable {α : Type} {N : NUM α} {coded : List Bool} {sync up down src buf : List α} {t ov step cur j c : Nat} {v : α}

/-- The samples before a chirp's start stay as they are (44_signal_assembler.md R202). -/
theorem addAt_get_of_lt (before : j < cur) : (addAt N cur src buf)[j]? = buf[j]? := by
  by_cases inside : j < buf.length
  · rw [addAt_get N cur src buf j inside, if_neg (by omega), List.getD_eq_getElem?_getD,
      List.getElem?_eq_getElem inside, Option.getD_some]
  · rw [List.getElem?_eq_none (by rw [addAt_length]; omega), List.getElem?_eq_none (by omega)]

/-- The samples before the cursor stay as they are (44_signal_assembler.md R202). -/
theorem placeBits_get_of_lt (before : j < cur) : (placeBits N up down step cur coded buf)[j]? = buf[j]? := by
  induction coded generalizing cur buf with
  | nil => rfl
  | cons bit coded ih => rw [placeBits, ih (by omega), addAt_get_of_lt before]

/-- As many samples as the rule says (44_signal_assembler.md R203). -/
@[simp] theorem assemble_length : (assemble N t ov coded sync up down).length = asmLength t ov coded.length := by
  rw [assemble, placeBits_length, addAt_length, List.length_replicate]

/-- Every sample of `SYNC`, added to silence, is one of the signal: no chirp of a bit begins before `SYNC` ends
(44_signal_assembler.md R201, R202). -/
theorem mem_assemble_of_mem_sync (member : v ∈ sync) (size : sync.length = 4 * t)
    (fits : 5 * t ≤ asmLength t ov coded.length) : N.add N.zero v ∈ assemble N t ov coded sync up down := by
  obtain ⟨k, inside, rfl⟩ := List.mem_iff_getElem.mp member
  refine List.mem_of_getElem? (i := t + k) ?_
  rw [assemble, placeBits_get_of_lt (by omega), addAt_get N _ _ _ _ (by rw [List.length_replicate]; omega),
    if_pos (by omega), Nat.add_sub_cancel_left, List.getD_eq_getElem _ _ inside, List.getD_eq_getElem?_getD,
    List.getElem?_replicate_of_lt (by omega), Option.getD_some]

/-- Where the overlap is shorter than a symbol, silence, `SYNC` and one sample per coded bit fit in the signal
(44_signal_assembler.md R203). -/
theorem le_asmLength (overlap : ov < t) (coded : 1 ≤ c) : 5 * t + c ≤ asmLength t ov c := by
  obtain ⟨c, rfl⟩ : ∃ n, c = n + 1 := ⟨c - 1, by omega⟩
  have moved : ov * c + c ≤ c * t := by nlinarith
  rw [asmLength, Nat.add_sub_cancel, Nat.add_mul]
  omega

end

section

variable {K : Type} [Field K] [LinearOrder K] [FloorRing K] {pi : K} {sin cos : K → K}

/-- A signal with a `SYNC` that has a sample of magnitude 1 has a peak of at least 1 (45_renderer_quantizer.md R225). -/
theorem one_le_peakOf_assemble {coded : List Bool} {sync up down : List K} {t ov : Nat} (unit : ∃ v ∈ sync, |v| = 1)
    (size : sync.length = 4 * t) (fits : 5 * t ≤ asmLength t ov coded.length) :
    1 ≤ peakOf (exactNum pi sin cos) (assemble (exactNum pi sin cos) t ov coded sync up down) := by
  obtain ⟨v, member, magnitude⟩ := unit
  have placed := mem_assemble_of_mem_sync (N := exactNum pi sin cos) (up := up) (down := down) member size fits
  rw [exactNum_add, exactNum_zero, zero_add] at placed
  exact magnitude ▸ abs_le_peakOf placed

variable [IsStrictOrderedRing K]

/-- The divisor of a chirp is, up to its sign, one of the samples it divides (43_chirp_synthesizer.md R179). -/
theorem exists_abs_eq_chirpDivisor {y : List K} (nonempty : y ≠ []) (absolute : Bool) :
    ∃ v ∈ y, |v| = |chirpDivisor (exactNum pi sin cos) absolute y| := by
  cases absolute with
  | false => exact ⟨_, maxNum_mem nonempty, rfl⟩
  | true =>
    have member : maxNum (exactNum pi sin cos) (y.map fun v => |v|) ∈ y.map fun v => |v| :=
      maxNum_mem (by simpa using nonempty)
    obtain ⟨v, hv, same⟩ := List.mem_map.mp member
    have divisor : chirpDivisor (exactNum pi sin cos) true y = |v| := same.symm
    exact ⟨v, hv, by rw [divisor, abs_abs]⟩

/-- A chirp of at least one sample has a sample of magnitude 1 (43_chirp_synthesizer.md R179). -/
theorem exists_abs_eq_one_of_synthesize {H : Nat → Nat → K} {absolute isUp : Bool} {d fe : Nat} {fc bw : K} {l : List K}
    (made : synthesize (exactNum pi sin cos) H absolute isUp d fc bw fe = some l) (samples : 0 < d) :
    ∃ v ∈ l, |v| = 1 := by
  obtain ⟨nonzero, rfl⟩ := synthesize_cases made
  have nonempty : windowed (exactNum pi sin cos) H isUp d fc bw fe ≠ [] :=
    List.ne_nil_of_length_pos (by rwa [windowed_length])
  obtain ⟨v, member, same⟩ := exists_abs_eq_chirpDivisor (pi := pi) (sin := sin) (cos := cos) nonempty absolute
  refine ⟨_, List.mem_map_of_mem member, ?_⟩
  rw [exactNum_div, abs_div, same]
  exact div_self (abs_ne_zero.mpr (of_decide_eq_false nonzero))

end

/-! ### Acceptable inputs -/

section

variable {α : Type} {P : Params α} {b s t : Block α} {k : Nat}

/-- On digits `0` to `9` and `A` to `F` the message has a meaning, whatever `HEX_LOWER_OK` is (41_symbol_mapper.md
R123). -/
theorem not_mapRefuses_of_digits (digits : ∀ k < b.msgLen.toNat, ∃ d, hexval false (b.msgAt P k) = some d) :
    ¬ mapRefuses P b := by
  intro refuses
  obtain ⟨k, inside, lower⟩ := exists_lower_of_mapRefuses refuses
  obtain ⟨d, digit⟩ := digits k inside
  rw [hexval_false_of_isLowerHex (decide_eq_true lower)] at digit
  cases digit

/-- A digit `0` to `9` or `A` to `F` is a digit whatever `HEX_LOWER_OK` is (41_symbol_mapper.md R123). -/
theorem hexval_of_digit {c : Char8} {d : BitVec 4} (digit : hexval false c = some d) (lowerOk : Bool) :
    hexval lowerOk c = some d := by
  have upper : isLowerHex c = false := by
    by_contra lower
    rw [hexval_false_of_isLowerHex (Bool.eq_true_of_not_eq_false lower)] at digit
    cases digit
  rw [hexval_of_not_isLowerHex lowerOk upper, digit]

/-- A message of digits is mapped to four bits per digit (41_symbol_mapper.md R124). -/
theorem mapped_of_digits (digits : ∀ k < b.msgLen.toNat, ∃ d, hexval false (b.msgAt P k) = some d) :
    ∃ bs, b.mapped P = .ok bs ∧ bs.length = 4 * b.msgLen.toNat := by
  choose! d digits using digits
  have read : ∀ k c, (b.msgList P b.msgLen.toNat)[k]? = some c →
      hexval (P.hexLowerOk.getD false) c = some (d (0 + k)) := by
    intro k c held
    have inside : k < b.msgLen.toNat := by
      simpa using (List.getElem?_eq_some_iff.mp held).1
    rw [msgList_get b P _ k inside] at held
    cases held
    rw [Nat.zero_add]
    exact hexval_of_digit (digits k inside) _
  obtain ⟨bs, made, size, -⟩ := mapDigits_ok P.lutA P.lutB _ (lim (b.msgList P b.msgLen.toNat).length) _ 0 d read
  exact ⟨bs, made, by rw [size, msgList_length]⟩

/-- The values every check of `REND` accepts (45_renderer_quantizer.md R221, R222, R225). -/
theorem rendFails_eq_none {asm : List α} (count : 1 ≤ b.repeatCount.toInt)
    (volume : P.num.le P.num.zero b.volume = true ∧ P.num.le b.volume P.num.one = true)
    (interval : P.num.le P.num.zero b.interval = true)
    (fits : totalLength b.repeatCount.toNat asm.length (gapSamples P.num b.interval b.fs.toNat) ≤ P.outmax)
    (peak : P.num.isZero (peakOf P.num asm) = false) : rendFails P b asm = none := by
  unfold rendFails
  dsimp only
  rw [if_neg (by omega), if_neg (not_not.mpr volume), if_neg (not_not.mpr interval), if_neg (by omega),
    if_neg (by rw [peak]; decide)]

/-- A register that is at least 1 as a signed number is at least 1 as a natural number. -/
theorem one_le_toNat_of_one_le_toInt {x : U32} (h : 1 ≤ x.toInt) : 1 ≤ x.toNat := by
  rw [BitVec.toInt_eq_toNat_cond] at h
  split at h <;> omega

/-- The bits of the CodedSequence of a message of `n` digits (41_symbol_mapper.md R124, 42_fec_encoder.md R146). -/
def codedCount (n : Nat) : Nat := 4 * n + rmin (4 * n) + 2

/-- The samples of the signal that the inputs of the block lead to (44_signal_assembler.md R203). -/
def Block.signalLength (s : Block α) : Nat := asmLength s.tsym.toNat s.ovsamp.toNat (codedCount s.msgLen.toNat)

/-- The inputs on which every stage of `RUN` completes (40_control.md R106). -/
structure Acceptable (P : Params α) (s : Block α) : Prop where
  noError : s.err = 0
  parameters : initFails P s = none
  nonempty : 1 ≤ s.msgLen.toNat
  bounded : s.msgLen.toNat ≤ P.nmax
  digits : ∀ k < s.msgLen.toNat, ∃ d, hexval false (s.msgAt P k) = some d
  chirps : ∀ sel, ∃ l, s.chirp P sel = some l
  count : 1 ≤ s.repeatCount.toInt
  volume : P.num.le P.num.zero s.volume = true ∧ P.num.le s.volume P.num.one = true
  interval : P.num.le P.num.zero s.interval = true
  short : s.signalLength < 2 ^ 32
  fits : totalLength s.repeatCount.toNat s.signalLength (gapSamples P.num s.interval s.fs.toNat) ≤ P.outmax

/-- The symbol is longer than the overlap (40_control.md R102). -/
theorem Acceptable.overlap (h : Acceptable P s) : s.ovsamp.toNat < s.tsym.toNat := by
  obtain ⟨-, -, -, -, -, -, overlap⟩ := initFails_none h.parameters
  exact overlap

/-- Silence, `SYNC` and one sample per coded bit fit in the signal (44_signal_assembler.md R203). -/
theorem Acceptable.le_signalLength (h : Acceptable P s) :
    5 * s.tsym.toNat + codedCount s.msgLen.toNat ≤ s.signalLength :=
  le_asmLength h.overlap (Nat.succ_pos _)

/-- One gap is no longer than the whole audio (45_renderer_quantizer.md R222). -/
theorem Acceptable.gap_le (h : Acceptable P s) : gapSamples P.num s.interval s.fs.toNat ≤ P.outmax :=
  calc gapSamples P.num s.interval s.fs.toNat ≤ s.signalLength + gapSamples P.num s.interval s.fs.toNat :=
        Nat.le_add_left _ _
    _ ≤ s.repeatCount.toNat * (s.signalLength + gapSamples P.num s.interval s.fs.toNat) :=
        Nat.le_mul_of_pos_left _ (one_le_toNat_of_one_le_toInt h.count)
    _ ≤ P.outmax := h.fits

/-- The length of the CodedSequence fits its register (log 20). -/
theorem Acceptable.codedCount_lt (h : Acceptable P s) : codedCount s.msgLen.toNat < 2 ^ 32 := by
  have room := h.le_signalLength
  have short := h.short
  omega

/-- The lengths of the rules after `MAP` and `FEC` (41_symbol_mapper.md R124, 42_fec_encoder.md R146). -/
structure Encoded (s t : Block α) : Prop where
  bitLen : t.bitLen.toNat = 4 * s.msgLen.toNat
  codedLen : t.codedLen.toNat = codedCount s.msgLen.toNat
  parCnt : t.parCnt.toNat = rmin (4 * s.msgLen.toNat) + 2

/-- `INIT` and `MAP` complete, and `BITLEN` is four bits per digit (41_symbol_mapper.md R124). -/
theorem Acceptable.maps (h : Acceptable P s) : ∃ t, StagesCompleted P s 2 t ∧ t.bitLen.toNat = 4 * s.msgLen.toNat := by
  obtain ⟨bs, mapped, size⟩ := mapped_of_digits h.digits
  have init := (StagesCompleted.zero h.noError).succ (.init h.parameters) nofun
  have map := init.succ (.map bs h.bounded mapped size) fun _ => ⟨h.nonempty, not_mapRefuses_of_digits h.digits⟩
  have short : 4 * s.msgLen.toNat + rmin (4 * s.msgLen.toNat) + 2 < 2 ^ 32 := h.codedCount_lt
  exact ⟨_, map, lengthReg_toNat P (show 4 * s.msgLen.toNat < 2 ^ 32 by omega)⟩

/-- `FEC` completes, with the lengths of its rule (42_fec_encoder.md R146). -/
theorem Acceptable.encodes (h : Acceptable P s) : ∃ t, StagesCompleted P s 3 t ∧ Encoded s t := by
  obtain ⟨t, mapped, bitLen⟩ := h.maps
  have short : 4 * s.msgLen.toNat + rmin (4 * s.msgLen.toNat) + 2 < 2 ^ 32 := h.codedCount_lt
  refine ⟨_, mapped.succ .fec nofun, bitLen, ?codedLen, ?parCnt⟩
  case codedLen =>
    rw [codedCount, ← bitLen] at *
    exact lengthReg_toNat P short
  case parCnt =>
    rw [← bitLen] at *
    exact lengthReg_toNat P (by omega)

/-- A chirp's stage completes where the inputs make the chirp (43_chirp_synthesizer.md R181). -/
theorem StagesCompleted.chirp (h : StagesCompleted P s k t) {sel : ChirpSel} (makes : ∃ l, s.chirp P sel = some l)
    (stage : pipeline[k]? = some sel.instr := by rfl) :
    ∃ l, s.chirp P sel = some l ∧ StagesCompleted P s (k + 1) ((t.storeChirp sel l).completed sel.instr) := by
  obtain ⟨l, made⟩ := makes
  have same : t.chirp P sel = s.chirp P sel := by rw [← h.inputs]; rfl
  exact ⟨l, made, h.succ (.chirp sel l (same.trans made)) (by cases sel <;> nofun) stage⟩

/-- The stages before `ASM` complete, over any number domain. -/
theorem Acceptable.prepares (h : Acceptable P s) :
    ∃ t, StagesCompleted P s 6 t ∧ Encoded s t ∧ s.chirp P .sync = some t.sync := by
  obtain ⟨t, fec, encoded⟩ := h.encodes
  obtain ⟨sync, made, chirpSync⟩ := fec.chirp (h.chirps .sync)
  obtain ⟨up, -, chirpUp⟩ := chirpSync.chirp (h.chirps .up)
  obtain ⟨down, -, chirpDown⟩ := chirpUp.chirp (h.chirps .down)
  exact ⟨_, chirpDown, ⟨encoded.bitLen, encoded.codedLen, encoded.parCnt⟩, made⟩

/-- What `RUN` leaves on acceptable inputs: the lengths of the rules (40_control.md R106). -/
structure Finished (P : Params α) (s u : Block α) : Prop where
  encoded : Encoded s u
  asmLen : u.asmLen.toNat = s.signalLength
  gap : u.gap.toNat = gapSamples P.num s.interval s.fs.toNat
  outLen : u.outLen.toNat = totalLength s.repeatCount.toNat s.signalLength (gapSamples P.num s.interval s.fs.toNat)
  out : u.out.length = u.outLen.toNat

end

/-! ### `ASM` and `REND` over exact numbers -/

section

variable {K : Type} [Field K] [LinearOrder K] [FloorRing K] [IsStrictOrderedRing K] {pi : K} {sin cos : K → K}
  {P : Params K} {s : Block K}

/-- `ASM` completes, with the length of its rule and a signal that is not all zero (44_signal_assembler.md R203,
45_renderer_quantizer.md R225). -/
theorem Acceptable.assembles (exactNumbers : P.num = exactNum pi sin cos) (h : Acceptable P s) :
    ∃ t, StagesCompleted P s 7 t ∧ Encoded s t ∧ t.asmLen.toNat = s.signalLength ∧ t.asm.length = s.signalLength ∧
      1 ≤ peakOf P.num t.asm := by
  obtain ⟨t, prepared, encoded, made⟩ := h.prepares
  have tsym : t.tsym = s.tsym := (congrArg Block.tsym prepared.inputs).symm
  have ovsamp : t.ovsamp = s.ovsamp := (congrArg Block.ovsamp prepared.inputs).symm
  have length : asmLength t.tsym.toNat t.ovsamp.toNat t.codedLen.toNat = s.signalLength := by
    rw [tsym, ovsamp, encoded.codedLen, Block.signalLength]
  have coded : (t.codedList P t.codedLen.toNat).length = t.codedLen.toNat := elemsOr_length _ _ _
  have room := h.le_signalLength
  have overlap := h.overlap
  refine ⟨_, prepared.succ .asm nofun, ⟨encoded.bitLen, encoded.codedLen, encoded.parCnt⟩, ?asmLen, ?size, ?peak⟩
  case asmLen => exact (lengthReg_toNat P (length ▸ h.short)).trans length
  case size =>
    show (t.assembled P).length = _
    rw [Block.assembled, assemble_length, coded, length]
  case peak =>
    show 1 ≤ peakOf P.num (t.assembled P)
    have size : t.sync.length = 4 * t.tsym.toNat := by rw [synthesize_length made, tsym]; rfl
    have sync : t.syncList P (4 * t.tsym.toNat) = t.sync := elemsOr_of_length size
    rw [Block.chirp, exactNumbers] at made
    have unit := exists_abs_eq_one_of_synthesize made (by show 0 < 4 * s.tsym.toNat; omega)
    rw [Block.assembled, sync, exactNumbers]
    exact one_le_peakOf_assemble unit size (by rw [coded, length, tsym]; omega)

/-- `REND` completes, and with it all eight stages (40_control.md R106, 45_renderer_quantizer.md R227). -/
theorem Acceptable.finishes (exactNumbers : P.num = exactNum pi sin cos) (small : P.outmax < 2 ^ 32)
    (h : Acceptable P s) :
    ∃ u, StagesCompleted P s 8 u ∧ Finished P s u := by
  obtain ⟨t, assembled, encoded, asmLen, size, peak⟩ := h.assembles exactNumbers
  have count : t.repeatCount = s.repeatCount := (congrArg Block.repeatCount assembled.inputs).symm
  have volume : t.volume = s.volume := (congrArg Block.volume assembled.inputs).symm
  have interval : t.interval = s.interval := (congrArg Block.interval assembled.inputs).symm
  have fs : t.fs = s.fs := (congrArg Block.fs assembled.inputs).symm
  have asm : t.asmList P t.asmLen.toNat = t.asm := elemsOr_of_length (size.trans asmLen.symm)
  have total : totalLength t.repeatCount.toNat (t.asmList P t.asmLen.toNat).length
      (gapSamples P.num t.interval t.fs.toNat) =
        totalLength s.repeatCount.toNat s.signalLength (gapSamples P.num s.interval s.fs.toNat) := by
    rw [asm, count, interval, fs, size]
  have nonzero : P.num.isZero (peakOf P.num (t.asmList P t.asmLen.toNat)) = false := by
    rw [asm]
    rw [exactNumbers] at peak ⊢
    exact decide_eq_false (by linarith)
  have checks : rendFails P t (t.asmList P t.asmLen.toNat) = none :=
    rendFails_eq_none (count ▸ h.count) (volume ▸ h.volume) (interval ▸ h.interval) (total.trans_le h.fits) nonzero
  obtain ⟨out, rendered, samples⟩ := rendered_eq_some exactNumbers checks
  have outLen := lengthReg_toNat P ((total.trans_le h.fits).trans_lt small)
  refine ⟨_, assembled.succ (.rend out checks rendered) nofun, ⟨encoded.bitLen, encoded.codedLen, encoded.parCnt⟩,
    asmLen, ?gap, outLen.trans total, samples.trans outLen.symm⟩
  case gap =>
    rw [← interval, ← fs]
    exact lengthReg_toNat P (by rw [interval, fs]; exact h.gap_le.trans_lt small)

end

/-! ### `RUN` completes -/

/-- A chirp whose divisor is not 0 is made (43_chirp_synthesizer.md R179). -/
theorem exists_chirp {s : Block NumVal} {sel : ChirpSel} (divisor : chirpDivisor Config.num Config.chirpNormAbs
      (windowed Config.num (symmetricHann Config.num) sel.isUp (sel.duration s.tsym.toNat) s.fc s.bw s.fs.toNat) ≠ 0) :
    ∃ l, s.chirp Config.params sel = some l :=
  ⟨_, synthesize_some (decide_eq_false divisor)⟩

/-- Settles O49: the inputs are acceptable, so that every stage completes. -/
theorem runCompletes : Obligations.RunCompletes := by
  intro s d noError mode fc bw tsym tmax fs ovsamp nonempty bounded digits t mx sync up down count lo hi interval m c l
    gap short fits
  have inputs : Acceptable Config.params s.toBlock := {
    noError, nonempty, bounded, count, short, fits
    parameters := initFails_eq_none mode (decide_eq_true fc) (decide_eq_true bw) tsym tmax fs ovsamp
    digits k inside := ⟨d k, digits k inside⟩
    chirps
      | .sync => exists_chirp sync
      | .up => exists_chirp up
      | .down => exists_chirp down
    volume := ⟨decide_eq_true lo, decide_eq_true hi⟩
    interval := decide_eq_true interval }
  obtain ⟨u, pipeline, done⟩ := inputs.finishes rfl outmax_lt
  have run : runCommand Config.params s.toBlock = .next u := (runCommand_eq noError).trans pipeline.run
  have results : s.toBlock.withResults { u with status := 0xFF#8 } = u := by
    rw [← pipeline.status]
    exact pipeline.inputs
  exact ⟨{ s with toBlock := u }, onBlock_next run, congrArg (fun b => { s with toBlock := b }) results.symm,
    done.encoded.bitLen, done.encoded.codedLen, done.encoded.parCnt, done.asmLen, done.gap, done.outLen, done.out⟩

end Sys2Proof.Machine
end

section
/-!
PROOFS. `MAP`: the value of a digit, what the command stores of a message of digits, the messages it rejects, and that
its bits are a function of the message alone (41_symbol_mapper.md R121 to R127).
-/
namespace Sys2Proof.Machine

/-! ### Digits and the table boundary -/

section

variable {lowerOk : Bool} {c : Char8}

/-- `0` to `9` (41_symbol_mapper.md R123). -/
theorem hexval_of_decimal (h : 0x30 ≤ c.toNat ∧ c.toNat ≤ 0x39) :
    hexval lowerOk c = some (BitVec.ofNat 4 (c.toNat - 0x30)) := if_pos h

/-- `A` to `F` (41_symbol_mapper.md R123). -/
theorem hexval_of_upper (h : 0x41 ≤ c.toNat ∧ c.toNat ≤ 0x46) :
    hexval lowerOk c = some (BitVec.ofNat 4 (c.toNat - 0x41 + 10)) := by
  simp only [hexval]
  rw [if_neg (by omega), if_pos h]

/-- `a` to `f`: digits where they are allowed (41_symbol_mapper.md R123). -/
theorem hexval_of_lower (h : 0x61 ≤ c.toNat ∧ c.toNat ≤ 0x66) :
    hexval lowerOk c = if lowerOk = true then some (BitVec.ofNat 4 (c.toNat - 0x61 + 10)) else none := by
  simp only [hexval]
  rw [if_neg (by omega), if_neg (by omega)]
  exact if_congr (and_iff_left h) rfl rfl

/-- Every character outside the three ranges (41_symbol_mapper.md R123). -/
theorem hexval_eq_none (decimal : ¬(0x30 ≤ c.toNat ∧ c.toNat ≤ 0x39)) (upper : ¬(0x41 ≤ c.toNat ∧ c.toNat ≤ 0x46))
    (lower : ¬(0x61 ≤ c.toNat ∧ c.toNat ≤ 0x66)) : hexval lowerOk c = none := by
  simp only [hexval]
  rw [if_neg decimal, if_neg upper, if_neg fun h => lower h.2]

/-- A digit's value fits four bits. -/
theorem map_toNat_some_digit {n : Nat} (h : n < 16) : (some (BitVec.ofNat 4 n)).map BitVec.toNat = some n :=
  congrArg some (Nat.mod_eq_of_lt h)

end

/-- Settles O15: each range of characters is its branch of `hexval`. -/
theorem hexDigitValues : Obligations.HexDigitValues := by
  refine fun lowerOk c => ⟨fun decimal => ?decimal, fun upper => ?upper, fun lower => ?lower, fun other => ?other⟩
  case decimal => rw [hexval_of_decimal decimal, map_toNat_some_digit (by omega)]
  case upper => rw [hexval_of_upper upper, map_toNat_some_digit (by omega)]
  case lower => rw [hexval_of_lower lower, apply_ite (Option.map _), map_toNat_some_digit (by omega), Option.map_none]
  case other => exact hexval_eq_none (by omega) (by omega) (by omega)

/-- Settles O16: the boundary is R121's formula, and the eight values are its values. -/
theorem tableBoundary : Obligations.TableBoundary := ⟨fun _ => rfl, by decide⟩

/-! ### The messages `MAP` accepts -/

section

variable {α β : Type} {P : Params α} {Q : Params β} {s t : Block α} {u : Block β} {bs : List Bool} {d : Nat → BitVec 4}
  {ok : Bool} {i k : Nat}

/-- `MAP` with no error recorded and `V.CFG` set executes its own rule (40_control.md R100). -/
theorem mapCommand_eq (ready : Ready .map s) : mapCommand P s = mapBody P s := prologue_ready ready.1 ready.2

/-- `MAP` needs `V.CFG` alone (40_control.md R100). -/
theorem ready_map (noError : s.err = 0) (cfg : s.status &&& 0x01#8 = 0x01#8) : Ready .map s :=
  ⟨noError, missingFlags_eq_zero rfl cfg⟩

/-- What `MAP` stores of the bits of a message (41_symbol_mapper.md R124, 10_state.md R35). -/
def Block.withBits (s : Block α) (P : Params α) (bs : List Bool) : Block α :=
  { s with bits := s.bits.writeAll bs, bitLen := lengthReg P (4 * s.msgLen.toNat) }.completed .map

/-- `BITS` after `MAP` (41_symbol_mapper.md R124). -/
theorem withBits_bitAt (s : Block α) (P : Params α) (bs : List Bool) (k : Nat) :
    (s.withBits P bs).bitAt P k = bs[k]?.getD (s.bitAt P k) := by
  simp only [Block.withBits, Block.bitAt, completed_bits, read_writeAll, Buffer.writeAll_gen]
  split
  case isTrue inside => rw [List.getElem?_eq_getElem inside, Option.getD_some, Option.getD_some]
  case isFalse outside => rw [List.getElem?_eq_none (by omega), Option.getD_none]

/-- The message has a length in range and a meaning, and `bs` is its BitSequence (41_symbol_mapper.md R123 to R125). -/
structure MapsTo (P : Params α) (s : Block α) (bs : List Bool) : Prop where
  nonempty : 1 ≤ s.msgLen.toNat
  bounded : s.msgLen.toNat ≤ P.nmax
  meaning : ¬ mapRefuses P s
  made : s.mapped P = .ok bs

/-- A BitSequence has four bits per digit (41_symbol_mapper.md R124). -/
theorem MapsTo.size (h : MapsTo P s bs) : bs.length = 4 * s.msgLen.toNat := by
  rw [mapDigits_length _ _ _ _ _ _ _ h.made, msgList_length]

/-- `MAP` completes on such a message (41_symbol_mapper.md R124). -/
theorem MapsTo.body (h : MapsTo P s bs) : mapBody P s = .next (s.withBits P bs) :=
  (Completes.map bs h.bounded h.made h.size).ownRule fun _ => ⟨h.nonempty, h.meaning⟩

/-- `MAP` completes on no other message (41_symbol_mapper.md R123 to R125). -/
theorem exists_mapsTo_of_mapBody (answered : mapBody P s = .next t) (noError : t.err = 0) :
    ∃ bs, MapsTo P s bs ∧ t = s.withBits P bs := by
  rcases mapBody_cases P s with ⟨-, e⟩ | ⟨-, e⟩ | ⟨nonempty, bounded, meaning, ⟨k, -, e⟩ | ⟨bs, made, -, e⟩⟩ <;>
    (rw [e] at answered; cases answered)
  · exact absurd noError (code_ne_zero .invalidMessage)
  · exact absurd noError (code_ne_zero .invalidMessage)
  · exact ⟨bs, ⟨nonempty, bounded, meaning, made⟩, rfl⟩

/-- Where `HEX_LOWER_OK` is not fixed, a message with a meaning is read as where it is false (41_symbol_mapper.md
R123). -/
theorem hexLowerOk_getD (fixed : P.hexLowerOk = some ok ∨ (P.hexLowerOk = none ∧ ok = false)) :
    P.hexLowerOk.getD false = ok := by
  rcases fixed with fixed | ⟨unfixed, rfl⟩
  · rw [fixed, Option.getD_some]
  · rw [unfixed, Option.getD_none]

/-! ### A message of digits -/

/-- Where `HEX_LOWER_OK` is fixed every message has a meaning (41_symbol_mapper.md R123). -/
theorem not_mapRefuses_of_fixed (fixed : P.hexLowerOk = some ok) : ¬ mapRefuses P s := by
  rintro ⟨-, -, refused⟩
  obtain ⟨unfixed, -⟩ := (caseUnfixed_iff _ _).mp refused
  rw [fixed] at unfixed
  cases unfixed

/-- The bits of a message of digits: four of each digit's table entry, `b3` first (41_symbol_mapper.md R124). -/
theorem mapped_bits_of_digits
    (digits : ∀ k, k < s.msgLen.toNat → hexval (P.hexLowerOk.getD false) (s.msgAt P k) = some (d k)) :
    ∃ bs, s.mapped P = .ok bs ∧ ∀ k j, k < s.msgLen.toNat → j < 4 →
      bs[4 * k + j]? =
        some ((if k < lim s.msgLen.toNat then P.lutA (d k) else P.lutB (d k)).getLsbD (3 - j)) := by
  have read : ∀ k c, (s.msgList P s.msgLen.toNat)[k]? = some c →
      hexval (P.hexLowerOk.getD false) c = some (d (0 + k)) := by
    intro k c held
    have inside : k < s.msgLen.toNat := by simpa using (List.getElem?_eq_some_iff.mp held).1
    rw [msgList_get s P _ k inside] at held
    cases held
    rw [Nat.zero_add, digits k inside]
  obtain ⟨bs, made, -, bits⟩ := mapDigits_ok P.lutA P.lutB _ (lim (s.msgList P s.msgLen.toNat).length) _ 0 d read
  simp only [msgList_length, Nat.zero_add] at bits
  exact ⟨bs, made, bits⟩

/-- `t` is `s` with the bits of the digits `d` stored, and nothing else changed (41_symbol_mapper.md R124, 10_state.md
R35, R38). -/
structure DigitsStored (P : Params α) (s : Block α) (d : Nat → BitVec 4) (t : Block α) : Prop where
  frame : t = { s with bits := t.bits, bitLen := t.bitLen, status := (s.status &&& 0x3B#8) ||| 0x02#8 }
  bitLen : 4 * s.msgLen.toNat < 2 ^ 32 → t.bitLen.toNat = 4 * s.msgLen.toNat
  stored : ∀ k j, k < s.msgLen.toNat → j < 4 →
    t.bitAt P (4 * k + j) = (if k < lim s.msgLen.toNat then P.lutA (d k) else P.lutB (d k)).getLsbD (3 - j)
  kept : ∀ k, 4 * s.msgLen.toNat ≤ k → t.bitAt P k = s.bitAt P k

/-- `MAP` stores the bits of a message of digits that has a meaning (41_symbol_mapper.md R124). -/
theorem mapCommand_of_digits (ready : Ready .map s) (nonempty : 1 ≤ s.msgLen.toNat) (bounded : s.msgLen.toNat ≤ P.nmax)
    (meaning : ¬ mapRefuses P s)
    (digits : ∀ k, k < s.msgLen.toNat → hexval (P.hexLowerOk.getD false) (s.msgAt P k) = some (d k)) :
    ∃ t, mapCommand P s = .next t ∧ DigitsStored P s d t := by
  obtain ⟨bs, made, bits⟩ := mapped_bits_of_digits digits
  have maps : MapsTo P s bs := ⟨nonempty, bounded, meaning, made⟩
  refine ⟨s.withBits P bs, (mapCommand_eq ready).trans maps.body, rfl, lengthReg_toNat P, ?stored, ?kept⟩
  case stored =>
    intro k j inside four
    rw [withBits_bitAt, bits k j inside four, Option.getD_some]
  case kept =>
    intro k beyond
    rw [withBits_bitAt, List.getElem?_eq_none (maps.size.trans_le beyond), Option.getD_none]

/-! ### A message with a bad digit -/

/-- A character `a` to `f` in a message of acceptable length leaves it without a meaning where `HEX_LOWER_OK` is not
fixed (41_symbol_mapper.md R123). -/
theorem mapRefuses_of_lower (nonempty : 1 ≤ s.msgLen.toNat) (bounded : s.msgLen.toNat ≤ P.nmax)
    (unfixed : P.hexLowerOk = none) (inside : k < s.msgLen.toNat)
    (lower : 0x61 ≤ (s.msgAt P k).toNat ∧ (s.msgAt P k).toNat ≤ 0x66) : mapRefuses P s :=
  ⟨nonempty, bounded, (caseUnfixed_iff _ _).mpr
    ⟨unfixed, _, List.mem_of_getElem? (msgList_get s P _ k inside), decide_eq_true lower⟩⟩

/-- `MAP` refuses a message without a meaning (41_symbol_mapper.md R123). -/
theorem mapBody_of_mapRefuses (refuses : mapRefuses P s) : mapBody P s = .refused .lowerCaseUnfixed := by
  obtain ⟨nonempty, bounded, unfixed⟩ := refuses
  rw [mapBody, if_neg (by omega), if_pos unfixed]

/-- The loop ends at the first character that is no digit (41_symbol_mapper.md R124). -/
theorem mapped_of_bad_digit (inside : i < s.msgLen.toNat)
    (bad : hexval (P.hexLowerOk.getD false) (s.msgAt P i) = none)
    (first : ∀ k, k < i → (hexval (P.hexLowerOk.getD false) (s.msgAt P k)).isSome = true) :
    s.mapped P = .error i := by
  have before : ∀ k c, k < i → (s.msgList P s.msgLen.toNat)[k]? = some c →
      (hexval (P.hexLowerOk.getD false) c).isSome = true := by
    intro k c earlier held
    rw [msgList_get s P _ k (by omega)] at held
    cases held
    exact first k earlier
  rw [Block.mapped, mapMessage, mapDigits_err _ _ _ _ _ 0 i _ (msgList_get s P _ i inside) bad before, Nat.zero_add]

/-- `MAP` raises at the digit the loop ends at (41_symbol_mapper.md R125). -/
theorem mapBody_of_bad_digit (nonempty : 1 ≤ s.msgLen.toNat) (bounded : s.msgLen.toNat ≤ P.nmax)
    (meaning : ¬ mapRefuses P s) (bad : s.mapped P = .error i) :
    mapBody P s = raiseFor .map .invalidMessage (BitVec.ofNat 32 i) s := by
  have fixed : ¬ caseUnfixed P.hexLowerOk (s.msgList P s.msgLen.toNat) = true :=
    fun unfixed => meaning ⟨nonempty, bounded, unfixed⟩
  rw [mapBody, if_neg (by omega), if_neg fixed, bad]

/-! ### The inputs of `MAP` -/

/-- Everything the outcome of `MAP` depends on is the same in two blocks, over any two number domains
(41_symbol_mapper.md R127). -/
structure SameMessage (P : Params α) (s : Block α) (Q : Params β) (u : Block β) : Prop where
  lutA : P.lutA = Q.lutA
  lutB : P.lutB = Q.lutB
  hexLowerOk : P.hexLowerOk = Q.hexLowerOk
  nmax : P.nmax = Q.nmax
  msgLen : s.msgLen = u.msgLen
  msgAt : ∀ k, k < s.msgLen.toNat → s.msgAt P k = u.msgAt Q k

/-- The same message as a list. -/
theorem SameMessage.msgList (h : SameMessage P s Q u) : u.msgList Q u.msgLen.toNat = s.msgList P s.msgLen.toNat := by
  rw [← h.msgLen]
  exact List.map_congr_left fun k member => (h.msgAt k (List.mem_range.mp member)).symm

/-- `MAP` makes the same bits of the same message (41_symbol_mapper.md R127). -/
theorem SameMessage.mapsTo (h : SameMessage P s Q u) (maps : MapsTo P s bs) : MapsTo Q u bs where
  nonempty := h.msgLen ▸ maps.nonempty
  bounded := h.msgLen ▸ h.nmax ▸ maps.bounded
  meaning := by
    rintro ⟨-, -, unfixed⟩
    rw [h.msgList, ← h.hexLowerOk] at unfixed
    exact maps.meaning ⟨maps.nonempty, maps.bounded, unfixed⟩
  made := by
    rw [Block.mapped, h.msgList, ← h.lutA, ← h.lutB, ← h.hexLowerOk]
    exact maps.made

end

/-! ### The statements about `MAP` -/

/-- Settles O17: the message has a meaning, fixed or not, and the digit loop gives each digit's bits. -/
theorem mapCompletes : Obligations.MapCompletes := by
  unfold Obligations.MapCompletes
  intro done
  have generic : ∀ (α : Type) (P : Params α) (s : Block α) (lower : Bool) (d : Nat → BitVec 4),
      P.hexLowerOk = some lower ∨ (P.hexLowerOk = none ∧ lower = false) → s.err = 0 →
      s.status &&& 0x01#8 = 0x01#8 → 1 ≤ s.msgLen.toNat → s.msgLen.toNat ≤ P.nmax →
      (∀ k, k < s.msgLen.toNat → hexval lower (s.msgAt P k) = some (d k)) →
      ∃ t, mapCommand P s = .next t ∧ done P s d t := by
    intro α P s lower d fixed noError cfg nonempty bounded digits
    have meaning : ¬ mapRefuses P s := by
      rcases fixed with fixed | ⟨-, rfl⟩
      · exact not_mapRefuses_of_fixed fixed
      · exact not_mapRefuses_of_digits fun k inside => ⟨d k, digits k inside⟩
    rw [← hexLowerOk_getD fixed] at digits
    obtain ⟨t, completed, frame, bitLen, stored, kept⟩ :=
      mapCommand_of_digits (ready_map noError cfg) nonempty bounded meaning digits
    exact ⟨t, completed, frame, bitLen, stored, kept⟩
  refine ⟨generic, fun s d noError cfg nonempty bounded digits => ?_⟩
  obtain ⟨t, completed, stored⟩ :=
    generic NumVal Config.params s.toBlock false d (.inr ⟨rfl, rfl⟩) noError cfg nonempty bounded digits
  exact ⟨t, onBlock_next completed, stored⟩

/-- Settles O18: the length is checked first, then that the message has a meaning, then digit by digit. -/
theorem mapRejectsBadMessages : Obligations.MapRejectsBadMessages := by
  refine ⟨fun α P s noError cfg => ?_, rfl, fun s => rfl⟩
  intro lower
  rw [mapCommand_eq (ready_map noError cfg)]
  refine ⟨fun outside => if_pos outside, fun nonempty bounded => ⟨?refused, ?bad⟩⟩
  case refused =>
    intro k unfixed inside isLower
    exact mapBody_of_mapRefuses (mapRefuses_of_lower nonempty bounded unfixed inside isLower)
  case bad =>
    intro i ok fixed inside bad first
    have meaning : ¬ mapRefuses P s := by
      rcases fixed with fixed | ⟨-, -, upper⟩
      · exact not_mapRefuses_of_fixed fixed
      · intro refuses
        obtain ⟨k, inside, isLower⟩ := exists_lower_of_mapRefuses refuses
        exact upper k inside isLower
    rw [← hexLowerOk_getD (fixed.imp_right fun ⟨unfixed, ok, _⟩ => ⟨unfixed, ok⟩)] at bad first
    exact mapBody_of_bad_digit nonempty bounded meaning (mapped_of_bad_digit inside bad first)

/-- Settles O19: the BitSequence that the one block stores is the BitSequence of the other's message, too. -/
theorem mapDependsOnTheMessageAlone : Obligations.MapDependsOnTheMessageAlone := by
  intro α β P₁ P₂ s₁ t₁ s₂ lutA lutB hexLowerOk nmax ready₁ ready₂ msgLen msgAt completed noError
  have same : SameMessage P₁ s₁ P₂ s₂ := ⟨lutA, lutB, hexLowerOk, nmax, msgLen, msgAt⟩
  rw [mapCommand_eq ready₁] at completed
  obtain ⟨bs, maps, rfl⟩ := exists_mapsTo_of_mapBody completed noError
  refine ⟨s₂.withBits P₂ bs, (mapCommand_eq ready₂).trans (same.mapsTo maps).body, ready₂.1, ?bitLen, ?bits⟩
  case bitLen =>
    intro short
    calc lengthReg P₁ (4 * s₁.msgLen.toNat) = BitVec.ofNat 32 (4 * s₁.msgLen.toNat) := lengthReg_of_lt P₁ short
      _ = lengthReg P₂ (4 * s₁.msgLen.toNat) := (lengthReg_of_lt P₂ short).symm
      _ = lengthReg P₂ (4 * s₂.msgLen.toNat) := by rw [msgLen]
  case bits =>
    intro k inside
    have stored : k < bs.length := maps.size ▸ inside
    rw [withBits_bitAt, withBits_bitAt, List.getElem?_eq_getElem stored, Option.getD_some, Option.getD_some]

end Sys2Proof.Machine
end

section
/-!
PROOFS. The extended-Hamming encoder: the least parity count, the places of the data bits, the parities, and what one
flipped data bit does to the checks (42_fec_encoder.md R141 to R149).
-/
namespace Sys2Proof.Machine

/-! ### The least parity count -/

section

variable {m r i : Nat}

/-- `r` parities are enough exactly from `rmin` on: one parity more always leaves room for itself (42_fec_encoder.md
R141). -/
theorem rmin_le_iff : rmin m ≤ r ↔ m + r + 1 ≤ 2 ^ r := by
  obtain ⟨enough, least⟩ := rmin_spec m
  constructor
  · intro above
    induction r, above using Nat.le_induction with
    | base => exact enough
    | succ r _ ih =>
      have positive : 0 < 2 ^ r := Nat.two_pow_pos r
      rw [pow_succ]
      omega
  · intro room
    by_contra! below
    have short := least r below
    omega

/-- One parity is never the least count: the one bit count it is enough for needs none (42_fec_encoder.md R141). -/
theorem rmin_ne_one (m : Nat) : rmin m ≠ 1 := by
  intro one
  have room : m + 1 + 1 ≤ 2 ^ 1 := rmin_le_iff.mp one.le
  have none : rmin m ≤ 0 := rmin_le_iff.mpr (by omega)
  omega

/-- Settles O21: the value is `r` where `r` parities are enough and `r - 1` are not. -/
theorem rminIsTheLeast : Obligations.RminIsTheLeast := by
  refine ⟨rmin_spec, by decide, by decide, by decide, rmin_ne_one, fun m r two => ?_⟩
  have enough : rmin m ≤ r ↔ m + r + 1 ≤ 2 ^ r := rmin_le_iff
  have fewer : rmin m ≤ r - 1 ↔ m + (r - 1) + 1 ≤ 2 ^ (r - 1) := rmin_le_iff
  have room : r < 2 ^ r := Nat.lt_two_pow_self
  omega

/-- The parity positions of the Hamming part are those of the parities that are counted (42_fec_encoder.md R142). -/
theorem two_pow_le_iff_lt_rmin : 2 ^ i ≤ m + rmin m ↔ i < rmin m := by
  obtain ⟨enough, least⟩ := rmin_spec m
  constructor
  · intro inside
    by_contra! above
    have beyond : 2 ^ rmin m ≤ 2 ^ i := Nat.pow_le_pow_right two_pos above
    omega
  · intro below
    have short := least i below
    omega

end

/-! ### The places of the data bits -/

/-- The indices of the positions `1..n` that are powers of two, and of those that are none (42_fec_encoder.md R142). -/
theorem powers_perm (m : Nat) :
    ((List.range (m + rmin m)).filter fun t => isPowerOfTwo (t + 1)).Perm
      ((List.range (rmin m)).map fun i => 2 ^ i - 1) := by
  have injective : Function.Injective fun i : Nat => 2 ^ i - 1 := by
    intro i j (same : 2 ^ i - 1 = 2 ^ j - 1)
    have hi := Nat.two_pow_pos i
    have hj := Nat.two_pow_pos j
    exact Nat.pow_right_injective (le_refl 2) (show 2 ^ i = 2 ^ j by omega)
  refine (List.perm_ext_iff_of_nodup (List.nodup_range.filter _) (List.nodup_range.map injective)).mpr fun t => ?_
  simp only [List.mem_filter, List.mem_map, List.mem_range, isPowerOfTwo_iff _ (Nat.succ_pos t),
    ← two_pow_le_iff_lt_rmin]
  constructor
  · rintro ⟨inside, i, power⟩
    exact ⟨i, by omega, by omega⟩
  · rintro ⟨i, inside, rfl⟩
    have positive := Nat.two_pow_pos i
    exact ⟨by omega, i, by omega⟩

/-- Exactly `r` positions of the Hamming part are powers of two (42_fec_encoder.md R142). -/
theorem powers_length (m : Nat) :
    ((List.range (m + rmin m)).filter fun t => isPowerOfTwo (t + 1)).length = rmin m := by
  simpa using (powers_perm m).length_eq

/-- Exactly `m` positions of the Hamming part are no powers of two (42_fec_encoder.md R142). -/
theorem nonpowers_length (m : Nat) :
    ((List.range (m + rmin m)).filter fun t => !isPowerOfTwo (t + 1)).length = m := by
  have parts := List.length_eq_length_filter_add (l := List.range (m + rmin m)) fun t => isPowerOfTwo (t + 1)
  rw [List.length_range, powers_length] at parts
  omega

/-- The walk leaves the data bits in order at the positions from `p` on that are no powers of two, where there are as
many of these as data bits (42_fec_encoder.md R142). -/
theorem insertBits_data (n : Nat) : ∀ (p : Nat) (data : List Bool),
    ((List.range n).filter fun t => !isPowerOfTwo (t + p)).length = data.length →
    ((List.range n).filter fun t => !isPowerOfTwo (t + p)).map (fun t => (insertBits n p data).getD t false) =
      data := by
  induction n with
  | zero => exact fun p data size => (List.length_eq_zero_iff.mp size.symm).symm
  | succ n ih =>
    intro p data size
    have later : (fun t => !isPowerOfTwo (t + p)) ∘ Nat.succ = fun t => !isPowerOfTwo (t + (p + 1)) := by
      funext t
      simp [Nat.add_assoc, Nat.add_comm 1]
    rw [List.range_succ_eq_map, List.filter_cons, List.filter_map, later] at size ⊢
    by_cases power : isPowerOfTwo p = true
    · simp only [Nat.zero_add, power, Bool.not_true, Bool.false_eq_true, if_false, List.length_map] at size ⊢
      simpa [insertBits, power, Function.comp_def] using ih (p + 1) data size
    · simp only [Nat.zero_add, power, Bool.not_false, if_true, List.length_map, List.length_cons] at size ⊢
      obtain ⟨first, rest, rfl⟩ := List.exists_cons_of_length_eq_add_one size.symm
      simpa [insertBits, power, Function.comp_def] using ih (p + 1) rest (by simpa using size)

/-- No parity of the Hamming part stands at a position that is no power of two (42_fec_encoder.md R143). -/
theorem hammingBits_getD_nonpow {data : List Bool} {t : Nat} (nonpower : isPowerOfTwo (t + 1) = false) :
    (hammingBits data).getD t false = (insertBits (data.length + rmin data.length) 1 data).getD t false := by
  refine setParities_getD_nonpow _ _ _ fun i _ power => ?_
  rw [(isPowerOfTwo_iff _ (Nat.succ_pos t)).mpr ⟨i, power⟩] at nonpower
  cases nonpower

/-- Settles O22: the walk places the data bits, and neither the Hamming nor the chunk parities move them. -/
theorem fecKeepsTheDataInOrder : Obligations.FecKeepsTheDataInOrder := by
  refine fun data => ⟨?_, powers_length _⟩
  refine Eq.trans (List.map_congr_left fun t member => ?_) (insertBits_data _ 1 data (nonpowers_length _))
  obtain ⟨inside, nonpower⟩ := List.mem_filter.mp member
  rw [fecEncode_getD (List.mem_range.mp inside), hammingBits_getD_nonpow (by simpa using nonpower)]

/-! ### The Hamming parities -/

/-- The indices of the positions `1..n` that the parity of number `i` covers (42_fec_encoder.md R143). -/
def covered (n i : Nat) : List Nat := (List.range n).filter fun t => (t + 1) &&& 2 ^ i = 2 ^ i

theorem covered_nodup (n i : Nat) : (covered n i).Nodup := List.nodup_range.filter _

theorem mem_covered {n i t : Nat} : t ∈ covered n i ↔ t < n ∧ (t + 1).testBit i = true := by
  rw [covered, List.mem_filter, List.mem_range, decide_eq_true_iff, and_two_pow_eq_iff]

/-- A parity covers its own position. -/
theorem self_mem_covered {n i : Nat} (inside : 2 ^ i ≤ n) : 2 ^ i - 1 ∈ covered n i := by
  have positive := Nat.two_pow_pos i
  rw [mem_covered, Nat.sub_add_cancel positive]
  exact ⟨by omega, Nat.testBit_two_pow_self⟩

section

variable {res : List Bool} {i k t : Nat}

/-- The coverage XOR over the covered positions alone. -/
theorem coverageXor_eq_covered (res : List Bool) (i : Nat) :
    coverageXor res i = xorAll ((covered res.length i).map fun t => res.getD t false) := coverageXor_eq res i

/-- The coverage XOR reads the first bits of a longer sequence alone. -/
theorem xorAll_covered_append (res more : List Bool) (i : Nat) :
    xorAll ((covered res.length i).map fun t => (res ++ more).getD t false) = coverageXor res i := by
  rw [coverageXor_eq_covered]
  refine congrArg xorAll (List.map_congr_left fun t member => ?_)
  exact List.getD_append _ _ _ _ (mem_covered.mp member).1

/-- Where one bit is replaced, a coverage XOR that covers it changes by the change of the bit. -/
theorem coverageXor_set (inside : t < res.length) (v : Bool) (i : Nat) :
    coverageXor (res.set t v) i =
      if (t + 1).testBit i = true then ((v ^^ res.getD t false) ^^ coverageXor res i) else coverageXor res i := by
  have elsewhere : ∀ j, j ≠ t → (res.set t v).getD j false = res.getD j false := fun j other => by
    simp [List.getD, List.getElem?_set_ne other.symm]
  rw [coverageXor_eq_covered, coverageXor_eq_covered, List.length_set]
  split
  next covers =>
    rw [xorAll_flip _ (fun j => res.getD j false) t _ (covered_nodup _ _) (mem_covered.mpr ⟨inside, covers⟩)
      fun j _ other => elsewhere j other]
    simp [List.getD, inside]
  next uncovered =>
    refine congrArg xorAll (List.map_congr_left fun j member => elsewhere j ?_)
    rintro rfl
    exact uncovered (mem_covered.mp member).2

/-- No parity's position is covered by another parity (42_fec_encoder.md R144). -/
theorem coverageXor_setParity_of_ne (other : i ≠ k) (inside : 2 ^ k ≤ res.length) :
    coverageXor (setParity res k) i = coverageXor res i := by
  have positive := Nat.two_pow_pos k
  rw [setParity, coverageXor_set (by omega), Nat.sub_add_cancel positive, Nat.testBit_two_pow_of_ne other.symm]
  simp

/-- A parity written over a placeholder 0 makes its own coverage XOR 0 (42_fec_encoder.md R144). -/
theorem coverageXor_setParity_self (inside : 2 ^ i ≤ res.length) (placeholder : res.getD (2 ^ i - 1) false = false) :
    coverageXor (setParity res i) i = false := by
  have positive := Nat.two_pow_pos i
  rw [setParity, coverageXor_set (by omega), Nat.sub_add_cancel positive, Nat.testBit_two_pow_self, placeholder]
  simp

/-- A placeholder stays until its own parity is written. -/
theorem setParities_getD_later {r : Nat} (later : r ≤ i) :
    (setParities r res).getD (2 ^ i - 1) false = res.getD (2 ^ i - 1) false := by
  refine setParities_getD_nonpow r res _ fun j below same => ?_
  rw [Nat.sub_add_cancel (Nat.two_pow_pos i)] at same
  have := Nat.pow_right_injective (le_refl 2) same
  omega

/-- After the parities below `r`, each of their coverage XORs is 0 (42_fec_encoder.md R144). -/
theorem coverageXor_setParities {r : Nat} (inside : ∀ i < r, 2 ^ i ≤ res.length)
    (placeholder : ∀ i < r, res.getD (2 ^ i - 1) false = false) :
    ∀ i < r, coverageXor (setParities r res) i = false := by
  induction r with
  | zero => exact fun i below => absurd below (Nat.not_lt_zero i)
  | succ r ih =>
    intro i below
    have room : 2 ^ r ≤ (setParities r res).length := by simpa using inside r r.lt_succ_self
    rw [setParities_succ]
    rcases Nat.lt_succ_iff_lt_or_eq.mp below with earlier | rfl
    · rw [coverageXor_setParity_of_ne earlier.ne room]
      have below_succ : ∀ j < r, j < r + 1 := fun j h => h.trans r.lt_succ_self
      exact ih (fun j h => inside j (below_succ j h)) (fun j h => placeholder j (below_succ j h)) i earlier
    · exact coverageXor_setParity_self room ((setParities_getD_later le_rfl).trans (placeholder i below))

end

/-- Every coverage XOR of the Hamming part is 0 (42_fec_encoder.md R144). -/
theorem coverageXor_hammingBits {data : List Bool} {i : Nat} (counted : i < rmin data.length) :
    coverageXor (hammingBits data) i = false := by
  refine coverageXor_setParities (fun j below => ?inside) (fun j below => ?placeholder) i counted
  case inside => rw [insertBits_length, two_pow_le_iff_lt_rmin]; exact below
  case placeholder =>
    have positive := Nat.two_pow_pos j
    have inside : 2 ^ j ≤ data.length + rmin data.length := two_pow_le_iff_lt_rmin.mpr below
    exact insertBits_getD_pow _ _ _ _ (by omega) ((isPowerOfTwo_iff _ (by omega)).mpr ⟨j, by omega⟩)

/-- The CodedSequence begins with its Hamming part (42_fec_encoder.md R145). -/
theorem hammingBits_begins_fecEncode (data : List Bool) : hammingBits data <+: fecEncode data :=
  ⟨_, (List.append_assoc _ _ _).symm⟩

/-- A coverage XOR of the CodedSequence is that of its Hamming part (42_fec_encoder.md R143). -/
theorem xorAll_covered_fecEncode (data : List Bool) (i : Nat) :
    xorAll ((covered (data.length + rmin data.length) i).map fun t => (fecEncode data).getD t false) =
      coverageXor (hammingBits data) i := by
  obtain ⟨chunks, code⟩ := hammingBits_begins_fecEncode data
  rw [← code, ← hammingBits_length, xorAll_covered_append]

/-- Settles O23: the XOR over the whole set is 0, so that the parity is the XOR of the others. -/
theorem fecParitiesAreEven : Obligations.FecParitiesAreEven := by
  intro data i counted n
  have even := (xorAll_covered_fecEncode data i).trans (coverageXor_hammingBits counted)
  refine ⟨even, ?_⟩
  have own : 2 ^ i - 1 ∈ covered n i := self_mem_covered (two_pow_le_iff_lt_rmin.mpr counted)
  rw [xorAll_filter_ne _ _ _ (covered_nodup n i) own, bne_eq_false_iff_eq] at even
  have positive := Nat.two_pow_pos i
  have position : ∀ t, t + 1 ≠ 2 ^ i ↔ t ≠ 2 ^ i - 1 := fun t => by omega
  simpa only [position, covered] using even

/-! ### One flipped bit -/

/-- One bit flipped (42_fec_encoder.md R149). -/
def flipAt (l : List Bool) (t : Nat) : List Bool := l.set t (!l.getD t false)

@[simp] theorem flipAt_length (l : List Bool) (t : Nat) : (flipAt l t).length = l.length := List.length_set

theorem flipAt_append {l : List Bool} {t : Nat} (inside : t < l.length) (more : List Bool) :
    flipAt (l ++ more) t = flipAt l t ++ more := by
  rw [flipAt, List.set_append_left _ _ inside, List.getD_append _ _ _ _ inside, flipAt]

/-- Where one bit of the Hamming part is flipped, each check that covers it fails (42_fec_encoder.md R149). -/
theorem coverageXor_flipAt {data : List Bool} {j i : Nat} (inside : j - 1 < (hammingBits data).length)
    (positive : 1 ≤ j) (counted : i < rmin data.length) (covers : j.testBit i = true) :
    coverageXor (flipAt (hammingBits data) (j - 1)) i = true := by
  rw [flipAt, coverageXor_set inside, Nat.sub_add_cancel positive, if_pos covers, coverageXor_hammingBits counted]
  simp

/-- A position that is no power of two has two bits (42_fec_encoder.md R149). -/
theorem exists_two_bits {j : Nat} (positive : 1 ≤ j) (nonpower : isPowerOfTwo j = false) :
    ∃ i i', i ≠ i' ∧ j.testBit i = true ∧ j.testBit i' = true := by
  obtain ⟨i, bit⟩ := Nat.exists_testBit_of_ne_zero (Nat.one_le_iff_ne_zero.mp positive)
  have other : j ≠ 2 ^ i := fun power => by
    rw [(isPowerOfTwo_iff j positive).mpr ⟨i, power⟩] at nonpower
    cases nonpower
  obtain ⟨i', differ⟩ := Nat.exists_testBit_ne_of_ne other
  have apart : i ≠ i' := by
    rintro rfl
    exact differ (bit.trans Nat.testBit_two_pow_self.symm)
  rw [Nat.testBit_two_pow_of_ne apart] at differ
  exact ⟨i, i', apart, bit, Bool.eq_true_of_not_eq_false differ⟩

/-- Settles O27: the position of a data bit has two bits, and the checks of both cover it. -/
theorem fecFlipBreaksTwoChecks : Obligations.FecFlipBreaksTwoChecks := by
  intro data j n positive last nonpower flipped check
  have inside : j - 1 < (hammingBits data).length := by rw [hammingBits_length]; omega
  have fails : ∀ i, j.testBit i = true → i < rmin data.length ∧ check i = true := by
    intro i bit
    have counted : i < rmin data.length := two_pow_le_iff_lt_rmin.mp ((Nat.ge_two_pow_of_testBit bit).le.trans last)
    obtain ⟨chunks, code⟩ := hammingBits_begins_fecEncode data
    have flip : flipped = flipAt (hammingBits data) (j - 1) ++ chunks := by
      rw [← flipAt_append inside, code]
      rfl
    have size : (flipAt (hammingBits data) (j - 1)).length = n := by rw [flipAt_length, hammingBits_length]
    have fails := coverageXor_flipAt inside positive counted bit
    rw [← xorAll_covered_append _ chunks, ← flip, size] at fails
    exact ⟨counted, fails⟩
  obtain ⟨i, i', apart, bit, bit'⟩ := exists_two_bits positive nonpower
  obtain ⟨counted, fails_i⟩ := fails i bit
  obtain ⟨counted', fails_i'⟩ := fails i' bit'
  exact ⟨i, i', counted, counted', apart, fails_i, fails_i'⟩

/-! ### The chunk parities -/

/-- A chunk parity over the indices it covers alone (42_fec_encoder.md R145). -/
theorem strideXor_eq (res : List Bool) (chunk : Nat) :
    strideXor res chunk =
      xorAll (((List.range res.length).filter fun t => t % chunk = 0).map fun t => res.getD t false) := by
  rw [← xorAll_map_if, strideXor]
  simp

/-- Settles O24: the sequence grows by one chunk parity after the other. -/
theorem fecChunkParities : Obligations.FecChunkParities := by
  intro data h q4 q8
  have four : strideXor h 4 = q4 := strideXor_eq h 4
  have eight : strideXor (h ++ [q4]) 8 = q8 := by
    rw [strideXor_eq, List.length_append, List.length_singleton]
  rw [fecEncode_eq, List.append_assoc, four, eight]
  rfl

/-- The chunk parity that follows a sequence, read from any sequence they begin (42_fec_encoder.md R145). -/
theorem getD_chunk_parity {res code : List Bool} {chunk : Nat} (begins : res ++ [strideXor res chunk] <+: code) :
    code.getD res.length false =
      xorAll (((List.range res.length).filter fun t => t % chunk = 0).map fun t => code.getD t false) := by
  obtain ⟨more, rfl⟩ := begins
  have before : ∀ t < res.length, (res ++ [strideXor res chunk] ++ more).getD t false = res.getD t false := by
    intro t inside
    rw [List.append_assoc, List.getD_append _ _ _ _ inside]
  rw [List.map_congr_left fun t member => before t (List.mem_range.mp (List.mem_filter.mp member).1), ← strideXor_eq]
  simp [List.getD]

/-! ### Five digits -/

/-- XOR does not depend on the order of the bits. -/
theorem xorAll_perm {l l' : List Bool} (same : l.Perm l') : xorAll l = xorAll l' :=
  List.Perm.foldr_eq (lcomm := ⟨Bool.xor_left_comm⟩) same false

/-- Bits taken twice cancel. -/
theorem xorAll_cancel {α : Type} {l twice rest : List α} (d : α → Bool) (parts : l.Perm (rest ++ twice)) :
    (xorAll (l.map d) ^^ xorAll (twice.map d)) = xorAll (rest.map d) := by
  rw [xorAll_perm (parts.map d), List.map_append, xorAll_append, Bool.xor_assoc, Bool.xor_self, Bool.xor_false]

/-- The index in the CodedSequence of the data bit `k` of a 5-digit message (42_fec_encoder.md R148). -/
def fiveDigitPlace (k : Nat) : Nat := ((List.range 25).filter fun t => !isPowerOfTwo (t + 1)).getD k 0

/-- The bits `c` of a CodedSequence of the twenty data bits `d` are those the rules ask for (42_fec_encoder.md R142 to
R145). -/
structure FiveDigitCode (d c : Nat → Bool) : Prop where
  data : ∀ k < 20, c (fiveDigitPlace k) = d k
  parity : ∀ i < 5, c (2 ^ i - 1) = xorAll (((covered 25 i).filter fun t => t + 1 ≠ 2 ^ i).map c)
  chunk4 : c 25 = xorAll (((List.range 25).filter fun t => t % 4 = 0).map c)
  chunk8 : c 26 = xorAll (((List.range 26).filter fun t => t % 8 = 0).map c)

/-- The encoder keeps the rules, for any twenty data bits. -/
theorem fiveDigitCode_fecEncode {data : List Bool} (size : data.length = 20) :
    FiveDigitCode (fun k => data.getD k false) fun t => (fecEncode data).getD t false := by
  have count : rmin data.length = 5 := by rw [size]; decide
  have hamming : (hammingBits data).length = 25 := by rw [hammingBits_length, count, size]
  refine ⟨fun k inside => ?data, fun i counted => ?parity, ?chunk4, ?chunk8⟩
  case data =>
    obtain ⟨stored, -⟩ := fecKeepsTheDataInOrder data
    rw [count, size] at stored
    have place : k < ((List.range 25).filter fun t => !isPowerOfTwo (t + 1)).length := inside.trans_eq (by decide)
    conv_rhs => rw [← stored]
    simp [fiveDigitPlace, List.getD, place]
  case parity =>
    obtain ⟨-, others⟩ := fecParitiesAreEven data i (by rwa [count])
    rw [count, size] at others
    exact others
  case chunk4 =>
    have begins : hammingBits data ++ [strideXor (hammingBits data) 4] <+: fecEncode data := ⟨_, rfl⟩
    rw [← hamming]
    exact getD_chunk_parity begins
  case chunk8 =>
    have length : (hammingBits data ++ [strideXor (hammingBits data) 4]).length = 26 := by
      rw [List.length_append, hamming, List.length_singleton]
    rw [← length]
    exact getD_chunk_parity (code := fecEncode data) ⟨[], List.append_nil _⟩

/-- A list is its elements from index 0 on. -/
theorem eq_map_getD {l : List Bool} {n : Nat} (size : l.length = n) :
    l = (List.range n).map fun t => l.getD t false := by
  subst size
  refine List.ext_getElem (by rw [List.length_map, List.length_range]) fun t inside _ => ?_
  rw [List.getElem_map, List.getElem_range, List.getD_eq_getElem _ _ inside]

/-- The CodedSequence of any twenty data bits is 27 bits that keep the rules. -/
theorem exists_fiveDigitCode (d : Nat → Bool) :
    ∃ c, fecEncode ((List.range 20).map d) = (List.range 27).map c ∧ FiveDigitCode d c := by
  have size : ((List.range 20).map d).length = 20 := by rw [List.length_map, List.length_range]
  have rules := fiveDigitCode_fecEncode size
  have length : (fecEncode ((List.range 20).map d)).length = 27 := by
    rw [fecEncode_length, size]
    decide
  refine ⟨_, eq_map_getD length, { rules with data := fun k inside => (rules.data k inside).trans ?_ }⟩
  simp [List.getD, inside]

section

variable {d c : Nat → Bool} {i : Nat} {l : List Nat}

/-- An XOR of data bits at their places. -/
theorem FiveDigitCode.xorAll_places (h : FiveDigitCode d c) (inside : ∀ k ∈ l, k < 20) :
    xorAll ((l.map fiveDigitPlace).map c) = xorAll (l.map d) := by
  rw [List.map_map]
  exact congrArg xorAll (List.map_congr_left fun k member => h.data k (inside k member))

/-- A parity is the XOR of the data bits it covers. -/
theorem FiveDigitCode.parity_eq (h : FiveDigitCode d c) (counted : i < 5) (inside : ∀ k ∈ l, k < 20)
    (covers : (covered 25 i).filter (fun t => t + 1 ≠ 2 ^ i) = l.map fiveDigitPlace) :
    c (2 ^ i - 1) = xorAll (l.map d) := by
  rw [h.parity i counted, covers, h.xorAll_places inside]

/-- A chunk parity takes the first parity and data bits; those that the first parity covers cancel. -/
theorem FiveDigitCode.chunk_eq (h : FiveDigitCode d c) {places first rest : List Nat}
    (parity : c 0 = xorAll (first.map d))
    (inside : ∀ k ∈ l, k < 20) (covers : places = 0 :: l.map fiveDigitPlace) (parts : first.Perm (rest ++ l)) :
    xorAll (places.map c) = xorAll (rest.map d) := by
  rw [covers, List.map_cons, xorAll_cons, h.xorAll_places inside, parity, xorAll_cancel d parts]

end

/-- Settles O26: the rules of the data, the parities and the chunk parities determine all 27 bits. -/
theorem fecFiveDigitTree : Obligations.FecFiveDigitTree := by
  intro d x p0 p1 p2 p3 p4
  obtain ⟨c, code, h⟩ := exists_fiveDigitCode d
  have parity0 : c 0 = p0 := h.parity_eq (i := 0) (by decide) (by decide) (by decide)
  have parity1 : c 1 = p1 := h.parity_eq (i := 1) (by decide) (by decide) (by decide)
  have parity2 : c 3 = p2 := h.parity_eq (i := 2) (by decide) (by decide) (by decide)
  have parity3 : c 7 = p3 := h.parity_eq (i := 3) (by decide) (by decide) (by decide)
  have parity4 : c 15 = p4 := h.parity_eq (i := 4) (by decide) (by decide) (by decide)
  have chunk4 : c 25 = x [0, 3, 6, 10, 13, 17] :=
    h.chunk4.trans (h.chunk_eq (l := [1, 4, 8, 11, 15, 19]) parity0 (by decide) (by decide) (by decide))
  have chunk8 : c 26 = x [0, 1, 3, 6, 8, 10, 13, 15, 17] :=
    h.chunk8.trans (h.chunk_eq (l := [4, 11, 19]) parity0 (by decide) (by decide) (by decide))
  have data : ∀ k < 20, d k = c (fiveDigitPlace k) := fun k inside => (h.data k inside).symm
  rw [code, ← parity0, ← parity1, ← parity2, ← parity3, ← parity4, ← chunk4, ← chunk8]
  simp only [data, Nat.reduceLT]
  rfl

end Sys2Proof.Machine
end

section
/-!
PROOFS. `FEC`: the command completes whenever it may execute, with the lengths of its rule (42_fec_encoder.md R146,
R147).
-/
namespace Sys2Proof.Machine

/-- A register holds the parity count of every bit count a register holds (42_fec_encoder.md R146). -/
theorem rmin_le_of_lt {m : Nat} (small : m < 2 ^ 32) : rmin m ≤ 33 := rmin_le_iff.mpr (by omega)

/-- `FEC` sets `V.CODED` and clears `V.ASM` and `V.OUT` (10_state.md R35). -/
theorem completedStatus_fec (st : Flags) : completedStatus .fec st = (st &&& 0x3F#8) ||| 0x04#8 := rfl

/-- Settles O20: `FEC` has no check of its own, and its parity count fits its register. -/
theorem fecCompletes : Obligations.FecCompletes := by
  intro s noError ready m
  have count : lengthReg Config.params (rmin m + 2) = BitVec.ofNat 32 (rmin m + 2) :=
    lengthReg_of_lt _ (by have : rmin m ≤ 33 := rmin_le_of_lt s.bitLen.isLt; omega)
  refine ⟨?_, lengthReg_of_lt _⟩
  rw [exec_own .fec s (.inl noError) (missingFlags_eq_zero rfl ready), ← count, ← completedStatus_fec]
  rfl

/-- The length of the bits that `FEC` reads. -/
theorem bitList_length {α : Type} (b : Block α) (P : Params α) (n : Nat) : (b.bitList P n).length = n := by
  rw [Block.bitList, List.length_map, List.length_range]

/-- Settles O25: the lengths of the state that `FEC` answers, inside the capacity as the code grows with the data. -/
theorem fecLengths : Obligations.FecLengths := by
  intro s noError ready bounded m
  obtain ⟨done, -⟩ := fecCompletes s noError ready
  have size : (fecEncode (s.bitList Config.params m)).length = m + rmin m + 2 := by
    rw [fecEncode_length, bitList_length]
  have room : m + rmin m + 2 ≤ Config.params.cmax :=
    Nat.add_le_add_right (Nat.add_le_add bounded (rmin_mono bounded)) 2
  have parCnt : (BitVec.ofNat 32 (rmin m + 2)).toNat = rmin m + 2 :=
    Nat.mod_eq_of_lt (by have : rmin m ≤ 33 := rmin_le_of_lt s.bitLen.isLt; omega)
  refine ⟨_, done, size, size.trans_le room, parCnt, rfl, fun short => ?_⟩
  have codedLen : (lengthReg Config.params (m + rmin m + 2)).toNat = m + rmin m + 2 := lengthReg_toNat _ short
  exact ⟨codedLen, codedLen.trans (congrArg (m + ·) parCnt.symm)⟩

end Sys2Proof.Machine
end

section
/-!
PROOFS. The phase of a chirp: the sines follow it over any number domain, and its closed form over exact numbers
(43_chirp_synthesizer.md R171 to R174, R182).
-/
namespace Sys2Proof.Machine

/-! ### The phase over any number domain -/

section

variable {α : Type} (N : NUM α) (inc : Nat → α)

/-- The phase of sample `i`: from 0 on, each increment added in turn (43_chirp_synthesizer.md R172, R174). -/
def phaseAt : Nat → α
  | 0 => N.zero
  | i + 1 => N.add (phaseAt i) (inc i)

/-- The phases of the samples from sample `i` on are their phases in order (43_chirp_synthesizer.md R172). -/
theorem phases_eq_map_phaseAt (n i : Nat) :
    phases N inc n i (phaseAt N inc i) = (List.range' i n).map (phaseAt N inc) := by
  induction n generalizing i with
  | zero => rfl
  | succ n ih => exact congrArg (phaseAt N inc i :: ·) (ih (i + 1))

/-- Phase `i` of a chirp (43_chirp_synthesizer.md R172, R174). -/
theorem phases_get {n i : Nat} (inside : i < n) : (phases N inc n 0 N.zero)[i]? = some (phaseAt N inc i) := by
  have all := phases_eq_map_phaseAt N inc n 0
  rw [phaseAt] at all
  rw [all, List.getElem?_map, List.getElem?_range' inside, Option.map_some, Nat.zero_add, Nat.one_mul]

/-- Sample `i` before the window is the sine of phase `i` (43_chirp_synthesizer.md R173). -/
theorem chirpSines_get {isUp : Bool} {d fe i : Nat} {fc bw : α} (inside : i < d) :
    (chirpSines N isUp d fc bw fe)[i]? = some (N.sin (phaseAt N (phaseInc N isUp d fc bw fe) i)) := by
  rw [chirpSines, List.getElem?_map, phases_get N _ inside, Option.map_some]

end

/-- Settles O28: the phase is `phaseAt` of the chirp's increments. -/
theorem chirpSinesFollowThePhase : Obligations.ChirpSinesFollowThePhase := by
  intro α N isUp d fc bw fe wc bRad slope inc
  refine ⟨chirpSines_length N isUp d fc bw fe, phaseAt N inc, rfl, fun _ => rfl, fun i => chirpSines_get N, ?first⟩
  intro sinZero samples
  exact (chirpSines_get N samples).trans (congrArg some sinZero)

/-! ### The closed form over exact numbers -/

section

variable {K : Type} [Field K] [LinearOrder K] [FloorRing K] {pi : K} {sin cos : K → K}

/-- The increment over exact numbers, with its angular steps (43_chirp_synthesizer.md R171, R172). -/
theorem phaseInc_exact (isUp : Bool) (d : Nat) (fc bw : K) (fe i : Nat) :
    phaseInc (exactNum pi sin cos) isUp d fc bw fe i =
      (if isUp = true then 1 else -1) * (2 * pi * bw / fe) / d * (i + 1 / 2 * (1 - d)) + 2 * pi * fc / fe := rfl

/-- A phase whose increments grow evenly about their middle (43_chirp_synthesizer.md R182). -/
theorem phaseAt_of_linear {d : Nat} {wc sweep : K} {inc : Nat → K} (samples : (d : K) ≠ 0)
    (linear : ∀ i : Nat, inc i = sweep / d * (i + 1 / 2 * (1 - d)) + wc) (i : Nat) :
    phaseAt (exactNum pi sin cos) inc i = i * wc + sweep * i * (i - d) / (2 * d) := by
  induction i with
  | zero => simp [phaseAt]
  | succ i ih =>
    rw [phaseAt, ih, linear, exactNum_add]
    push_cast
    field_simp
    ring

end

/-- Settles O29: the increments grow evenly, so that the phase is the sum of an arithmetic sequence. -/
theorem phaseClosedForm : Obligations.PhaseClosedForm := by
  intro K _ _ _ _ pi sin cos isUp d fc bw fe i inside N slope
  have samples : (d : K) ≠ 0 := Nat.cast_ne_zero.mpr (by omega)
  exact (phases_get N _ inside).trans (congrArg some (phaseAt_of_linear samples (phaseInc_exact isUp d fc bw fe) i))

end Sys2Proof.Machine
end

section
/-!
PROOFS. The Tukey window and the Hann window its edges are made of, over exact numbers (43_chirp_synthesizer.md R175 to
R177).
-/
namespace Sys2Proof.Machine

/-! ### The taper lengths -/

section

variable {K : Type} [Field K] [LinearOrder K] [FloorRing K] [IsStrictOrderedRing K] {pi : K} {sin cos : K → K}

/-- `di` is the ceiling it is written as (43_chirp_synthesizer.md R176). -/
theorem hannLength_eq_ceil (d : Nat) : (hannLength (exactNum pi sin cos) d : Int) = ⌈(d : K) * (1 / 2)⌉ := by
  rw [hannLength_exact, ceil_half]

/-- `h` is the ceiling it is written as (43_chirp_synthesizer.md R176). -/
theorem edgeLength_eq_ceil (d : Nat) :
    (edgeLength (exactNum pi sin cos) d : Int) = ⌈(hannLength (exactNum pi sin cos) d : K) / 2⌉ := by
  rw [edgeLength_exact, div_eq_mul_one_div, ceil_half]

/-- The window with its lengths in integers (43_chirp_synthesizer.md R175, R176). -/
theorem tukey_exact {H : Nat → Nat → K} {d k di h : Nat} (hann : di = (d + 1) / 2) (edge : h = (di + 1) / 2) :
    tukey (exactNum pi sin cos) H d k =
      if k < h then H di k else if k < d - h then 1 else H di (di - h + (k - (d - h))) := by
  rw [tukey, edgeLength_exact, hannLength_exact, ← hann, ← edge]
  rfl

end

/-- Settles O30: both lengths are ceilings of a half. -/
theorem taperLengths : Obligations.TaperLengths := by
  intro K _ _ _ _ pi sin cos N
  have di (d : Nat) : hannLength N d = (d + 1) / 2 := hannLength_exact d
  have h (d : Nat) : edgeLength N d = (hannLength N d + 1) / 2 := edgeLength_exact d
  refine ⟨fun d => ⟨hannLength_eq_ceil d, di d, edgeLength_eq_ceil d, h d, fun two => ?noOverlap⟩, ?shortest, ?longest,
    ?one⟩
  case noOverlap =>
    rw [h, di]
    omega
  case shortest | longest => simp only [h, di, Nat.reduceAdd, Nat.reduceDiv, Nat.reduceMul, Nat.reduceSub, and_self]
  case one => exact ⟨di 1, (h 1).trans (by rw [di 1]), fun H => tukey_exact (di := 1) (h := 1) rfl rfl⟩

/-- Settles O31: each part is its branch of the window; the falling edge begins at or after the end of the rising edge
but for a single sample, where both are `H[0]`. -/
theorem tukeyWindowShape : Obligations.TukeyWindowShape := by
  intro K _ _ _ _ pi sin cos H d k samples N di h
  have window (j : Nat) : tukey N H d j =
      if j < h then H di j else if j < d - h then 1 else H di (di - h + (j - (d - h))) := tukey_exact rfl rfl
  refine ⟨fun rising => ?_, fun flat middle => ?_, fun falling => ?_⟩
  · rw [window, if_pos rising]
  · rw [window, if_neg (by omega), if_pos middle]
  · rcases samples.eq_or_lt with one | two
    · rw [window, if_pos (by omega), show d - h + k = di - h + k by omega]
    · rw [window, if_neg (by omega), if_neg (by omega), Nat.add_sub_cancel_left]

/-! ### The Hann window -/

/-- What the Hann window needs of pi and the cosine: the reference's values at parts of a turn, and its symmetry about
half a turn (43_chirp_synthesizer.md R177). -/
structure CosineValues {K : Type} [Field K] [LinearOrder K] (pi : K) (cos : K → K) : Prop where
  pi_pos : 0 < pi
  zero : cos 0 = 1
  quarter : cos (pi / 2) = 0
  half : cos pi = -1
  third : cos (2 * pi / 3) = -(1 / 2)
  reflect : ∀ x, 0 ≤ x → x ≤ pi → cos (2 * pi - x) = cos x

section

variable {K : Type} [Field K] [LinearOrder K] [IsStrictOrderedRing K] {pi : K} {sin cos : K → K}

/-- The cosine's symmetry on the whole first turn. -/
theorem CosineValues.reflect_turn (c : CosineValues pi cos) {x : K} (nonneg : 0 ≤ x) (turn : x ≤ 2 * pi) :
    cos (2 * pi - x) = cos x := by
  rcases le_total x pi with first | second
  · exact c.reflect x nonneg first
  · have mirrored := c.reflect (2 * pi - x) (by linarith) (by linarith)
    rw [sub_sub_cancel] at mirrored
    exact mirrored.symm

end

section

variable {K : Type} [Field K] [LinearOrder K] [FloorRing K] {pi : K} {sin cos : K → K}

/-- The Hann window over exact numbers (43_chirp_synthesizer.md R177). -/
theorem symmetricHann_exact {di k : Nat} (two : 2 ≤ di) :
    symmetricHann (exactNum pi sin cos) di k = 1 / 2 - 1 / 2 * cos (2 * pi * k / (di - 1 : Nat)) :=
  symmetricHann_of_two_le two

/-- The Hann window begins with 0 (43_chirp_synthesizer.md R177). -/
theorem CosineValues.hann_first (c : CosineValues pi cos) {di : Nat} (two : 2 ≤ di) :
    symmetricHann (exactNum pi sin cos) di 0 = 0 := by
  rw [symmetricHann_exact two, Nat.cast_zero, mul_zero, zero_div, c.zero, mul_one, sub_self]

/-- The middle of a Hann window of odd length is 1 (43_chirp_synthesizer.md R177). -/
theorem CosineValues.hann_middle (c : CosineValues pi cos) {k : Nat} (one : 1 ≤ k) :
    symmetricHann (exactNum pi sin cos) (2 * k + 1) k = 1 := by
  have nonzero : (k : K) ≠ 0 := Nat.cast_ne_zero.mpr (by omega)
  have angle : 2 * pi * k / (2 * k + 1 - 1 : Nat) = pi := by
    rw [Nat.add_sub_cancel]
    push_cast
    field_simp
  rw [symmetricHann_exact (by omega), angle, c.half]
  norm_num

/-- Next to the ends of the Hann window of length 4 stands 3/4 (43_chirp_synthesizer.md R177). -/
theorem CosineValues.hann_four (c : CosineValues pi cos) : symmetricHann (exactNum pi sin cos) 4 1 = 3 / 4 := by
  have angle : 2 * pi * (1 : Nat) / (4 - 1 : Nat) = 2 * pi / 3 := by norm_num
  rw [symmetricHann_exact (by decide), angle, c.third]
  norm_num

/-- Next to the ends of the Hann window of length 5 stands 1/2 (43_chirp_synthesizer.md R177). -/
theorem CosineValues.hann_five (c : CosineValues pi cos) : symmetricHann (exactNum pi sin cos) 5 1 = 1 / 2 := by
  have angle : 2 * pi * (1 : Nat) / (5 - 1 : Nat) = pi / 2 := by
    push_cast
    ring
  rw [symmetricHann_exact (by decide), angle, c.quarter]
  norm_num

variable [IsStrictOrderedRing K]

/-- The Hann window reads the same from either end (43_chirp_synthesizer.md R177). -/
theorem CosineValues.hann_symmetric (c : CosineValues pi cos) {di k : Nat} (two : 2 ≤ di) (inside : k < di) :
    symmetricHann (exactNum pi sin cos) di k = symmetricHann (exactNum pi sin cos) di (di - 1 - k) := by
  have last : (0 : K) < (di - 1 : Nat) := Nat.cast_pos.mpr (by omega)
  have upTo : (k : K) ≤ (di - 1 : Nat) := Nat.cast_le.mpr (by omega)
  have turnPos : 0 ≤ 2 * pi := by linarith [c.pi_pos]
  have nonneg : 0 ≤ 2 * pi * k / (di - 1 : Nat) := by positivity
  have turn : 2 * pi * k / (di - 1 : Nat) ≤ 2 * pi := by
    rw [div_le_iff₀ last]
    exact mul_le_mul_of_nonneg_left upTo turnPos
  have angle : 2 * pi * (di - 1 - k : Nat) / (di - 1 : Nat) = 2 * pi - 2 * pi * k / (di - 1 : Nat) := by
    rw [Nat.cast_sub (by omega), mul_sub, sub_div, mul_div_cancel_right₀ _ last.ne']
  rw [symmetricHann_exact two, symmetricHann_exact two, angle, c.reflect_turn nonneg turn]

/-- The Hann window ends with 0 (43_chirp_synthesizer.md R177). -/
theorem CosineValues.hann_last (c : CosineValues pi cos) {di : Nat} (two : 2 ≤ di) :
    symmetricHann (exactNum pi sin cos) di (di - 1) = 0 := by
  rw [c.hann_symmetric two (by omega), Nat.sub_self, c.hann_first two]

/-- The Tukey windows that 43_chirp_synthesizer.md R177 writes out, made of any Hann window. -/
theorem tukey_windows (H : Nat → Nat → K) : let w := fun d => (List.range d).map (tukey (exactNum pi sin cos) H d)
    w 8 = [H 4 0, H 4 1, 1, 1, 1, 1, H 4 2, H 4 3] ∧ w 9 = [H 5 0, H 5 1, H 5 2, 1, 1, 1, H 5 2, H 5 3, H 5 4] ∧
    w 4 = [H 2 0, 1, 1, H 2 1] ∧ w 2 = [H 1 0, H 1 0] := by
  have w (d : Nat) : tukey (exactNum pi sin cos) H d = fun k => _ := funext fun k => tukey_exact rfl rfl
  simp only [w]
  exact ⟨rfl, rfl, rfl, rfl⟩

end

/-- Settles O32: the formula is the definition; the values follow from those of the cosine, and each written window is
made of Hann windows of length 4, 5, 2 and 1. -/
theorem hannWindow : Obligations.HannWindow := by
  refine ⟨fun α N di k two _ => symmetricHann_of_two_le two, ?_⟩
  intro K _ _ _ _ pi sin cos pi_pos zero quarter half third reflect N H
  have c : CosineValues pi cos := { pi_pos, zero, quarter, half, third, reflect }
  have symm {di k : Nat} (two : 2 ≤ di) (inside : k < di) : H di k = H di (di - 1 - k) := c.hann_symmetric two inside
  have first {di : Nat} (two : 2 ≤ di) : H di 0 = 0 := c.hann_first two
  have last {di : Nat} (two : 2 ≤ di) : H di (di - 1) = 0 := c.hann_last two
  have middle {k : Nat} (one : 1 ≤ k) : H (2 * k + 1) k = 1 := c.hann_middle one
  have h10 : H 1 0 = 1 := rfl
  have h41 : H 4 1 = 3 / 4 := c.hann_four
  have h42 : H 4 2 = 3 / 4 := (symm (by decide) (by decide)).trans h41
  have h43 : H 4 3 = 0 := last (by decide)
  have h51 : H 5 1 = 1 / 2 := c.hann_five
  have h52 : H 5 2 = 1 := middle (k := 2) (by decide)
  have h53 : H 5 3 = 1 / 2 := (symm (by decide) (by decide)).trans h51
  have h54 : H 5 4 = 0 := last (by decide)
  have h21 : H 2 1 = 0 := last (by decide)
  obtain ⟨eight, nine, four, two⟩ := tukey_windows (pi := pi) (sin := sin) (cos := cos) H
  refine ⟨fun di k => symm, h10, fun di two => ⟨first two, last two⟩, fun k => middle, eight.trans ?_, nine.trans ?_,
    four.trans ?_, two.trans ?_⟩
  · rw [first (by decide), h41, h42, h43]
  · rw [first (by decide), h51, h52, h53, h54]
  · rw [first (by decide), h21]
  · rw [h10]

end Sys2Proof.Machine
end

section
/-!
PROOFS. The unit-peak normaliser and the `CHIRP` commands: they complete where the divisor is not 0, and raise
`DegenerateChirp` where it is (43_chirp_synthesizer.md R179 to R184).
-/
namespace Sys2Proof.Machine

/-! ### The windowed samples over exact numbers -/

section

variable {K : Type} [Field K] [LinearOrder K] [FloorRing K] {pi : K} {sin cos : K → K} {H : Nat → Nat → K}
  {absolute isUp : Bool} {d fe : Nat} {fc bw : K} {l y : List K}

/-- With `CHIRP_NORM_ABS` no sample is above the divisor in magnitude (43_chirp_synthesizer.md R179). -/
theorem abs_le_chirpDivisor {v : K} (member : v ∈ y) : |v| ≤ chirpDivisor (exactNum pi sin cos) true y :=
  le_maxNum (List.mem_map_of_mem (f := fun v => |v|) member)

/-- A chirp that is made has samples: the divisor of none is 0 (43_chirp_synthesizer.md R180). -/
theorem samples_of_synthesize (made : synthesize (exactNum pi sin cos) H absolute isUp d fc bw fe = some l) :
    0 < d := by
  obtain ⟨nonzero, -⟩ := synthesize_cases made
  refine Nat.pos_of_ne_zero fun noSamples => of_decide_eq_false nonzero ?_
  have empty : windowed (exactNum pi sin cos) H isUp d fc bw fe = [] :=
    List.eq_nil_of_length_eq_zero ((windowed_length _ _ _ _ _ _ _).trans noSamples)
  rw [empty]
  cases absolute <;> rfl

/-- The first windowed sample is 0 (43_chirp_synthesizer.md R174, R178). -/
theorem windowed_first (sinZero : sin 0 = 0) (samples : 0 < d) :
    (windowed (exactNum pi sin cos) H isUp d fc bw fe)[0]? = some 0 := by
  have sine : (chirpSines (exactNum pi sin cos) isUp d fc bw fe)[0]? = some 0 :=
    (chirpSines_get _ samples).trans (congrArg some sinZero)
  rw [windowed_get _ _ _ _ _ _ _ _ _ sine, exactNum_mul, zero_mul]

/-- A windowed sample that is 0 is 0 in the chirp (43_chirp_synthesizer.md R179). -/
theorem synthesize_get_zero {k : Nat} (made : synthesize (exactNum pi sin cos) H absolute isUp d fc bw fe = some l)
    (zero : (windowed (exactNum pi sin cos) H isUp d fc bw fe)[k]? = some 0) : l[k]? = some 0 := by
  obtain ⟨-, rfl⟩ := synthesize_cases made
  rw [List.getElem?_map, zero, Option.map_some, exactNum_div, zero_div]

/-- The divisor of a chirp that is made is positive: it is not below the first windowed sample, which is 0
(43_chirp_synthesizer.md R179). -/
theorem chirpDivisor_pos (sinZero : sin 0 = 0)
    (made : synthesize (exactNum pi sin cos) H absolute isUp d fc bw fe = some l) :
    0 < chirpDivisor (exactNum pi sin cos) absolute (windowed (exactNum pi sin cos) H isUp d fc bw fe) := by
  obtain ⟨nonzero, -⟩ := synthesize_cases made
  have first := windowed_first (pi := pi) (cos := cos) (H := H) (isUp := isUp) (fc := fc) (bw := bw) (fe := fe)
    sinZero (samples_of_synthesize made)
  exact (le_chirpDivisor (List.mem_of_getElem? first)).lt_of_ne (Ne.symm (of_decide_eq_false nonzero))

variable [IsStrictOrderedRing K]

/-- From three samples on the last windowed sample is 0 if the Hann window ends in 0 (43_chirp_synthesizer.md R183). -/
theorem windowed_last (three : 3 ≤ d) (endsInZero : ∀ di, 2 ≤ di → H di (di - 1) = 0) :
    (windowed (exactNum pi sin cos) H isUp d fc bw fe)[d - 1]? = some 0 := by
  obtain ⟨di, hann⟩ : ∃ di, di = (d + 1) / 2 := ⟨_, rfl⟩
  obtain ⟨h, edge⟩ : ∃ h, h = (di + 1) / 2 := ⟨_, rfl⟩
  have window : tukey (exactNum pi sin cos) H d (d - 1) = 0 := by
    rw [tukey_exact hann edge, if_neg (by omega), if_neg (by omega), show di - h + (d - 1 - (d - h)) = di - 1 by omega]
    exact endsInZero di (by omega)
  rw [windowed_get _ _ _ _ _ _ _ _ _ (chirpSines_get _ (by omega : d - 1 < d)), window, exactNum_mul, mul_zero]

/-- With the signed maximum as divisor, 1 is a sample and the largest one (43_chirp_synthesizer.md R179, R184). -/
theorem signed_unit_peak (sinZero : sin 0 = 0)
    (made : synthesize (exactNum pi sin cos) H false isUp d fc bw fe = some l) : (1 : K) ∈ l ∧ ∀ v ∈ l, v ≤ 1 := by
  have positive := chirpDivisor_pos sinZero made
  have samples := samples_of_synthesize made
  obtain ⟨-, rfl⟩ := synthesize_cases made
  constructor
  · have nonempty : windowed (exactNum pi sin cos) H isUp d fc bw fe ≠ [] :=
      List.ne_nil_of_length_pos (by rwa [windowed_length])
    exact List.mem_map.mpr ⟨_, maxNum_mem nonempty, div_self positive.ne'⟩
  · intro v member
    obtain ⟨y, windowed, rfl⟩ := List.mem_map.mp member
    exact (div_le_one positive).mpr (le_chirpDivisor windowed)

/-- With `CHIRP_NORM_ABS` no sample is above 1 in magnitude (43_chirp_synthesizer.md R179). -/
theorem abs_le_one_of_synthesize (sinZero : sin 0 = 0)
    (made : synthesize (exactNum pi sin cos) H true isUp d fc bw fe = some l) : ∀ v ∈ l, |v| ≤ 1 := by
  intro v member
  have positive := chirpDivisor_pos sinZero made
  obtain ⟨-, rfl⟩ := synthesize_cases made
  obtain ⟨y, windowed, rfl⟩ := List.mem_map.mp member
  rw [exactNum_div, abs_div, abs_of_pos positive]
  exact (div_le_one positive).mpr (abs_le_chirpDivisor windowed)

/-- The divisor of a single sample is 0, whichever it is (43_chirp_synthesizer.md R183). -/
theorem chirpDivisor_one_sample (sinZero : sin 0 = 0) :
    chirpDivisor (exactNum pi sin cos) absolute (windowed (exactNum pi sin cos) H isUp 1 fc bw fe) = 0 := by
  have silent : windowed (exactNum pi sin cos) H isUp 1 fc bw fe = [0] := by
    refine List.ext_getElem? fun k => ?_
    cases k with
    | zero => exact windowed_first sinZero Nat.one_pos
    | succ k => rw [List.getElem?_eq_none (by simp), List.getElem?_eq_none (by simp)]
  rw [silent]
  cases absolute with
  | false => rfl
  | true => exact abs_zero

end

/-- Settles O33: the divisor is positive and its own quotient is 1; no sample exceeds it, and what is 0 stays 0. -/
theorem chirpHasUnitPeak : Obligations.ChirpHasUnitPeak := by
  intro K _ _ _ _ pi sin cos H absolute isUp d fc bw fe l sinZero made
  have samples := samples_of_synthesize made
  refine ⟨synthesize_length made, ?signed, ?magnitude, ?first, ?last⟩
  case signed =>
    rintro rfl
    exact signed_unit_peak sinZero made
  case magnitude =>
    rintro rfl
    exact ⟨exists_abs_eq_one_of_synthesize made samples, abs_le_one_of_synthesize sinZero made⟩
  case first => exact synthesize_get_zero made (windowed_first sinZero samples)
  case last => exact fun three endsInZero => synthesize_get_zero made (windowed_last three endsInZero)

/-! ### The commands -/

section

variable {α : Type} {P : Params α} {b : Block α} {sel : ChirpSel}

/-- The divisor of the chirp `sel` of the block's current parameters (43_chirp_synthesizer.md R179, R181). -/
def Block.divisor (b : Block α) (P : Params α) (sel : ChirpSel) : α :=
  chirpDivisor P.num P.chirpNormAbs
    (windowed P.num P.hann sel.isUp (sel.duration b.tsym.toNat) b.fc b.bw b.fs.toNat)

/-- A chirp needs `V.CFG` alone (40_control.md R100). -/
theorem chirpCommand_ready (noError : b.err = 0) (cfg : b.status &&& 0x01#8 = 0x01#8) :
    chirpCommand P sel b = chirpBody P sel b :=
  prologue_ready noError (missingFlags_eq_zero (by cases sel <;> rfl) cfg)

/-- A chirp command raises where its divisor is 0 (43_chirp_synthesizer.md R180). -/
theorem chirpCommand_raises (noError : b.err = 0) (cfg : b.status &&& 0x01#8 = 0x01#8)
    (zero : P.num.isZero (b.divisor P sel) = true) : chirpCommand P sel b =
      .next (raise .degenerateChirp (BitVec.ofNat 32 sel.number) (raiseClears sel.instr) b) := by
  have unmade : b.chirp P sel = none := synthesize_none zero
  rw [chirpCommand_ready noError cfg, chirpBody, unmade]
  rfl

/-- A chirp command completes where its divisor is not 0 (43_chirp_synthesizer.md R181). -/
theorem chirpCommand_completes (noError : b.err = 0) (cfg : b.status &&& 0x01#8 = 0x01#8)
    (nonzero : P.num.isZero (b.divisor P sel) = false) : chirpCommand P sel b =
      .next ((b.storeChirp sel ((windowed P.num P.hann sel.isUp (sel.duration b.tsym.toNat) b.fc b.bw b.fs.toNat).map
        fun v => P.num.div v (b.divisor P sel))).completed sel.instr) := by
  have made : b.chirp P sel = some _ := synthesize_some nonzero
  rw [chirpCommand_ready noError cfg, chirpBody, made]
  rfl

/-- A chirp command of the machine (43_chirp_synthesizer.md R181). -/
theorem exec_chirp (sel : ChirpSel) (s : State) :
    exec sel.instr s = onBlock (chirpCommand Config.params sel) s := by
  cases sel <;> rfl

end

/-- Settles O35: a raise of each chirp, with its `sel` and its flags. -/
theorem chirpsOfNoAmplitudeRaise : Obligations.ChirpsOfNoAmplitudeRaise := by
  refine ⟨fun α P s noError cfg => ?_, fun s => ⟨exec_chirp .sync s, exec_chirp .up s, exec_chirp .down s⟩⟩
  exact ⟨chirpCommand_raises (sel := .sync) noError cfg, chirpCommand_raises (sel := .up) noError cfg,
    chirpCommand_raises (sel := .down) noError cfg⟩

/-- A data chirp of one sample has divisor 0 on the machine (43_chirp_synthesizer.md R183). -/
theorem divisor_one_sample {b : Block NumVal} {sel : ChirpSel} (single : sel.duration b.tsym.toNat = 1) :
    b.divisor Config.params sel = 0 := by
  rw [Block.divisor, single]
  exact chirpDivisor_one_sample (sin_zero _)

/-- A chirp command of one sample raises on the machine (43_chirp_synthesizer.md R183). -/
theorem exec_chirp_one_sample {s : State} {sel : ChirpSel} (noError : s.err = 0) (cfg : s.status &&& 0x01#8 = 0x01#8)
    (single : sel.duration s.tsym.toNat = 1) : exec sel.instr s = .next { s with
      toBlock := raise .degenerateChirp (BitVec.ofNat 32 sel.number) (raiseClears sel.instr) s.toBlock } := by
  rw [exec_chirp]
  exact onBlock_next (chirpCommand_raises noError cfg (decide_eq_true (divisor_one_sample single)))

/-- Settles O36: the one sample of `UP` and of `DOWN` is 0. -/
theorem oneSampleChirpsRaise : Obligations.OneSampleChirpsRaise := by
  intro s noError cfg one
  have single : s.tsym.toNat = 1 := congrArg BitVec.toNat one
  exact ⟨exec_chirp_one_sample (sel := .up) noError cfg single, exec_chirp_one_sample (sel := .down) noError cfg single⟩

/-- A chirp command of the machine completes where its divisor is not 0 (43_chirp_synthesizer.md R181). -/
theorem exec_chirp_completes {s : State} {sel : ChirpSel} (noError : s.err = 0) (cfg : s.status &&& 0x01#8 = 0x01#8)
    (nonzero : s.divisor Config.params sel ≠ 0) : exec sel.instr s = .next { s with
      toBlock := (s.storeChirp sel ((windowed Config.num (symmetricHann Config.num) sel.isUp
        (sel.duration s.tsym.toNat) s.fc s.bw s.fs.toNat).map
          fun v => v / s.divisor Config.params sel)).completed sel.instr } := by
  rw [exec_chirp]
  exact onBlock_next (chirpCommand_completes noError cfg (decide_eq_false nonzero))

/-- Settles O34: a completion of each chirp, with its buffer and its flags. -/
theorem chirpsComplete : Obligations.ChirpsComplete := by
  intro s noError cfg t y mx scaled
  exact ⟨exec_chirp_completes (sel := .sync) noError cfg, exec_chirp_completes (sel := .up) noError cfg,
    exec_chirp_completes (sel := .down) noError cfg⟩

end Sys2Proof.Machine
end

section
/-!
PROOFS. `ASM`: what the command stores, the length of its rule, and the samples of the signal, each coded bit's chirp
added in order from its cursor on (44_signal_assembler.md R201 to R205).
-/
namespace Sys2Proof.Machine

/-! ### The samples -/

section

variable {α : Type} {N : NUM α} {coded : List Bool} {sync up down buf : List α} {t step cur j n : Nat} {v : α}
  {bit : Bool}

/-- Every chirp of a bit is as long as a symbol. -/
theorem length_chirpOf (upSize : up.length = t) (downSize : down.length = t) (bit : Bool) :
    (if bit then up else down).length = t := by
  cases bit
  · exact downSize
  · exact upSize

/-- Sample `j` after bit number `c` is placed, where the first bit is placed at `cur` and each next one `step` later:
the bit's chirp is added where it spans `j` (44_signal_assembler.md R202). -/
def addBit (N : NUM α) (up down : List α) (t step cur : Nat) (coded : List Bool) (j : Nat) (acc : α) (c : Nat) : α :=
  if cur + c * step ≤ j ∧ j < cur + c * step + t then
    N.add acc ((if coded.getD c false then up else down).getD (j - (cur + c * step)) N.zero)
  else acc

/-- The first bit is placed at the cursor itself. -/
theorem addBit_zero : addBit N up down t step cur (bit :: coded) j v 0 =
    if cur ≤ j ∧ j < cur + t then N.add v ((if bit then up else down).getD (j - cur) N.zero) else v := by
  rw [addBit, Nat.zero_mul, Nat.add_zero, List.getD_cons_zero]

/-- A later bit is placed as if the bits began one stride later. -/
theorem addBit_succ (c : Nat) : addBit N up down t step cur (bit :: coded) j v (c + 1) =
    addBit N up down t step (cur + step) coded j v c := by
  have moved : cur + (c + 1) * step = cur + step + c * step := by ring
  rw [addBit, addBit, moved, List.getD_cons_succ]

/-- Sample `j` after every bit is placed: the bits' chirps are added to it in order (44_signal_assembler.md R202). -/
theorem placeBits_get (upSize : up.length = t) (downSize : down.length = t) (inside : j < buf.length) :
    (placeBits N up down step cur coded buf)[j]? =
      some ((List.range coded.length).foldl (addBit N up down t step cur coded j) (buf.getD j N.zero)) := by
  induction coded generalizing cur buf with
  | nil =>
    rw [placeBits, List.getElem?_eq_getElem inside, List.getD_eq_getElem _ _ inside]
    rfl
  | cons bit coded ih =>
    have first : (addAt N cur (if bit then up else down) buf).getD j N.zero =
        addBit N up down t step cur (bit :: coded) j (buf.getD j N.zero) 0 := by
      rw [List.getD_eq_getElem?_getD, addAt_get N _ _ _ _ inside, length_chirpOf upSize downSize, addBit_zero,
        Option.getD_some]
    rw [placeBits, ih (by rwa [addAt_length]), first, List.length_cons, List.range_succ_eq_map, List.foldl_cons,
      List.foldl_map]
    simp only [addBit_succ]

/-- Sample `j` before the bits: silence, and `SYNC` added to it (44_signal_assembler.md R201). -/
theorem addAt_silence_getD (size : sync.length = 4 * t) (inside : j < n) :
    (addAt N t sync (List.replicate n N.zero)).getD j N.zero =
      if t ≤ j ∧ j < 5 * t then N.add N.zero (sync.getD (j - t) N.zero) else N.zero := by
  have silent : (List.replicate n N.zero).getD j N.zero = N.zero := by
    rw [List.getD_eq_getElem?_getD, List.getElem?_replicate_of_lt inside, Option.getD_some]
  have span : t + 4 * t = 5 * t := by omega
  rw [List.getD_eq_getElem?_getD, addAt_get N _ _ _ _ (by rwa [List.length_replicate]), silent, size, span,
    Option.getD_some]

/-- Settles O39: the bits are placed in order over the silence with `SYNC` added to it. -/
theorem assembledSamples : Obligations.AssembledSamples := by
  intro α N t ov coded sync up down j _ syncSize upSize downSize inside
  rw [assemble, placeBits_get upSize downSize (by rwa [addAt_length, List.length_replicate]),
    addAt_silence_getD syncSize inside]
  rfl

end

/-! ### Without overlap -/

section

variable {α : Type} {N : NUM α} {coded : List Bool} {up down src rest pre : List α} {t cur : Nat}

/-- A chirp added to silence is the chirp itself, over a lawful number domain (00_scope.md R15). -/
theorem addAt_silence (lawful : N.Lawful) (finite : ∀ v ∈ src, N.finite v = true) :
    addAt N 0 src (List.replicate src.length N.zero ++ rest) = src ++ rest := by
  induction src with
  | nil => cases rest <;> rfl
  | cons x src ih =>
    obtain ⟨head, tail⟩ := List.forall_mem_cons.mp finite
    rw [List.length_cons, List.replicate_succ, List.cons_append, addAt, lawful.zero_add x head, ih tail,
      List.cons_append]

/-- At a stride of one symbol the chirps of the bits stand end to end in the silence (44_signal_assembler.md R205). -/
theorem placeBits_silence (lawful : N.Lawful) (upSize : up.length = t) (downSize : down.length = t)
    (finite : ∀ v ∈ up ++ down, N.finite v = true) (start : pre.length = cur) :
    placeBits N up down t cur coded (pre ++ List.replicate (coded.length * t) N.zero) =
      pre ++ (coded.map fun b => if b = true then up else down).flatten := by
  induction coded generalizing pre cur with
  | nil => rw [List.length_nil, Nat.zero_mul]; rfl
  | cons bit coded ih =>
    have size := length_chirpOf upSize downSize bit
    have finiteChirp : ∀ v ∈ (if bit then up else down), N.finite v = true := by
      intro v member
      refine finite v (List.mem_append.mpr ?_)
      cases bit
      · exact .inr member
      · exact .inl member
    have silence : List.replicate ((bit :: coded).length * t) N.zero =
        List.replicate (if bit then up else down).length N.zero ++ List.replicate (coded.length * t) N.zero := by
      rw [List.replicate_append_replicate, size, List.length_cons, Nat.succ_mul, Nat.add_comm]
    rw [placeBits, addAt_append _ _ _ _ _ start, silence, addAt_silence lawful finiteChirp, ← List.append_assoc,
      ih (by rw [List.length_append, start, size]), List.append_assoc, List.map_cons, List.flatten_cons]

/-- The length without overlap (44_signal_assembler.md R203, R205). -/
theorem asmLength_no_overlap (t c : Nat) : asmLength t 0 c = (5 + c) * t := by
  rw [asmLength, Nat.zero_mul, Nat.sub_zero]
  ring

/-- Settles O40: `SYNC` is added to the silence after the first symbol, and the bits' chirps to the silence after it. -/
theorem assembleWithoutOverlap : Obligations.AssembleWithoutOverlap := by
  intro α N t coded sync up down lawful syncSize upSize downSize finite
  rw [List.append_assoc] at finite
  obtain ⟨finiteSync, finiteChirps⟩ := List.forall_mem_append.mp finite
  have silence : List.replicate (asmLength t 0 coded.length) N.zero = List.replicate t N.zero ++
      (List.replicate sync.length N.zero ++ List.replicate (coded.length * t) N.zero) := by
    rw [List.replicate_append_replicate, List.replicate_append_replicate, asmLength_no_overlap, syncSize]
    congr 1
    ring
  have start : (List.replicate t N.zero ++ sync).length = 5 * t := by
    rw [List.length_append, List.length_replicate, syncSize]
    omega
  refine ⟨?_, by rw [assemble_length, asmLength_no_overlap]⟩
  rw [assemble, silence, addAt_append _ _ _ _ _ List.length_replicate, addAt_silence lawful finiteSync,
    ← List.append_assoc, Nat.sub_zero, placeBits_silence lawful upSize downSize finiteChirps start]

end

/-! ### The command -/

/-- `ASM` sets `V.ASM` and clears `V.OUT` (10_state.md R35). -/
theorem completedStatus_asm (st : Flags) : completedStatus .asm st = (st &&& 0x7F#8) ||| 0x40#8 := rfl

/-- Settles O37: `ASM` has no check of its own. -/
theorem asmCompletes : Obligations.AsmCompletes := by
  intro s noError ready t l
  refine ⟨?_, lengthReg_of_lt _⟩
  rw [exec_own .asm s (.inl noError) (missingFlags_eq_zero rfl ready), ← completedStatus_asm]
  rfl

section

variable {α : Type} {P : Params α} {b : Block α}

/-- As many samples as the rule says of the block's registers (44_signal_assembler.md R203). -/
theorem assembled_length (b : Block α) (P : Params α) :
    (b.assembled P).length = asmLength b.tsym.toNat b.ovsamp.toNat b.codedLen.toNat := by
  rw [Block.assembled, assemble_length, Block.codedList, elemsOr_length]

/-- The length in integers: the overlaps take away no more samples than the symbols have (44_signal_assembler.md
R203). -/
theorem asmLength_cast {t ov c : Nat} (overlap : ov ≤ t) (coded : 1 ≤ c) :
    (asmLength t ov c : Int) = t + 4 * t + c * t - ov * (c - 1 : Int) := by
  have enough : ov * (c - 1) ≤ t + 4 * t + c * t := by
    calc ov * (c - 1) ≤ t * c := Nat.mul_le_mul overlap (Nat.sub_le c 1)
      _ = c * t := Nat.mul_comm t c
      _ ≤ t + 4 * t + c * t := Nat.le_add_left _ _
  rw [asmLength, Nat.cast_sub enough, Nat.cast_mul ov, Nat.cast_sub coded]
  push_cast
  rfl

/-- A valid CodedSequence is not empty and inside its capacity, and `CODEDLEN` holds its length where it can
(42_fec_encoder.md R146, 10_state.md R32). -/
theorem Block.Coherent.codedSize (coherent : b.Coherent P) (bounded : b.bitLen.toNat ≤ P.mmax)
    (valid : hasFlags b.status vCoded = true) (short : b.coded.length < 2 ^ 32) :
    b.codedLen.toNat = b.coded.length ∧ 1 ≤ b.coded.length ∧ b.coded.length ≤ P.cmax := by
  obtain ⟨coded, codedLen, -⟩ := coherent.coded valid
  have size : b.coded.length = b.bitLen.toNat + rmin b.bitLen.toNat + 2 := by
    rw [coded, fecEncode_length, bitList_length]
  have room : b.bitLen.toNat + rmin b.bitLen.toNat + 2 ≤ P.cmax :=
    Nat.add_le_add_right (Nat.add_le_add bounded (rmin_mono bounded)) 2
  refine ⟨?_, by omega, size.trans_le room⟩
  rw [codedLen, ← size, lengthReg_toNat P short]

end

/-- Settles O38: the signal has the length of its rule, at most that without overlap, and neither the coded bits nor the
symbol exceed their capacities. (The name `asmLength` is that of the model's length.) -/
theorem execAsmLength : Obligations.AsmLength := by
  intro s sound coherent noError ready short
  have cfg : hasFlags s.status vCfg = true := hasFlags_of_submask ready rfl
  have coded : hasFlags s.status vCoded = true := hasFlags_of_submask ready rfl
  obtain ⟨-, -, -, -, tsym, -, overlap⟩ := initFails_none (coherent.cfg cfg)
  obtain ⟨codedLen, nonempty, room⟩ := coherent.codedSize sound.bitLen coded short
  obtain ⟨done, -⟩ := asmCompletes s noError ready
  have size := assembled_length s.toBlock Config.params
  refine ⟨_, done, codedLen, ?closedForm, ?capacity, fun fits => ?register⟩
  case closedForm => exact (congrArg Nat.cast size).trans (asmLength_cast overlap.le (codedLen ▸ nonempty))
  case capacity =>
    calc (s.assembled Config.params).length
      _ = asmLength s.tsym.toNat s.ovsamp.toNat s.codedLen.toNat := size
      _ ≤ (5 + s.codedLen.toNat) * s.tsym.toNat := asmLength_le _ _ _
      _ ≤ Config.params.asmmax := Nat.mul_le_mul (Nat.add_le_add_left (codedLen ▸ room) 5) tsym
  case register => exact (lengthReg_toNat _ (size ▸ fits)).trans size.symm

end Sys2Proof.Machine
end

section
/-!
PROOFS. `REND`: the samples of the rendered audio copy by copy, their range over exact numbers, the checks in their
order, and that a sound state has a signal that is not all zero (45_renderer_quantizer.md R220 to R228).
-/
namespace Sys2Proof.Machine

/-! ### The copies and the gaps -/

section

variable {count gap l c j : Nat} {one : List Sample} {v : Sample}

/-- One more copy stands before the others (45_renderer_quantizer.md R223). -/
theorem replicateWithGap_succ (count gap : Nat) (one : List Sample) :
    replicateWithGap (count + 1) gap one = (one ++ List.replicate gap 0#16) ++ replicateWithGap count gap one := by
  rw [replicateWithGap, List.replicate_succ, List.flatten_cons, replicateWithGap]

/-- Every copy is the signal and its gap (45_renderer_quantizer.md R223). -/
theorem replicateWithGap_get (size : one.length = l) (copy : c < count) (inside : j < l + gap) :
    (replicateWithGap count gap one)[c * (l + gap) + j]? = (one ++ List.replicate gap 0#16)[j]? := by
  have copySize : (one ++ List.replicate gap 0#16).length = l + gap := by simp [size]
  induction count generalizing c with
  | zero => omega
  | succ count ih =>
    rw [replicateWithGap_succ]
    cases c with
    | zero => rw [Nat.zero_mul, Nat.zero_add, List.getElem?_append_left (copySize ▸ inside)]
    | succ c =>
      have next : (c + 1) * (l + gap) + j = (l + gap) + (c * (l + gap) + j) := by ring
      rw [next, List.getElem?_append_right (by omega), copySize, Nat.add_sub_cancel_left, ih (by omega)]

/-- Sample `j` of every copy is sample `j` of the signal (45_renderer_quantizer.md R223). -/
theorem replicateWithGap_getD_signal (size : one.length = l) (copy : c < count) (inside : j < l) :
    (replicateWithGap count gap one).getD (c * (l + gap) + j) 0 = one.getD j 0 := by
  rw [List.getD_eq_getElem?_getD, replicateWithGap_get size copy (by omega), List.getElem?_append_left (by omega),
    ← List.getD_eq_getElem?_getD]

/-- Every sample of every gap is 0 (45_renderer_quantizer.md R223). -/
theorem replicateWithGap_getD_gap (size : one.length = l) (copy : c < count) (inside : j < gap) :
    (replicateWithGap count gap one).getD (c * (l + gap) + l + j) 0 = 0 := by
  rw [List.getD_eq_getElem?_getD, Nat.add_assoc, replicateWithGap_get size copy (by omega),
    List.getElem?_append_right (by omega), size, Nat.add_sub_cancel_left, List.getElem?_replicate_of_lt inside]
  rfl

/-- A sample of the audio is one of the signal or one of a gap (45_renderer_quantizer.md R223). -/
theorem mem_replicateWithGap (member : v ∈ replicateWithGap count gap one) : v ∈ one ∨ v = 0 := by
  obtain ⟨copy, copies, inside⟩ := List.mem_flatten.mp member
  rw [List.eq_of_mem_replicate copies] at inside
  exact (List.mem_append.mp inside).imp_right List.eq_of_mem_replicate

end

/-! ### The quantized signal over exact numbers -/

/-- One copy: every sample of the signal quantized (45_renderer_quantizer.md R226). -/
def quantizedSignal {α : Type} (N : NUM α) (volume : α) (asm : List α) : List Sample :=
  asm.map fun x => BitVec.ofInt 16 (quantized N volume (peakOf N asm) x)

@[simp] theorem quantizedSignal_length {α : Type} (N : NUM α) (volume : α) (asm : List α) :
    (quantizedSignal N volume asm).length = asm.length := List.length_map _

section

variable {K : Type} [Field K] [LinearOrder K] [FloorRing K] [IsStrictOrderedRing K] {pi : K} {sin cos : K → K}
  {volume peak x : K} {asm : List K} {k : Nat}

/-- An integer is its own rounding (00_scope.md R17). -/
theorem roundHalfEven_intCast (n : Int) : roundHalfEven (n : K) = n := by
  obtain ⟨lo, hi⟩ := roundHalfEven_bounds (le_refl (n : K)) (le_refl (n : K))
  exact le_antisymm hi lo

/-- At full volume a sample of largest magnitude becomes full scale with its own sign (45_renderer_quantizer.md
R228). -/
theorem quantized_of_abs_eq_peak (nonzero : peak ≠ 0) (largest : |x| = peak) :
    quantized (exactNum pi sin cos) 1 peak x = if 0 < x then 32767 else -32767 := by
  have scaled : quantized (exactNum pi sin cos) 1 peak x = roundHalfEven (x * 1 / peak * 32767) := rfl
  rw [scaled, mul_one]
  split
  case isTrue positive =>
    rw [← largest, abs_of_pos positive, div_self positive.ne', one_mul]
    exact_mod_cast roundHalfEven_intCast (K := K) 32767
  case isFalse negative =>
    have same : x = -peak := by rw [← largest, abs_of_nonpos (not_lt.mp negative), neg_neg]
    rw [same, neg_div, div_self nonzero, neg_one_mul]
    exact_mod_cast roundHalfEven_intCast (K := K) (-32767)

section

variable (nonneg : 0 ≤ volume) (le_one : volume ≤ 1) (nonzero : peakOf (exactNum pi sin cos) asm ≠ 0)
include nonneg le_one nonzero

/-- No sample of a signal is above its peak, so that each is quantized in range (45_renderer_quantizer.md R228). -/
theorem quantized_mem_range (member : x ∈ asm) :
    -32767 ≤ quantized (exactNum pi sin cos) volume (peakOf (exactNum pi sin cos) asm) x ∧
      quantized (exactNum pi sin cos) volume (peakOf (exactNum pi sin cos) asm) x ≤ 32767 :=
  quantized_range nonneg le_one ((peakOf_nonneg asm).lt_of_ne nonzero.symm) (abs_le_peakOf member)

/-- The stored pattern of a sample is that of its integer (45_renderer_quantizer.md R226, R228). -/
theorem toInt_ofInt_quantized (member : x ∈ asm) :
    (BitVec.ofInt 16 (quantized (exactNum pi sin cos) volume (peakOf (exactNum pi sin cos) asm) x)).toInt =
      quantized (exactNum pi sin cos) volume (peakOf (exactNum pi sin cos) asm) x := by
  obtain ⟨lo, hi⟩ := quantized_mem_range nonneg le_one nonzero member
  exact toInt_ofInt_sample (by omega) hi

/-- Sample `k` of a copy is the quantized sample `k` of the signal (45_renderer_quantizer.md R226). -/
theorem toInt_quantizedSignal_getD (inside : k < asm.length) :
    ((quantizedSignal (exactNum pi sin cos) volume asm).getD k 0).toInt =
      quantized (exactNum pi sin cos) volume (peakOf (exactNum pi sin cos) asm) (asm.getD k 0) := by
  rw [List.getD_eq_getElem _ _ (by rwa [quantizedSignal_length]), List.getD_eq_getElem _ _ inside]
  exact (congrArg BitVec.toInt (List.getElem_map _)).trans
    (toInt_ofInt_quantized nonneg le_one nonzero (List.getElem_mem inside))

/-- Every sample of a copy is in range (45_renderer_quantizer.md R228). -/
theorem quantizedSignal_range {v : Sample} (member : v ∈ quantizedSignal (exactNum pi sin cos) volume asm) :
    -32767 ≤ v.toInt ∧ v.toInt ≤ 32767 := by
  obtain ⟨x, signal, rfl⟩ := List.mem_map.mp member
  rw [toInt_ofInt_quantized nonneg le_one nonzero signal]
  exact quantized_mem_range nonneg le_one nonzero signal

/-- The whole signal renders: copies of the quantized signal, each with its gap (45_renderer_quantizer.md R223,
R228). -/
theorem renderSignal_eq_some (count gap : Nat) : renderSignal (exactNum pi sin cos) count gap volume asm =
    some (replicateWithGap count gap (quantizedSignal (exactNum pi sin cos) volume asm)) := by
  have inRange : ∀ x ∈ asm,
      -32768 ≤ quantized (exactNum pi sin cos) volume (peakOf (exactNum pi sin cos) asm) x ∧
        quantized (exactNum pi sin cos) volume (peakOf (exactNum pi sin cos) asm) x ≤ 32767 := by
    intro x member
    obtain ⟨lo, hi⟩ := quantized_mem_range nonneg le_one nonzero member
    exact ⟨by omega, hi⟩
  rw [renderSignal, quantizeAll_some asm inRange, Option.map_some, quantizedSignal]

end

end

/-- Settles O43: a sample is at most the peak in magnitude, so that its quotient is in `[-1, 1]`, and `round` keeps it
inside the integer bounds. -/
theorem renderedRange : Obligations.RenderedRange := by
  intro K _ _ _ _ pi sin cos volume asm N peak nonneg le_one nonzero
  refine ⟨fun x => quantized_mem_range nonneg le_one nonzero, fun x _ => quantized_of_abs_eq_peak nonzero,
    fun count gap => ⟨_, renderSignal_eq_some nonneg le_one nonzero count gap, ?length, fun v member => ?range⟩⟩
  case length => rw [replicateWithGap_length, quantizedSignal_length, totalLength]
  case range =>
    rcases mem_replicateWithGap member with signal | rfl
    · exact quantizedSignal_range nonneg le_one nonzero signal
    · decide

/-! ### The checks -/

section

variable {α : Type} {P : Params α} {b t : Block α} {e : BlockError} {info : U32}

/-- `REND` raises what its first failing check says (45_renderer_quantizer.md R221). -/
theorem rendBody_raises (fails : rendFails P b (b.asmList P b.asmLen.toNat) = some (e, info)) :
    rendBody P b = .next (raise e info 0x80#8 b) := by
  unfold rendBody
  dsimp only
  rw [fails]
  rfl

/-- `DegenerateSignal` is the error of a peak of 0 alone (45_renderer_quantizer.md R225). -/
theorem isZero_peakOf_of_rendFails {asm : List α} (fails : rendFails P b asm = some (.degenerateSignal, info)) :
    P.num.isZero (peakOf P.num asm) = true := by
  simp only [rendFails] at fails
  split_ifs at fails <;> cases fails
  assumption

/-- Code 6 is that of `DegenerateSignal` alone (60_exceptions.md R250). -/
theorem eq_degenerateSignal_of_code (h : e.code = 6) : e = .degenerateSignal := by
  cases e with
  | degenerateSignal => rfl
  | _ => exact absurd h (by decide)

/-- Where no error was recorded, a `REND` that ends with error code 6 has found a peak of 0 (45_renderer_quantizer.md
R225, 60_exceptions.md R256). -/
theorem isZero_peakOf_of_rendBody (noError : b.err = 0) (h : rendBody P b = .next t) (error : t.err = 6) :
    P.num.isZero (peakOf P.num (b.asmList P b.asmLen.toNat)) = true := by
  cases fails : rendFails P b (b.asmList P b.asmLen.toNat) with
  | none =>
    unfold rendBody at h
    dsimp only at h
    rw [fails] at h
    dsimp only at h
    split at h
    · cases h
    · cases h
      exact absurd (noError.symm.trans error) (by decide)
  | some failure =>
    obtain ⟨e, info⟩ := failure
    rw [rendBody_raises fails] at h
    cases h
    cases eq_degenerateSignal_of_code error
    exact isZero_peakOf_of_rendFails fails

end

/-- A `REND` of the machine that may execute follows its own rule (40_control.md R100). -/
theorem exec_rend {s : State} (noError : s.err = 0) (ready : s.status &&& 0x41#8 = 0x41#8) :
    exec .rend s = onBlock (rendBody Config.params) s :=
  exec_own .rend s (.inl noError) (missingFlags_eq_zero rfl ready)

/-- The checks of the machine's `REND`, as relations between numbers (45_renderer_quantizer.md R221, R222, R225). -/
theorem rendFails_config (b : Block NumVal) (asm : List NumVal) : rendFails Config.params b asm =
    if b.repeatCount.toInt < 1 then some (.invalidRepeat, b.repeatCount)
    else if ¬ (0 ≤ b.volume ∧ b.volume ≤ 1) then some (.invalidVolume, 0)
    else if ¬ 0 ≤ b.interval then some (.invalidParameter, 10)
    else if outmax < totalLength b.repeatCount.toNat asm.length (gapSamples Config.num b.interval b.fs.toNat) then
      some (.invalidParameter, 19)
    else if peakOf Config.num asm = 0 then some (.degenerateSignal, 0)
    else none := by
  have le : ∀ u v : NumVal, Config.num.le u v = true ↔ u ≤ v := fun u v => decide_eq_true_iff
  have isZero : ∀ v : NumVal, Config.num.isZero v = true ↔ v = 0 := fun v => decide_eq_true_iff
  have num : Config.params.num = Config.num := rfl
  simp only [rendFails, num, le, isZero]
  rfl

/-- Settles O42: `rendFails` makes the checks in this order, and each gives its error and detail word. -/
theorem rendChecksInOrder : Obligations.RendChecksInOrder := by
  intro s noError ready asm fails gap
  have raises : ∀ {e info}, rendFails Config.params s.toBlock asm = some (e, info) → exec .rend s = fails e info :=
    fun failed => (exec_rend noError ready).trans (onBlock_next (rendBody_raises failed))
  have size : asm.length = s.asmLen.toNat := asmList_length _ _ _
  have checks := rendFails_config s.toBlock asm
  rw [size] at checks
  refine ⟨fun count => raises ?_, fun count volume => raises ?_, fun count lo hi interval => raises ?_,
    fun count lo hi interval total => raises ?_, fun count lo hi interval total peak => raises ?_⟩
  · rw [checks, if_pos count]
  · rw [checks, if_neg (not_lt.mpr count), if_pos volume]
  · rw [checks, if_neg (not_lt.mpr count), if_neg (not_not.mpr ⟨lo, hi⟩), if_pos interval]
  · rw [checks, if_neg (not_lt.mpr count), if_neg (not_not.mpr ⟨lo, hi⟩), if_neg (not_not.mpr interval)]
    exact if_pos total
  · rw [checks, if_neg (not_lt.mpr count), if_neg (not_not.mpr ⟨lo, hi⟩), if_neg (not_not.mpr interval)]
    exact (if_neg (not_lt.mpr total)).trans (if_pos peak)

/-! ### Completion -/

/-- `REND` sets `V.OUT` alone (10_state.md R35). -/
theorem completedStatus_rend (st : Flags) : completedStatus .rend st = st ||| 0x80#8 := by
  have kept : clearMask 0#8 st = st := BitVec.and_allOnes
  rw [completedStatus, completionClears, kept, completionSets, vOut]

/-- Where every check passes, `REND` over exact numbers stores the copies of the quantized signal
(45_renderer_quantizer.md R227). -/
theorem rendBody_completes {K : Type} [Field K] [LinearOrder K] [FloorRing K] [IsStrictOrderedRing K] {pi : K}
    {sin cos : K → K} {P : Params K} {b : Block K} (exactNumbers : P.num = exactNum pi sin cos)
    (checks : rendFails P b (b.asmList P b.asmLen.toNat) = none) :
    let gap := gapSamples P.num b.interval b.fs.toNat
    rendBody P b = .next { b with
      out := replicateWithGap b.repeatCount.toNat gap (quantizedSignal P.num b.volume (b.asmList P b.asmLen.toNat))
      gap := lengthReg P gap
      outLen := lengthReg P (totalLength b.repeatCount.toNat b.asmLen.toNat gap)
      status := b.status ||| 0x80#8 } := by
  intro gap
  obtain ⟨-, nonneg, le_one, -, -, nonzero⟩ := rendFails_none checks
  have rendered : ∀ count gap, renderSignal P.num count gap b.volume (b.asmList P b.asmLen.toNat) =
      some (replicateWithGap count gap (quantizedSignal P.num b.volume (b.asmList P b.asmLen.toNat))) := by
    rw [exactNumbers] at nonneg le_one nonzero ⊢
    exact renderSignal_eq_some (of_decide_eq_true nonneg) (of_decide_eq_true le_one) (of_decide_eq_false nonzero)
  have own := (Completes.rend _ checks (rendered _ _)).ownRule nofun
  rwa [Block.completed, completedStatus_rend, asmList_length] at own

/-- A gap is no longer than the audio it stands in (45_renderer_quantizer.md R222). -/
theorem gap_le_totalLength {count : Nat} (copies : 1 ≤ count) (l gap : Nat) : gap ≤ totalLength count l gap :=
  (Nat.le_add_left gap l).trans (Nat.le_mul_of_pos_left (l + gap) copies)

/-- Settles O41: every check passes, so that `OUT` is the copies of the quantized signal, and the total, below `2^32`,
is one its register holds. -/
theorem rendCompletes : Obligations.RendCompletes := by
  intro s noError ready count lo hi interval l asm gap peak fits nonzero
  have size : asm.length = l := asmList_length _ _ _
  have signalSize : (quantizedSignal Config.num s.volume asm).length = l := (quantizedSignal_length _ _ _).trans size
  have total : totalLength s.repeatCount.toNat l gap < 2 ^ 32 := fits.trans_lt outmax_lt
  have checks : rendFails Config.params s.toBlock asm = none :=
    rendFails_eq_none count ⟨decide_eq_true lo, decide_eq_true hi⟩ (decide_eq_true interval) (size ▸ fits)
      (decide_eq_false nonzero)
  have outLen := lengthReg_toNat Config.params total
  have done := (exec_rend noError ready).trans (onBlock_next (rendBody_completes rfl checks))
  refine ⟨_, done, rfl, ?gap, outLen, ?length, fun c copy => ⟨fun k inside => ?signal, fun k inside => ?silence⟩⟩
  case gap =>
    exact lengthReg_toNat _ ((gap_le_totalLength (one_le_toNat_of_one_le_toInt count) l gap).trans_lt total)
  case length => exact (replicateWithGap_length _ _ _).trans (signalSize ▸ outLen.symm)
  case signal =>
    exact (congrArg BitVec.toInt (replicateWithGap_getD_signal signalSize copy inside)).trans
      (toInt_quantizedSignal_getD lo hi nonzero (size.symm ▸ inside))
  case silence => exact replicateWithGap_getD_gap signalSize copy inside

/-! ### A sound state -/

section

variable {α : Type} {P : Params α} {b : Block α}

/-- Silence and `SYNC` fit in the signal, of no coded bit too (44_signal_assembler.md R203). -/
theorem five_mul_le_asmLength {t ov : Nat} (overlap : ov < t) (c : Nat) : 5 * t ≤ asmLength t ov c := by
  cases c with
  | zero => rw [asmLength]; omega
  | succ c => exact Nat.le_of_add_right_le (le_asmLength overlap (Nat.succ_pos c))

/-- A valid signal whose length `ASMLEN` holds is what `REND` reads (10_state.md R23, log 20). -/
theorem Block.Coherent.asmList_eq (coherent : b.Coherent P) (valid : hasFlags b.status vAsm = true)
    (short : b.asm.length < 2 ^ 32) : b.asmList P b.asmLen.toNat = b.assembled P := by
  obtain ⟨asm, asmLen⟩ := coherent.asm valid
  have size : b.asm.length = asmLength b.tsym.toNat b.ovsamp.toNat b.codedLen.toNat := by rw [asm, assembled_length]
  rw [← asm, asmLen, ← size, lengthReg_toNat P short]
  exact elemsOr_full _ _

end

/-- A sound block with a valid signal has a peak of at least 1: the signal holds a `SYNC` of the current parameters
(45_renderer_quantizer.md R225). -/
theorem Block.Coherent.one_le_peakOf {K : Type} [Field K] [LinearOrder K] [FloorRing K] [IsStrictOrderedRing K] {pi : K}
    {sin cos : K → K} {P : Params K} {b : Block K} (exactNumbers : P.num = exactNum pi sin cos)
    (coherent : b.Coherent P) (legal : FlagsLegal b.status) (cfg : hasFlags b.status vCfg = true)
    (valid : hasFlags b.status vAsm = true) (short : b.asm.length < 2 ^ 32) :
    1 ≤ peakOf P.num (b.asmList P b.asmLen.toNat) := by
  obtain ⟨-, -, -, -, sources, -⟩ := legal
  have chirp := coherent.sync (hasFlags_of_submask (beq_iff_eq.mp (sources valid)) rfl)
  obtain ⟨-, -, -, -, -, -, overlap⟩ := initFails_none (coherent.cfg cfg)
  have size : b.sync.length = 4 * b.tsym.toNat := synthesize_length chirp
  have sync : b.syncList P (4 * b.tsym.toNat) = b.sync := elemsOr_of_length size
  rw [Block.chirp, exactNumbers] at chirp
  have unit := exists_abs_eq_one_of_synthesize chirp (samples_of_synthesize chirp)
  have coded : (b.codedList P b.codedLen.toNat).length = b.codedLen.toNat := elemsOr_length _ _ _
  rw [coherent.asmList_eq valid short, Block.assembled, sync, exactNumbers]
  exact one_le_peakOf_assemble unit size (coded ▸ five_mul_le_asmLength overlap _)

/-- Settles O44: `DegenerateSignal` needs a peak of 0, and the peak of a sound state is at least 1. -/
theorem degenerateSignalUnreachable : Obligations.DegenerateSignalUnreachable := by
  intro s sound coherent noError ready short
  have peak : 1 ≤ peakOf Config.num (s.asmList Config.params s.asmLen.toNat) :=
    Block.Coherent.one_le_peakOf rfl coherent sound.flags (hasFlags_of_submask ready rfl)
      (hasFlags_of_submask ready rfl) short
  refine ⟨peak, fun t answered error => ?_⟩
  rw [exec_rend noError ready] at answered
  obtain ⟨b, rule, rfl⟩ := onBlock_eq_next answered
  have zero : peakOf Config.num (s.asmList Config.params s.asmLen.toNat) = 0 :=
    of_decide_eq_true (isZero_peakOf_of_rendBody noError rule error)
  exact absurd (zero ▸ peak) (by decide)

end Sys2Proof.Machine
end

section
/-!
PROOFS. Errors: what a raise writes and which buffers it leaves alone (60_exceptions.md R250, R261), and that a recorded
error stays until `CLRERR` or a reset (R264).
-/
namespace Sys2Proof.Machine

/-! ### Steps while an error is recorded -/

/-- A value written to `CMD` while an error is recorded changes nothing, unless it is the word of `CLRERR`
(60_exceptions.md R264). -/
theorem regWrite_cmd_halted {v : HostVal NumVal} {s t : State} (error : s.err ≠ 0)
    (other : ∀ x, v.toInt Config.num = some x → BitVec.ofInt 16 x ≠ encode .clrErr) (h : regWrite 0 v s = .next t) :
    t = s := by
  rcases regWrite_cases h with ⟨-, x, value, issued⟩ | ⟨nonzero, -⟩
  · rw [issue_halted error (other x value)] at issued
    cases issued
    rfl
  · exact absurd rfl nonzero

/-- Settles O10: a command other than `CLRERR` is ignored, and the other host moves touch no result. -/
theorem errorStaysUntilCleared : Obligations.ErrorStaysUntilCleared := by
  intro s t m rest pending error noReset noClear hs
  rw [step_of_pending pending] at hs
  by_cases command : ∃ v, m = .regWrite 0 v
  · obtain ⟨v, rfl⟩ := command
    have ignored : t = s.takeMove rest true :=
      regWrite_cmd_halted (s := s.takeMove rest true) error (fun x => noClear v x rfl) hs
    rw [ignored, takeMove_toBlock]
    exact ⟨rfl, rfl⟩
  · have same := perform_sameResults noReset (not_exists.mp command) hs
    exact ⟨same.err, same.errInfo⟩

/-! ### A raise -/

/-- What a raise makes of a buffer whose flag `v` it does not clear: the contents `kept` it had (60_exceptions.md
R261). -/
theorem ite_anyFlag_of_and_eq_zero {β : Type} {f v : Flags} (outside : f &&& v = 0#8) (forgotten kept : β) :
    (if anyFlag f v then forgotten else kept) = kept := by
  rw [anyFlag, outside, bne_self_eq_false, if_neg Bool.false_ne_true]

/-- Settles O9: a raise is that update of the block, in which each buffer's contents depend on its own flag in the
mask. -/
theorem raiseEffect : Obligations.RaiseEffect := by
  refine ⟨fun α e info f s => ⟨rfl, ?bits, ?coded, ?sync, ?up, ?down, ?asm, ?out⟩,
    rfl, rfl, rfl, rfl, rfl, rfl, rfl, rfl⟩
  all_goals exact fun outside => ite_anyFlag_of_and_eq_zero outside _ _

end Sys2Proof.Machine
end

section
/-!
PROOFS. The block between the host's moves (60_exceptions.md R267), and what a reset move leaves in every register and
in the message (70_reset_and_hazards.md R280, R281).
-/
namespace Sys2Proof.Machine

/-- Settles O6: a step is the host's next move, and without one it answers the state it was taken in. -/
theorem idleStepChangesNothing : Obligations.IdleStepChangesNothing := by
  intro s idle
  show advance s = .next s
  rw [advance, idle]

/-! ### A reset move -/

/-- A step whose move is a reset resets the block, whatever it held; the move is taken
(70_reset_and_hazards.md R280). -/
theorem step_reset {s : State} {rest : List (HostMove NumVal)} (pending : s.pending = .reset :: rest) :
    step s = .next (resetMove (s.takeMove rest true)) :=
  step_of_pending pending

/-- The first five characters of `MSG` after a reset move are stored, so that the new generation of free contents does
not show in them (70_reset_and_hazards.md R281). -/
theorem resetBlock_msgList {α : Type} (P : Params α) (b : Block α) :
    (resetBlock P b).msgList P 5 = [0x31#8, 0x35#8, 0x39#8, 0x37#8, 0x33#8] := rfl

/-- The `Num` registers after a reset move: the machine's `NUM` is that of exact rationals
(70_reset_and_hazards.md R281). -/
theorem resetMove_nums (s : State) : (resetMove s).fc = 19500 ∧ (resetMove s).bw = 1000 ∧
    (resetMove s).interval = 500 ∧ (resetMove s).volume = 8 / 10 := by
  have volume : (resetMove s).volume = ((8 : Int) : Rat) / 10 ^ 1 := rfl
  exact ⟨rfl, rfl, rfl, volume.trans (by norm_num)⟩

/-- Settles O56: the block of a reset move is that of reset but for its generations, which no register and no stored
character shows. -/
theorem resetGivesTheResetValues : Obligations.ResetGivesTheResetValues := by
  intro s rest pending
  obtain ⟨fc, bw, interval, volume⟩ := resetMove_nums (s.takeMove rest true)
  exact ⟨_, step_reset pending, rfl, rfl, rfl, rfl, fc, bw, rfl, rfl, rfl, interval, rfl, volume, rfl, rfl, rfl, rfl,
    rfl, rfl, rfl, resetBlock_msgList Config.params s.toBlock⟩

end Sys2Proof.Machine
end
